-- ==== Sys2Proof/Word.lean ====
section
/-! DEFINITION. The word types of the machine (00_scope.md R2, 20_memory.md R59): 16-bit registers, literals and
addresses, and 8-bit opcode, selector, shift-amount and memory bytes. -/

namespace Sys2Proof

/-- A 16-bit value: every register, literal, address operand and stack word (R2). -/
abbrev Word := BitVec 16

/-- An 8-bit value: a byte of memory or of the instruction stream (R59). -/
abbrev Byte := BitVec 8

end Sys2Proof
end

