-- ==== Sys2Proof/Syntax.lean ====
section
/-! DEFINITION. The instruction set as syntax (30_encoding.md R79, R80): the register names, the mnemonics, the
operand fields and formats, and one constructor of `Instr` per row of the opcode table. -/

namespace Sys2Proof

/-- The closed enumeration of the 13 registers, in the canonical order that fixes their indices (10_state.md R20). -/
inductive Reg where
  | ip | acc | r1 | r2 | r3 | r4 | r5 | r6 | r7 | r8 | sp | fp | im
deriving DecidableEq, Repr

/-- The 50 mnemonics, in the order of the opcode table (30_encoding.md R79, R80). -/
inductive Mnemonic where
  | movLitReg
  | movRegReg
  | movRegMem
  | movMemReg
  | addRegReg
  | jneLit
  | subLitReg
  | pshLit
  | pshReg
  | pop
  | movLitMem
  | movRegPtrReg
  | movLitOffReg
  | subRegLit
  | subRegReg
  | mulLitReg
  | mulRegReg
  | lsfRegLit
  | lsfRegReg
  | rsfRegLit
  | rsfRegReg
  | andRegLit
  | andRegReg
  | orRegLit
  | orRegReg
  | xorRegLit
  | xorRegReg
  | not
  | incReg
  | decReg
  | jeqReg
  | addLitReg
  | jneReg
  | jeqLit
  | jltReg
  | jltLit
  | jgtReg
  | jgtLit
  | jleReg
  | jleLit
  | jgeReg
  | jgeLit
  | addRegLit
  | mulRegLit
  | calLit
  | calReg
  | ret
  | retInt
  | int
  | hlt
deriving DecidableEq, Repr

/-- The three kinds of operand field (30_encoding.md R71). -/
inductive Field where
  /-- `W`: two bytes, a 16-bit literal or address, big-endian. -/
  | word
  /-- `B`: one byte, a shift amount. -/
  | byte
  /-- `R`: one byte, a register selector. -/
  | sel
deriving DecidableEq, Repr

/-- The nine formats (30_encoding.md R75), named by their operand fields in byte order. -/
inductive Format where
  | n | r | w | wr | rw | rb | rr | ww | wrr
deriving DecidableEq, Repr

/-- One constructor per row of the opcode table, operands in encoding order (30_encoding.md R76, R80). Register
operands are registers, not selector bytes: the reduction modulo 13 (R74) is the decoder's. -/
inductive Instr where
  /-- MOV_LIT_REG (R100). -/
  | movLitReg (lit : Word) (rd : Reg)
  /-- MOV_REG_REG (R101). -/
  | movRegReg (rs : Reg) (rd : Reg)
  /-- MOV_REG_MEM (R102). -/
  | movRegMem (rs : Reg) (addr : Word)
  /-- MOV_MEM_REG (R103). -/
  | movMemReg (addr : Word) (rd : Reg)
  /-- ADD_REG_REG (R121). -/
  | addRegReg (ra : Reg) (rb : Reg)
  /-- JNE_LIT (R161). -/
  | jneLit (lit : Word) (t : Word)
  /-- SUB_LIT_REG (R125). -/
  | subLitReg (lit : Word) (r : Reg)
  /-- PSH_LIT (R186). -/
  | pshLit (lit : Word)
  /-- PSH_REG (R187). -/
  | pshReg (r : Reg)
  /-- POP (R188). -/
  | pop (rd : Reg)
  /-- MOV_LIT_MEM (R104). -/
  | movLitMem (lit : Word) (addr : Word)
  /-- MOV_REG_PTR_REG (R105). -/
  | movRegPtrReg (rp : Reg) (rd : Reg)
  /-- MOV_LIT_OFF_REG (R106). -/
  | movLitOffReg (base : Word) (ri : Reg) (rd : Reg)
  /-- SUB_REG_LIT (R126). -/
  | subRegLit (r : Reg) (lit : Word)
  /-- SUB_REG_REG (R124). -/
  | subRegReg (ra : Reg) (rb : Reg)
  /-- MUL_LIT_REG (R128). -/
  | mulLitReg (lit : Word) (r : Reg)
  /-- MUL_REG_REG (R127). -/
  | mulRegReg (ra : Reg) (rb : Reg)
  /-- LSF_REG_LIT (R141). -/
  | lsfRegLit (r : Reg) (lit8 : Byte)
  /-- LSF_REG_REG (R142). -/
  | lsfRegReg (ra : Reg) (rb : Reg)
  /-- RSF_REG_LIT (R143). -/
  | rsfRegLit (r : Reg) (lit8 : Byte)
  /-- RSF_REG_REG (R144). -/
  | rsfRegReg (ra : Reg) (rb : Reg)
  /-- AND_REG_LIT (R145). -/
  | andRegLit (r : Reg) (lit : Word)
  /-- AND_REG_REG (R146). -/
  | andRegReg (ra : Reg) (rb : Reg)
  /-- OR_REG_LIT (R147). -/
  | orRegLit (r : Reg) (lit : Word)
  /-- OR_REG_REG (R148). -/
  | orRegReg (ra : Reg) (rb : Reg)
  /-- XOR_REG_LIT (R149). -/
  | xorRegLit (r : Reg) (lit : Word)
  /-- XOR_REG_REG (R150). -/
  | xorRegReg (ra : Reg) (rb : Reg)
  /-- NOT (R151). -/
  | not (r : Reg)
  /-- INC_REG (R130). -/
  | incReg (r : Reg)
  /-- DEC_REG (R131). -/
  | decReg (r : Reg)
  /-- JEQ_REG (R164). -/
  | jeqReg (r : Reg) (t : Word)
  /-- ADD_LIT_REG (R122). -/
  | addLitReg (lit : Word) (r : Reg)
  /-- JNE_REG (R162). -/
  | jneReg (r : Reg) (t : Word)
  /-- JEQ_LIT (R163). -/
  | jeqLit (lit : Word) (t : Word)
  /-- JLT_REG (R166). -/
  | jltReg (r : Reg) (t : Word)
  /-- JLT_LIT (R165). -/
  | jltLit (lit : Word) (t : Word)
  /-- JGT_REG (R168). -/
  | jgtReg (r : Reg) (t : Word)
  /-- JGT_LIT (R167). -/
  | jgtLit (lit : Word) (t : Word)
  /-- JLE_REG (R170). -/
  | jleReg (r : Reg) (t : Word)
  /-- JLE_LIT (R169). -/
  | jleLit (lit : Word) (t : Word)
  /-- JGE_REG (R172). -/
  | jgeReg (r : Reg) (t : Word)
  /-- JGE_LIT (R171). -/
  | jgeLit (lit : Word) (t : Word)
  /-- ADD_REG_LIT (R123). -/
  | addRegLit (r : Reg) (lit : Word)
  /-- MUL_REG_LIT (R129). -/
  | mulRegLit (r : Reg) (lit : Word)
  /-- CAL_LIT (R189). -/
  | calLit (t : Word)
  /-- CAL_REG (R190). -/
  | calReg (r : Reg)
  /-- RET (R191). -/
  | ret
  /-- RET_INT (R201). -/
  | retInt
  /-- INT (R200). -/
  | int (value : Word)
  /-- HLT (R202). -/
  | hlt
deriving DecidableEq, Repr

end Sys2Proof
end

