-- ==== Sys2Proof/Config.lean ====
section
/-! DEFINITION. The construction parameters (00_scope.md R5, R11) and the named alternatives of
92_eei_decisions.md. They are fixed for the lifetime of one engine. -/

namespace Sys2Proof

/-- `OPCODE_MAP`: the byte of each mnemonic, as the rows of the opcode table in its order (30_encoding.md R80). -/
abbrev OpcodeMap := List (Byte × Mnemonic)

/-- The four points where 92_eei_decisions.md names a parameter a model may take instead of the rule's reading. -/
structure Readings where
  /-- D6 `SHIFT_MOD32`: the shift amount is taken mod 32 first. -/
  shiftMod32 : Bool
  /-- D7 `EA_WRAP16`: indexed and vector-entry addresses are taken mod 2^16 first. -/
  eaWrap16 : Bool
  /-- D4 `JUMP_OPERAND_ON_LEFT`: a jump compares `v OP acc` (true) or `acc OP v` (false). -/
  jumpOperandOnLeft : Bool
  /-- D9 `POPSTATE_SFS_ADJUST`: what `popState` subtracts from the popped frame size to set `sfs`. -/
  popStateSfsAdjust : Word
deriving DecidableEq, Repr

/-- The parameters of one engine (00_scope.md R5). `IVT_BASE` has every 16-bit value as a legal value. -/
structure Config where
  /-- `MEM_SIZE`, the number N of bytes of main memory. -/
  memSize : Nat
  /-- `IVT_BASE`, the address of entry 0 of the interrupt vector table. -/
  ivtBase : Word
  /-- `OPCODE_MAP`. -/
  opcodeMap : OpcodeMap
  /-- The alternatives of 92_eei_decisions.md. -/
  readings : Readings
deriving DecidableEq, Repr

/-- The readings the rules themselves state: R140 (D6), R55 (D7), R160 (D4), R183 (D9). -/
def Readings.spec : Readings where
  shiftMod32 := false
  eaWrap16 := false
  jumpOperandOnLeft := true
  popStateSfsAdjust := 2

end Sys2Proof
end

