-- ==== Sys2Proof/WellFormed.lean ====
section
/-! DEFINITION. What a well-formed configuration is (00_scope.md R5, R11). An instruction needs no check: the types of
`Instr`'s operands admit exactly the values the spec admits (30_encoding.md R77, R78: "no literal or address value is
illegal", and a register operand is one of the 13 registers). -/

namespace Sys2Proof

/-- Every mnemonic once, in the order of the opcode table (30_encoding.md R79, R80). -/
def Mnemonic.all : List Mnemonic :=
  [.movLitReg, .movRegReg, .movRegMem, .movMemReg, .addRegReg, .jneLit, .subLitReg, .pshLit,
   .pshReg, .pop, .movLitMem, .movRegPtrReg, .movLitOffReg, .subRegLit, .subRegReg, .mulLitReg,
   .mulRegReg, .lsfRegLit, .lsfRegReg, .rsfRegLit, .rsfRegReg, .andRegLit, .andRegReg, .orRegLit,
   .orRegReg, .xorRegLit, .xorRegReg, .not, .incReg, .decReg, .jeqReg, .addLitReg,
   .jneReg, .jeqLit, .jltReg, .jltLit, .jgtReg, .jgtLit, .jleReg, .jleLit,
   .jgeReg, .jgeLit, .addRegLit, .mulRegLit, .calLit, .calReg, .ret, .retInt,
   .int, .hlt]

/-- `MEM_SIZE` is in 1 .. 65536 (00_scope.md R5, D14). -/
def Config.memSizeLegal (c : Config) : Bool :=
  decide (1 ≤ c.memSize) && decide (c.memSize ≤ 65536)

/-- `OPCODE_MAP` gives each of the 50 mnemonics a byte: its rows are the 50 mnemonics in the table's order (R5, R79). -/
def OpcodeMap.total (map : OpcodeMap) : Bool :=
  decide (map.map Prod.snd = Mnemonic.all)

/-- `OPCODE_MAP` is injective: "Every opcode byte is unique" (00_scope.md R11, 30_encoding.md R81). -/
def OpcodeMap.injective (map : OpcodeMap) : Bool :=
  decide (map.map Prod.fst).Nodup

/-- `OPCODE_MAP` is an injective map from the 50 mnemonics to bytes (00_scope.md R5). -/
def OpcodeMap.legal (map : OpcodeMap) : Bool :=
  map.total && map.injective

/-- The configuration is one that an engine may be built with (00_scope.md R5, R11). -/
def Config.legal (c : Config) : Bool :=
  c.memSizeLegal && c.opcodeMap.legal

end Sys2Proof
end

