-- ==== Sys2Proof/Decode.lean ====
section
/-! DEFINITION. The instruction encoding (30_encoding.md): byte order, register selectors, formats, the opcode map,
the decoder, total on any bytes and rejecting by name, and the encoder. -/

namespace Sys2Proof

/-! ## Bytes of a word (20_memory.md R56, 30_encoding.md R75) -/

/-- `v[15:8]`, the byte at the lower address. -/
def highByte (v : Word) : Byte := v.extractLsb' 8 8

/-- `v[7:0]`, the byte at the higher address. -/
def lowByte (v : Word) : Byte := v.extractLsb' 0 8

/-- `hi : lo`, the word whose bytes in memory are `hi` then `lo`. -/
def joinBytes (hi lo : Byte) : Word := hi ++ lo

/-! ## Registers and selectors (10_state.md R20, 30_encoding.md R74, R78) -/

/-- The canonical index of a register (10_state.md R20). -/
def Reg.index : Reg → Nat
  | .ip => 0 | .acc => 1 | .r1 => 2 | .r2 => 3 | .r3 => 4 | .r4 => 5 | .r5 => 6
  | .r6 => 7 | .r7 => 8 | .r8 => 9 | .sp => 10 | .fp => 11 | .im => 12

/-- The register of an index 0 .. 12 (10_state.md R20). Only reduced indices reach it, so the last arm is 12. -/
def Reg.ofIndex : Nat → Reg
  | 0 => .ip | 1 => .acc | 2 => .r1 | 3 => .r2 | 4 => .r3 | 5 => .r4 | 6 => .r5
  | 7 => .r6 | 8 => .r7 | 9 => .r8 | 10 => .sp | 11 => .fp | _ => .im

/-- The register a selector byte names: index `byte mod 13` (30_encoding.md R74). -/
def Reg.ofSelector (b : Byte) : Reg := Reg.ofIndex (b.toNat % 13)

/-- The canonical selector byte of a register: its index (30_encoding.md R78). -/
def Reg.selector (r : Reg) : Byte := BitVec.ofNat 8 r.index

/-! ## Formats (30_encoding.md R75) -/

/-- The operand fields of a format, in byte order. -/
def Format.fields : Format → List Field
  | .n => []
  | .r => [.sel]
  | .w => [.word]
  | .wr => [.word, .sel]
  | .rw => [.sel, .word]
  | .rb => [.sel, .byte]
  | .rr => [.sel, .sel]
  | .ww => [.word, .word]
  | .wrr => [.word, .sel, .sel]

/-- The number of bytes of a field (30_encoding.md R71). -/
def Field.width : Field → Nat
  | .word => 2
  | .byte => 1
  | .sel => 1

/-- The format of each instruction (30_encoding.md R80). -/
def Mnemonic.format : Mnemonic → Format
  | .movLitReg => .wr
  | .movRegReg => .rr
  | .movRegMem => .rw
  | .movMemReg => .wr
  | .addRegReg => .rr
  | .jneLit => .ww
  | .subLitReg => .wr
  | .pshLit => .w
  | .pshReg => .r
  | .pop => .r
  | .movLitMem => .ww
  | .movRegPtrReg => .rr
  | .movLitOffReg => .wrr
  | .subRegLit => .rw
  | .subRegReg => .rr
  | .mulLitReg => .wr
  | .mulRegReg => .rr
  | .lsfRegLit => .rb
  | .lsfRegReg => .rr
  | .rsfRegLit => .rb
  | .rsfRegReg => .rr
  | .andRegLit => .rw
  | .andRegReg => .rr
  | .orRegLit => .rw
  | .orRegReg => .rr
  | .xorRegLit => .rw
  | .xorRegReg => .rr
  | .not => .r
  | .incReg => .r
  | .decReg => .r
  | .jeqReg => .rw
  | .addLitReg => .wr
  | .jneReg => .rw
  | .jeqLit => .ww
  | .jltReg => .rw
  | .jltLit => .ww
  | .jgtReg => .rw
  | .jgtLit => .ww
  | .jleReg => .rw
  | .jleLit => .ww
  | .jgeReg => .rw
  | .jgeLit => .ww
  | .addRegLit => .rw
  | .mulRegLit => .rw
  | .calLit => .w
  | .calReg => .r
  | .ret => .n
  | .retInt => .n
  | .int => .w
  | .hlt => .n

/-- The number of operand bytes of an instruction, by its opcode alone (30_encoding.md R70, R83). -/
def Mnemonic.operandBytes (m : Mnemonic) : Nat := (m.format.fields.map Field.width).sum

/-- The length of an instruction in bytes, the `bytes` column of 30_encoding.md R80. -/
def Mnemonic.length (m : Mnemonic) : Nat := 1 + m.operandBytes

/-! ## The opcode map (30_encoding.md R80, R81) -/

/-- The default `OPCODE_MAP`, the table of 30_encoding.md R80 (92_eei_decisions.md D1). -/
def OpcodeMap.default : OpcodeMap :=
  [(0x10, .movLitReg), (0x11, .movRegReg), (0x12, .movRegMem), (0x13, .movMemReg), (0x14, .addRegReg),
   (0x15, .jneLit), (0x16, .subLitReg), (0x17, .pshLit), (0x18, .pshReg), (0x1A, .pop),
   (0x1B, .movLitMem), (0x1C, .movRegPtrReg), (0x1D, .movLitOffReg), (0x1E, .subRegLit), (0x1F, .subRegReg),
   (0x20, .mulLitReg), (0x21, .mulRegReg), (0x26, .lsfRegLit), (0x27, .lsfRegReg), (0x2A, .rsfRegLit),
   (0x2B, .rsfRegReg), (0x2E, .andRegLit), (0x2F, .andRegReg), (0x30, .orRegLit), (0x31, .orRegReg),
   (0x32, .xorRegLit), (0x33, .xorRegReg), (0x34, .not), (0x35, .incReg), (0x36, .decReg),
   (0x3E, .jeqReg), (0x3F, .addLitReg), (0x40, .jneReg), (0x41, .jeqLit), (0x42, .jltReg),
   (0x43, .jltLit), (0x44, .jgtReg), (0x45, .jgtLit), (0x46, .jleReg), (0x47, .jleLit),
   (0x48, .jgeReg), (0x49, .jgeLit), (0x50, .addRegLit), (0x51, .mulRegLit), (0x5E, .calLit),
   (0x5F, .calReg), (0x60, .ret), (0xFC, .retInt), (0xFD, .int), (0xFF, .hlt)]

/-- The mnemonic whose opcode byte is `op`; `none` for a byte that is not in the map (30_encoding.md R82, R87). -/
def mnemonicOf : OpcodeMap → Byte → Option Mnemonic
  | [], _ => none
  | (b, m) :: rows, op => if b = op then some m else mnemonicOf rows op

/-- The opcode byte of a mnemonic. A legal map has a row for every mnemonic, so the first arm is not reached. -/
def opcodeOf : OpcodeMap → Mnemonic → Byte
  | [], _ => 0
  | (b, m') :: rows, m => if m' = m then b else opcodeOf rows m

/-- The default configuration: the defaults of 00_scope.md R5 and the rules' own readings. -/
def Config.default : Config where
  memSize := 65536
  ivtBase := 0x1000
  opcodeMap := OpcodeMap.default
  readings := Readings.spec

/-! ## Decoding -/

/-- The instruction of a mnemonic whose operand bytes are `b1`, `b2`, … (30_encoding.md R75 to R77); a format of fewer
operand bytes leaves the later ones unread. -/
def Instr.assemble (m : Mnemonic) (b1 b2 b3 b4 : Byte) : Instr :=
  match m with
  | .movLitReg => .movLitReg (joinBytes b1 b2) (Reg.ofSelector b3)
  | .movRegReg => .movRegReg (Reg.ofSelector b1) (Reg.ofSelector b2)
  | .movRegMem => .movRegMem (Reg.ofSelector b1) (joinBytes b2 b3)
  | .movMemReg => .movMemReg (joinBytes b1 b2) (Reg.ofSelector b3)
  | .addRegReg => .addRegReg (Reg.ofSelector b1) (Reg.ofSelector b2)
  | .jneLit => .jneLit (joinBytes b1 b2) (joinBytes b3 b4)
  | .subLitReg => .subLitReg (joinBytes b1 b2) (Reg.ofSelector b3)
  | .pshLit => .pshLit (joinBytes b1 b2)
  | .pshReg => .pshReg (Reg.ofSelector b1)
  | .pop => .pop (Reg.ofSelector b1)
  | .movLitMem => .movLitMem (joinBytes b1 b2) (joinBytes b3 b4)
  | .movRegPtrReg => .movRegPtrReg (Reg.ofSelector b1) (Reg.ofSelector b2)
  | .movLitOffReg => .movLitOffReg (joinBytes b1 b2) (Reg.ofSelector b3) (Reg.ofSelector b4)
  | .subRegLit => .subRegLit (Reg.ofSelector b1) (joinBytes b2 b3)
  | .subRegReg => .subRegReg (Reg.ofSelector b1) (Reg.ofSelector b2)
  | .mulLitReg => .mulLitReg (joinBytes b1 b2) (Reg.ofSelector b3)
  | .mulRegReg => .mulRegReg (Reg.ofSelector b1) (Reg.ofSelector b2)
  | .lsfRegLit => .lsfRegLit (Reg.ofSelector b1) b2
  | .lsfRegReg => .lsfRegReg (Reg.ofSelector b1) (Reg.ofSelector b2)
  | .rsfRegLit => .rsfRegLit (Reg.ofSelector b1) b2
  | .rsfRegReg => .rsfRegReg (Reg.ofSelector b1) (Reg.ofSelector b2)
  | .andRegLit => .andRegLit (Reg.ofSelector b1) (joinBytes b2 b3)
  | .andRegReg => .andRegReg (Reg.ofSelector b1) (Reg.ofSelector b2)
  | .orRegLit => .orRegLit (Reg.ofSelector b1) (joinBytes b2 b3)
  | .orRegReg => .orRegReg (Reg.ofSelector b1) (Reg.ofSelector b2)
  | .xorRegLit => .xorRegLit (Reg.ofSelector b1) (joinBytes b2 b3)
  | .xorRegReg => .xorRegReg (Reg.ofSelector b1) (Reg.ofSelector b2)
  | .not => .not (Reg.ofSelector b1)
  | .incReg => .incReg (Reg.ofSelector b1)
  | .decReg => .decReg (Reg.ofSelector b1)
  | .jeqReg => .jeqReg (Reg.ofSelector b1) (joinBytes b2 b3)
  | .addLitReg => .addLitReg (joinBytes b1 b2) (Reg.ofSelector b3)
  | .jneReg => .jneReg (Reg.ofSelector b1) (joinBytes b2 b3)
  | .jeqLit => .jeqLit (joinBytes b1 b2) (joinBytes b3 b4)
  | .jltReg => .jltReg (Reg.ofSelector b1) (joinBytes b2 b3)
  | .jltLit => .jltLit (joinBytes b1 b2) (joinBytes b3 b4)
  | .jgtReg => .jgtReg (Reg.ofSelector b1) (joinBytes b2 b3)
  | .jgtLit => .jgtLit (joinBytes b1 b2) (joinBytes b3 b4)
  | .jleReg => .jleReg (Reg.ofSelector b1) (joinBytes b2 b3)
  | .jleLit => .jleLit (joinBytes b1 b2) (joinBytes b3 b4)
  | .jgeReg => .jgeReg (Reg.ofSelector b1) (joinBytes b2 b3)
  | .jgeLit => .jgeLit (joinBytes b1 b2) (joinBytes b3 b4)
  | .addRegLit => .addRegLit (Reg.ofSelector b1) (joinBytes b2 b3)
  | .mulRegLit => .mulRegLit (Reg.ofSelector b1) (joinBytes b2 b3)
  | .calLit => .calLit (joinBytes b1 b2)
  | .calReg => .calReg (Reg.ofSelector b1)
  | .ret => .ret
  | .retInt => .retInt
  | .int => .int (joinBytes b1 b2)
  | .hlt => .hlt

/-- The instruction of a mnemonic and its operand bytes in order. -/
def Instr.ofBytes (m : Mnemonic) (bs : List Byte) : Instr :=
  Instr.assemble m (bs.getD 0 0) (bs.getD 1 0) (bs.getD 2 0) (bs.getD 3 0)

/-- Why bytes are no instruction. -/
inductive DecodeError where
  /-- There is no opcode byte. -/
  | noBytes
  /-- The opcode byte is not in the opcode map (30_encoding.md R82). -/
  | illegalOpcode (op : Byte)
  /-- The bytes end before the last operand of the instruction (30_encoding.md R86). -/
  | truncated (m : Mnemonic)
deriving DecidableEq, Repr

/-- Reads one instruction from the front of `bytes`, with the bytes left over (30_encoding.md R70, R83). -/
def decode (map : OpcodeMap) (bytes : List Byte) : Except DecodeError (Instr × List Byte) :=
  match bytes with
  | [] => .error .noBytes
  | op :: rest =>
    match mnemonicOf map op with
    | none => .error (.illegalOpcode op)
    | some m =>
      if rest.length < m.operandBytes then .error (.truncated m)
      else .ok (Instr.ofBytes m rest, rest.drop m.operandBytes)

/-! ## Encoding -/

/-- The mnemonic of an instruction (30_encoding.md R80). -/
def Instr.mnemonic : Instr → Mnemonic
  | .movLitReg _ _ => .movLitReg
  | .movRegReg _ _ => .movRegReg
  | .movRegMem _ _ => .movRegMem
  | .movMemReg _ _ => .movMemReg
  | .addRegReg _ _ => .addRegReg
  | .jneLit _ _ => .jneLit
  | .subLitReg _ _ => .subLitReg
  | .pshLit _ => .pshLit
  | .pshReg _ => .pshReg
  | .pop _ => .pop
  | .movLitMem _ _ => .movLitMem
  | .movRegPtrReg _ _ => .movRegPtrReg
  | .movLitOffReg _ _ _ => .movLitOffReg
  | .subRegLit _ _ => .subRegLit
  | .subRegReg _ _ => .subRegReg
  | .mulLitReg _ _ => .mulLitReg
  | .mulRegReg _ _ => .mulRegReg
  | .lsfRegLit _ _ => .lsfRegLit
  | .lsfRegReg _ _ => .lsfRegReg
  | .rsfRegLit _ _ => .rsfRegLit
  | .rsfRegReg _ _ => .rsfRegReg
  | .andRegLit _ _ => .andRegLit
  | .andRegReg _ _ => .andRegReg
  | .orRegLit _ _ => .orRegLit
  | .orRegReg _ _ => .orRegReg
  | .xorRegLit _ _ => .xorRegLit
  | .xorRegReg _ _ => .xorRegReg
  | .not _ => .not
  | .incReg _ => .incReg
  | .decReg _ => .decReg
  | .jeqReg _ _ => .jeqReg
  | .addLitReg _ _ => .addLitReg
  | .jneReg _ _ => .jneReg
  | .jeqLit _ _ => .jeqLit
  | .jltReg _ _ => .jltReg
  | .jltLit _ _ => .jltLit
  | .jgtReg _ _ => .jgtReg
  | .jgtLit _ _ => .jgtLit
  | .jleReg _ _ => .jleReg
  | .jleLit _ _ => .jleLit
  | .jgeReg _ _ => .jgeReg
  | .jgeLit _ _ => .jgeLit
  | .addRegLit _ _ => .addRegLit
  | .mulRegLit _ _ => .mulRegLit
  | .calLit _ => .calLit
  | .calReg _ => .calReg
  | .ret => .ret
  | .retInt => .retInt
  | .int _ => .int
  | .hlt => .hlt

/-- The operand bytes of an instruction in encoding order, register operands by their canonical selectors
(30_encoding.md R75, R76, R78). -/
def Instr.operandBytes : Instr → List Byte
  | .movLitReg lit rd => [highByte lit, lowByte lit, rd.selector]
  | .movRegReg rs rd => [rs.selector, rd.selector]
  | .movRegMem rs addr => [rs.selector, highByte addr, lowByte addr]
  | .movMemReg addr rd => [highByte addr, lowByte addr, rd.selector]
  | .addRegReg ra rb => [ra.selector, rb.selector]
  | .jneLit lit t => [highByte lit, lowByte lit, highByte t, lowByte t]
  | .subLitReg lit r => [highByte lit, lowByte lit, r.selector]
  | .pshLit lit => [highByte lit, lowByte lit]
  | .pshReg r => [r.selector]
  | .pop rd => [rd.selector]
  | .movLitMem lit addr => [highByte lit, lowByte lit, highByte addr, lowByte addr]
  | .movRegPtrReg rp rd => [rp.selector, rd.selector]
  | .movLitOffReg base ri rd => [highByte base, lowByte base, ri.selector, rd.selector]
  | .subRegLit r lit => [r.selector, highByte lit, lowByte lit]
  | .subRegReg ra rb => [ra.selector, rb.selector]
  | .mulLitReg lit r => [highByte lit, lowByte lit, r.selector]
  | .mulRegReg ra rb => [ra.selector, rb.selector]
  | .lsfRegLit r lit8 => [r.selector, lit8]
  | .lsfRegReg ra rb => [ra.selector, rb.selector]
  | .rsfRegLit r lit8 => [r.selector, lit8]
  | .rsfRegReg ra rb => [ra.selector, rb.selector]
  | .andRegLit r lit => [r.selector, highByte lit, lowByte lit]
  | .andRegReg ra rb => [ra.selector, rb.selector]
  | .orRegLit r lit => [r.selector, highByte lit, lowByte lit]
  | .orRegReg ra rb => [ra.selector, rb.selector]
  | .xorRegLit r lit => [r.selector, highByte lit, lowByte lit]
  | .xorRegReg ra rb => [ra.selector, rb.selector]
  | .not r => [r.selector]
  | .incReg r => [r.selector]
  | .decReg r => [r.selector]
  | .jeqReg r t => [r.selector, highByte t, lowByte t]
  | .addLitReg lit r => [highByte lit, lowByte lit, r.selector]
  | .jneReg r t => [r.selector, highByte t, lowByte t]
  | .jeqLit lit t => [highByte lit, lowByte lit, highByte t, lowByte t]
  | .jltReg r t => [r.selector, highByte t, lowByte t]
  | .jltLit lit t => [highByte lit, lowByte lit, highByte t, lowByte t]
  | .jgtReg r t => [r.selector, highByte t, lowByte t]
  | .jgtLit lit t => [highByte lit, lowByte lit, highByte t, lowByte t]
  | .jleReg r t => [r.selector, highByte t, lowByte t]
  | .jleLit lit t => [highByte lit, lowByte lit, highByte t, lowByte t]
  | .jgeReg r t => [r.selector, highByte t, lowByte t]
  | .jgeLit lit t => [highByte lit, lowByte lit, highByte t, lowByte t]
  | .addRegLit r lit => [r.selector, highByte lit, lowByte lit]
  | .mulRegLit r lit => [r.selector, highByte lit, lowByte lit]
  | .calLit t => [highByte t, lowByte t]
  | .calReg r => [r.selector]
  | .ret => []
  | .retInt => []
  | .int value => [highByte value, lowByte value]
  | .hlt => []

/-- The bytes of an instruction: its opcode, then its operands (30_encoding.md R70, R75). -/
def encode (map : OpcodeMap) (i : Instr) : List Byte :=
  opcodeOf map i.mnemonic :: i.operandBytes

/-! ## The opcode table's numbering of bits -/

/-- Five bytes, the longest instruction, from a table word: byte `k` is bits `8k+7 .. 8k` of `w`, and every bit from
`nbits` up is 0. -/
def tableBytes (nbits w : Nat) : List Byte :=
  let v := w % 2 ^ nbits
  [BitVec.ofNat 8 v, BitVec.ofNat 8 (v / 2 ^ 8), BitVec.ofNat 8 (v / 2 ^ 16), BitVec.ofNat 8 (v / 2 ^ 24),
   BitVec.ofNat 8 (v / 2 ^ 32)]

/-- The instruction the decoder reads, with the default opcode map, from a table word; `none` where it refuses. -/
def decodeTableWord (nbits w : Nat) : Option Instr :=
  match decode OpcodeMap.default (tableBytes nbits w) with
  | .ok (i, _) => some i
  | .error _ => none

end Sys2Proof
end

