-- ==== Sys2Proof/Machine/State.lean ====
section
/-! DEFINITION. The state of one CORE as plain data (10_state.md R37), why a transaction stops (60_exceptions.md R210,
00_scope.md R9 to R13), and the state after reset (70_reset_and_hazards.md R240). -/

namespace Sys2Proof.Machine

/-- The register file: 13 registers of 16 bits, no banks, aliases or hardwired registers (10_state.md R20). -/
structure RegFile where
  /-- Instruction pointer (R25). -/
  ip : Word
  /-- Accumulator (R27). -/
  acc : Word
  /-- General registers `r1` .. `r8` (R28). -/
  r1 : Word
  r2 : Word
  r3 : Word
  r4 : Word
  r5 : Word
  r6 : Word
  r7 : Word
  r8 : Word
  /-- Stack pointer: the address of the next free stack slot (R29). -/
  sp : Word
  /-- Frame pointer (R29). -/
  fp : Word
  /-- Interrupt mask: bit `k` set enables vector `k` (R32). -/
  im : Word
deriving DecidableEq, Repr

/-- Main memory as its bytes that are not 0x00, at strictly rising addresses. An address that is not listed reads as
0x00, the reset contents (10_state.md R35, R37). -/
abbrev Memory := List Host.Cell

/-- What a fault records (60_exceptions.md R210). -/
inductive FaultInfo where
  /-- The exact integer address of the access and its width (R211). -/
  | outOfBounds (addr width : Nat)
  /-- The opcode byte and the address it was fetched from (R214). -/
  | illegalInstruction (op : Byte) (addr : Word)
  /-- The register index (R212). -/
  | unknownRegister (index : Nat)
deriving DecidableEq, Repr

/-- The response of a transaction (00_scope.md R7, R8; 60_exceptions.md R210). -/
inductive Response where
  /-- No transaction has responded yet. -/
  | idle
  /-- `STEP` or `EXEC`: the instruction completed and was not HLT. -/
  | running
  /-- `STEP` or `EXEC`: the instruction was HLT. -/
  | halted
  /-- `IRQ`: the interrupt was delivered. -/
  | delivered
  /-- `IRQ`: the interrupt was dropped. -/
  | masked
  /-- The transaction raised a fault. -/
  | fault (info : FaultInfo)
deriving DecidableEq, Repr

/-- Where the life of one engine stands. -/
inductive Phase where
  /-- Since reset: no `STEP`, `IRQ` or `EXEC` has been issued, so `LOAD` is allowed (00_scope.md R9, D13). -/
  | loading
  /-- Execution has begun. -/
  | running
  /-- A fault has ended the run (60_exceptions.md R213). -/
  | ended
deriving DecidableEq, Repr

/-- The complete state of one CORE (10_state.md R37), and three fields of the model's own: the configuration it was
built with, the phase of its life and the response of its latest transaction. -/
structure State where
  /-- The construction parameters (00_scope.md R5, R11); no transaction changes them. The model's own field. -/
  config : Config
  /-- The 13 registers (R20). -/
  regs : RegFile
  /-- Set between the delivery of an interrupt and the next RET_INT (R30). -/
  inHandler : Bool
  /-- The source's `stackFrameSize`: bytes pushed since the last frame boundary (R31). -/
  sfs : Word
  /-- Main memory (R35). -/
  mem : Memory
  /-- The model's own field. -/
  phase : Phase
  /-- An output, which nothing reads. The model's own field. -/
  response : Response
deriving DecidableEq, Repr

/-- The three kinds of fault (60_exceptions.md R210). Each carries what it records and `final`, the state at the point
of the raise, which `DEBUG` can still read (R213). All three are safe: the spec gives the machine no behaviour after
a fault. -/
inductive Fault where
  /-- Code 1, raised by every memory access outside `[0, N)`: fetch, load, store, push, pop, vector read (R211), and by
  a `LOAD` beyond the end (00_scope.md R9). Safe: the spec raises it there. -/
  | outOfBounds (addr width : Nat) (final : State)
  /-- Code 2, raised by `STEP` and `EXEC` on an opcode byte that is not in the opcode map (R214). Safe: the spec raises
  it there. -/
  | illegalInstruction (op : Byte) (addr : Word) (final : State)
  /-- Code 3, raised by nothing: a register operand is one of the 13 registers (R212). It stands here so that the
  taxonomy is whole. Safe. -/
  | unknownRegister (index : Nat) (final : State)
deriving DecidableEq, Repr

/-- Why a transaction is rejected without a fault. -/
inductive Refusal where
  /-- An arm of `exec` whose instruction has no meaning yet. No arm answers it in this model. Safe. -/
  | notModelled (mnemonic : String)
  /-- `STEP`, `IRQ`, `EXEC` or `LOAD` after a fault has ended the run: "a model refuses them" (60_exceptions.md R213).
  Safe: the spec asks for it. -/
  | runEnded
  /-- `LOAD` after execution has begun (00_scope.md R9, D13, U18). Safe: the spec asks for it. -/
  | loadAfterStart
  /-- `CONFIG` with a `MEM_SIZE` outside 1 .. 65536 (00_scope.md R5). Safe: such an engine is never built. -/
  | illegalMemSize
  /-- `CONFIG` with an `OPCODE_MAP` that is not an injective map from the 50 mnemonics: "rejected and never runs"
  (00_scope.md R11). Safe: the spec asks for it. -/
  | illegalOpcodeMap
deriving DecidableEq, Repr

/-- The registers after reset (10_state.md R37). -/
def RegFile.reset : RegFile where
  ip := 0x0000
  acc := 0x0000
  r1 := 0x0000
  r2 := 0x0000
  r3 := 0x0000
  r4 := 0x0000
  r5 := 0x0000
  r6 := 0x0000
  r7 := 0x0000
  r8 := 0x0000
  sp := 0xFFFD
  fp := 0xFFFD
  im := 0xFFFF

/-- The state after reset of an engine built with configuration `c` (10_state.md R37, 70_reset_and_hazards.md R240). -/
def State.resetWith (c : Config) : State where
  config := c
  regs := RegFile.reset
  inHandler := false
  sfs := 0x0000
  mem := []
  phase := .loading
  response := .idle

/-- The machine right after reset, with the default configuration (10_state.md R37, 00_scope.md R5). -/
def State.reset : State := State.resetWith Config.default

end Sys2Proof.Machine
end

