-- ==== Sys2Proof/Machine/Ops.lean ====
section
/-! DEFINITION. The named operations over registers, memory and the stack (00_scope.md R15, R16), and the interrupt
delivery and return that INT, RET_INT and the `IRQ` port share (60_exceptions.md R217, 44_stack_call.md R183). -/

namespace Sys2Proof.Machine

/-! ## Registers -/

/-- `x[r]` (00_scope.md R15). -/
def RegFile.get (f : RegFile) : Reg → Word
  | .ip => f.ip | .acc => f.acc
  | .r1 => f.r1 | .r2 => f.r2 | .r3 => f.r3 | .r4 => f.r4
  | .r5 => f.r5 | .r6 => f.r6 | .r7 => f.r7 | .r8 => f.r8
  | .sp => f.sp | .fp => f.fp | .im => f.im

/-- The register file with register `r` holding `v`. -/
def RegFile.set (f : RegFile) (r : Reg) (v : Word) : RegFile :=
  match r with
  | .ip => { f with ip := v }
  | .acc => { f with acc := v }
  | .r1 => { f with r1 := v }
  | .r2 => { f with r2 := v }
  | .r3 => { f with r3 := v }
  | .r4 => { f with r4 := v }
  | .r5 => { f with r5 := v }
  | .r6 => { f with r6 := v }
  | .r7 => { f with r7 := v }
  | .r8 => { f with r8 := v }
  | .sp => { f with sp := v }
  | .fp => { f with fp := v }
  | .im => { f with im := v }

/-- `x[r]` in a state. -/
def State.reg (s : State) (r : Reg) : Word := s.regs.get r

/-- `x[r] <- v` for a 16-bit `v`; every register can be written and no write faults (10_state.md R21, R22). -/
def State.setReg (s : State) (r : Reg) (v : Word) : State := { s with regs := s.regs.set r v }

/-- `x[r] <- v` for an exact integer `v`: it stores `v mod 2^16` (10_state.md R22, 00_scope.md R15). -/
def State.writeExact (s : State) (r : Reg) (v : Int) : State := s.setReg r (BitVec.ofInt 16 v)

/-! ## The other elements -/

/-- `sfs <- v` (10_state.md R31). -/
def State.setSfs (s : State) (v : Word) : State := { s with sfs := v }

/-- `inHandler <- b` (10_state.md R30). -/
def State.setInHandler (s : State) (b : Bool) : State := { s with inHandler := b }

/-- Replaces the contents of main memory. -/
def State.setMem (s : State) (m : Memory) : State := { s with mem := m }

/-- Sets the response of the current transaction (00_scope.md R7, R8). -/
def State.setResponse (s : State) (r : Response) : State := { s with response := r }

/-- Sets the phase of the engine's life. -/
def State.setPhase (s : State) (p : Phase) : State := { s with phase := p }

/-- The start of a `STEP`, `IRQ` or `EXEC` transaction: execution has begun (00_scope.md R9), and the response is
`Running` unless the transaction says otherwise (30_encoding.md R85). -/
def State.start (s : State) : State := (s.setPhase .running).setResponse .running

/-! ## Faults (60_exceptions.md R210, R213) -/

/-- The fault code (60_exceptions.md R210). -/
def FaultInfo.code : FaultInfo → Nat
  | .outOfBounds _ _ => 1
  | .illegalInstruction _ _ => 2
  | .unknownRegister _ => 3

/-- `raise K(info)` in state `s`: the run has ended, the response is the fault, and every earlier write stands
(60_exceptions.md R210, R213). -/
def State.raise (s : State) (info : FaultInfo) : Fault :=
  let final := (s.setPhase .ended).setResponse (.fault info)
  match info with
  | .outOfBounds addr width => .outOfBounds addr width final
  | .illegalInstruction op addr => .illegalInstruction op addr final
  | .unknownRegister index => .unknownRegister index final

/-- What a fault records. -/
def Fault.info : Fault → FaultInfo
  | .outOfBounds addr width _ => .outOfBounds addr width
  | .illegalInstruction op addr _ => .illegalInstruction op addr
  | .unknownRegister index _ => .unknownRegister index

/-- The state at the point of the raise, which `DEBUG` can read (60_exceptions.md R213). -/
def Fault.final : Fault → State
  | .outOfBounds _ _ final => final
  | .illegalInstruction _ _ final => final
  | .unknownRegister _ final => final

/-- The result of a primitive: a value and the state it leaves, or the fault that ended it (00_scope.md R16). -/
inductive Access (α : Type) where
  | ok (value : α) (s : State)
  | raised (f : Fault)

/-- Runs the next statement of the pseudocode; a fault runs no later statement (60_exceptions.md R210). -/
def Access.bind {α β : Type} (x : Access α) (k : α → State → Access β) : Access β :=
  match x with
  | .ok a s => k a s
  | .raised f => .raised f

/-- The end of an instruction's pseudocode. -/
def Access.outcome (x : Access Unit) : Host.Outcome State Fault Refusal :=
  match x with
  | .ok _ s => .next s
  | .raised f => .fault f

/-! ## Main memory (20_memory.md) -/

/-- The byte at address `a`; an address that is not listed holds 0x00 (10_state.md R37). -/
def Memory.byteAt : Memory → Nat → Byte
  | [], _ => 0
  | (b, v) :: cells, a => if b = a then v else Memory.byteAt cells a

/-- Puts a byte that is not 0x00 at its place among the rising addresses. -/
def Memory.insert : Memory → Nat → Byte → Memory
  | [], a, v => [(a, v)]
  | (b, w) :: cells, a, v => if a < b then (a, v) :: (b, w) :: cells else (b, w) :: Memory.insert cells a v

/-- `M[a] <- v`: the byte at `a` is removed, and listed again unless it is 0x00. -/
def Memory.writeByte (m : Memory) (a : Nat) (v : Byte) : Memory :=
  let rest := m.filter fun cell => cell.1 != a
  if v = 0 then rest else Memory.insert rest a v

/-- `M[a] <- v[15:8]; M[a+1] <- v[7:0]`, big-endian (20_memory.md R53, R56). -/
def Memory.writeWord (m : Memory) (a : Nat) (v : Word) : Memory :=
  (m.writeByte a (highByte v)).writeByte (a + 1) (lowByte v)

/-- `M[a], M[a+1], … <- bytes`. -/
def Memory.writeBytes (m : Memory) (a : Nat) : List Byte → Memory
  | [] => m
  | b :: bs => Memory.writeBytes (m.writeByte a b) (a + 1) bs

/-- The canonical form: addresses strictly rising, and no listed byte that is 0x00. -/
def Memory.wf : Memory → Bool
  | [] => true
  | (a, v) :: cells => v != 0 && cells.all (fun cell => decide (a < cell.1)) && Memory.wf cells

/-- An access of `n` bytes at `a` is in bounds (20_memory.md R51). -/
def inBounds (c : Config) (a n : Nat) : Bool := decide (a + n - 1 < c.memSize)

/-- `MemRead(a, 1)` (20_memory.md R52). -/
def memRead8 (a : Nat) (s : State) : Access Byte :=
  if inBounds s.config a 1 then .ok (s.mem.byteAt a) s
  else .raised (s.raise (.outOfBounds a 1))

/-- `MemRead(a, 2)`, big-endian (20_memory.md R52, R56). -/
def memRead16 (a : Nat) (s : State) : Access Word :=
  if inBounds s.config a 2 then .ok (joinBytes (s.mem.byteAt a) (s.mem.byteAt (a + 1))) s
  else .raised (s.raise (.outOfBounds a 2))

/-- `MemWrite(a, 1, v)` (20_memory.md R53). -/
def memWrite8 (a : Nat) (v : Byte) (s : State) : Access Unit :=
  if inBounds s.config a 1 then .ok () (s.setMem (s.mem.writeByte a v))
  else .raised (s.raise (.outOfBounds a 1))

/-- `MemWrite(a, 2, v)`, big-endian; out of bounds it writes neither byte (20_memory.md R53, R56). -/
def memWrite16 (a : Nat) (v : Word) (s : State) : Access Unit :=
  if inBounds s.config a 2 then .ok () (s.setMem (s.mem.writeWord a v))
  else .raised (s.raise (.outOfBounds a 2))

/-- A computed address is the exact sum (20_memory.md R55); the alternative `EA_WRAP16` takes it mod 2^16 (D7). -/
def effectiveAddress (c : Config) (sum : Nat) : Nat :=
  if c.readings.eaWrap16 then sum % 65536 else sum

/-! ## The stack (44_stack_call.md) -/

/-- `push(v)` (44_stack_call.md R180). -/
def push (v : Word) (s : State) : Access Unit :=
  let a := s.reg .sp
  (memWrite16 a.toNat v s).bind fun _ s => .ok () ((s.setReg .sp (a - 2)).setSfs (s.sfs + 2))

/-- `pop()`: `sp` and `sfs` are written before the read, which may fault (44_stack_call.md R181). -/
def pop (s : State) : Access Word :=
  let a := s.reg .sp + 2
  memRead16 a.toNat ((s.setReg .sp a).setSfs (s.sfs - 2))

/-- Pushes registers in the order of the list. -/
def pushRegs : List Reg → State → Access Unit
  | [], s => .ok () s
  | r :: rs, s => (push (s.reg r) s).bind fun _ s => pushRegs rs s

/-- Pops into registers in the order of the list. -/
def popRegs : List Reg → State → Access Unit
  | [], s => .ok () s
  | r :: rs, s => (pop s).bind fun v s => popRegs rs (s.setReg r v)

/-- `repeat n times: pop()`, each value discarded (44_stack_call.md R183). -/
def popDiscard : Nat → State → Access Unit
  | 0, s => .ok () s
  | n + 1, s => (pop s).bind fun _ s => popDiscard n s

/-- The registers of a frame, in the order `pushState` saves them (44_stack_call.md R182). -/
def frameRegs : List Reg := [.r1, .r2, .r3, .r4, .r5, .r6, .r7, .r8, .ip]

/-- `pushState()`: saves the calling context as a ten-word frame (44_stack_call.md R182). -/
def pushState (s : State) : Access Unit :=
  (pushRegs frameRegs s).bind fun _ s =>
  (push (s.sfs + 2) s).bind fun _ s =>
  .ok () ((s.setReg .fp (s.reg .sp)).setSfs 0)

/-- `popState()`: restores the context that `fp` marks (44_stack_call.md R183). Right after the frame size is popped,
`sfs` becomes that word less 2 (D9; `POPSTATE_SFS_ADJUST` replaces the 2). -/
def popState (s : State) : Access Unit :=
  let oldFp := s.reg .fp
  (pop (s.setReg .sp oldFp)).bind fun frameSize s =>
  (popRegs frameRegs.reverse (s.setSfs (frameSize - s.config.readings.popStateSfsAdjust))).bind fun _ s =>
  (pop s).bind fun argCount s =>
  (popDiscard argCount.toNat s).bind fun _ s =>
  .ok () (s.setReg .fp (oldFp + frameSize))

/-! ## Interrupts (60_exceptions.md) -/

/-- What became of an interrupt. -/
inductive Delivery where
  | delivered
  | masked
deriving DecidableEq, Repr

/-- The vector of an interrupt value, 0 .. 14 (60_exceptions.md R216). -/
def vectorOf (value : Word) : Nat := value.toNat % 15

/-- The address of entry `v` of the interrupt vector table, an exact sum (60_exceptions.md R216, 20_memory.md R55). -/
def vectorAddress (c : Config) (v : Nat) : Nat := effectiveAddress c (c.ivtBase.toNat + 2 * v)

/-- The context save of a delivery: the argument-count placeholder 0, then the frame; nothing when already in a handler
(60_exceptions.md R217, R219). -/
def saveContext (s : State) : Access Unit :=
  if s.inHandler then .ok () s else (push 0 s).bind fun _ s => pushState s

/-- `deliver(value)`, the taking of an interrupt, shared by INT and `IRQ` (60_exceptions.md R217). A masked interrupt
changes nothing (R218); the handler address is read before any push (D11). -/
def deliver (value : Word) (s : State) : Access Delivery :=
  if (s.reg .im).getLsbD (vectorOf value) then
    (memRead16 (vectorAddress s.config (vectorOf value)) s).bind fun handler s =>
    (saveContext s).bind fun _ s =>
    .ok .delivered ((s.setInHandler true).setReg .ip handler)
  else .ok .masked s

/-- The return from an interrupt: `inHandler <- false`, then `popState()` (45_interrupt_system.md R201). -/
def returnFromInterrupt (s : State) : Access Unit := popState (s.setInHandler false)

end Sys2Proof.Machine
end

