-- ==== Sys2Proof/Machine/Operands.lean ====
section
/-! DEFINITION. Operand forms: the data addressing modes (40_data_transfer.md R107), the exact results of arithmetic
(41_arithmetic.md R120) and the shift law (42_logic_shift.md R140). -/

namespace Sys2Proof.Machine

/-- The source operands of the MOV family (40_data_transfer.md R107). No mode modifies a base or index register. -/
inductive Source where
  /-- The value is a `W` field. -/
  | literal (lit : Word)
  /-- The value is a register's. -/
  | register (rs : Reg)
  /-- The word at a fixed 16-bit address. -/
  | absolute (addr : Word)
  /-- The word at the address a register holds. -/
  | indirect (rp : Reg)
  /-- The word at a literal base address plus the value of an index register. -/
  | indexed (base : Word) (ri : Reg)
deriving DecidableEq, Repr

/-- The address of an indexed operand: the exact sum, 0 .. 0x1FFFE (40_data_transfer.md R106, 20_memory.md R55). -/
def indexedAddress (base : Word) (ri : Reg) (s : State) : Nat :=
  effectiveAddress s.config (base.toNat + (s.reg ri).toNat)

/-- Reads a source operand (40_data_transfer.md R100 to R106). -/
def readSource (src : Source) (s : State) : Access Word :=
  match src with
  | .literal lit => .ok lit s
  | .register rs => .ok (s.reg rs) s
  | .absolute addr => memRead16 addr.toNat s
  | .indirect rp => memRead16 (s.reg rp).toNat s
  | .indexed base ri => memRead16 (indexedAddress base ri s) s

/-- `x[rd] <- source`: the operand is read before the destination is written (40_data_transfer.md R106). -/
def moveToReg (src : Source) (rd : Reg) (s : State) : Access Unit :=
  (readSource src s).bind fun v s => .ok () (s.setReg rd v)

/-- The exact sum of two unsigned operands (41_arithmetic.md R120). -/
def exactSum (a b : Word) : Int := (a.toNat : Int) + (b.toNat : Int)

/-- The exact difference `a - b` of two unsigned operands (41_arithmetic.md R120). -/
def exactDifference (a b : Word) : Int := (a.toNat : Int) - (b.toNat : Int)

/-- The exact product of two unsigned operands (41_arithmetic.md R120). -/
def exactProduct (a b : Word) : Int := (a.toNat : Int) * (b.toNat : Int)

/-- The amount of a shift: not reduced (42_logic_shift.md R140); the alternative `SHIFT_MOD32` takes it mod 32 (D6). -/
def shiftAmount (c : Config) (amount : Nat) : Nat :=
  if c.readings.shiftMod32 then amount % 32 else amount

/-- `shl(v, s)` (42_logic_shift.md R140). -/
def shl (v : Word) (amount : Nat) : Word :=
  if amount ≤ 15 then BitVec.ofNat 16 (v.toNat <<< amount) else 0

/-- `shr(v, s)`, logical (42_logic_shift.md R140). -/
def shr (v : Word) (amount : Nat) : Word :=
  if amount ≤ 15 then BitVec.ofNat 16 (v.toNat >>> amount) else 0

end Sys2Proof.Machine
end

