-- ==== Sys2Proof/Machine/Arithmetic.lean ====
section
/-! DEFINITION. ADD, SUB, MUL, INC and DEC (41_arithmetic.md): exact integer results, written modulo 2^16 (R120). No
arithmetic sets a flag or faults. -/

namespace Sys2Proof.Machine

/-- ADD_REG_REG: `acc <- ra + rb` (R121). -/
def execAddRegReg (ra rb : Reg) (s : State) : Host.Outcome State Fault Refusal :=
  .next (s.writeExact .acc (exactSum (s.reg ra) (s.reg rb)))

/-- ADD_LIT_REG: `acc <- lit + r` (R122). -/
def execAddLitReg (lit : Word) (r : Reg) (s : State) : Host.Outcome State Fault Refusal :=
  .next (s.writeExact .acc (exactSum lit (s.reg r)))

/-- ADD_REG_LIT: `acc <- r + lit` (R123). -/
def execAddRegLit (r : Reg) (lit : Word) (s : State) : Host.Outcome State Fault Refusal :=
  .next (s.writeExact .acc (exactSum (s.reg r) lit))

/-- SUB_REG_REG: `acc <- ra - rb` (R124). -/
def execSubRegReg (ra rb : Reg) (s : State) : Host.Outcome State Fault Refusal :=
  .next (s.writeExact .acc (exactDifference (s.reg ra) (s.reg rb)))

/-- SUB_LIT_REG: `acc <- r - lit`, register minus literal (R125). -/
def execSubLitReg (lit : Word) (r : Reg) (s : State) : Host.Outcome State Fault Refusal :=
  .next (s.writeExact .acc (exactDifference (s.reg r) lit))

/-- SUB_REG_LIT: `acc <- lit - r`, literal minus register (R126). -/
def execSubRegLit (r : Reg) (lit : Word) (s : State) : Host.Outcome State Fault Refusal :=
  .next (s.writeExact .acc (exactDifference lit (s.reg r)))

/-- MUL_REG_REG: `acc <- ra * rb`, the low 16 bits (R127). -/
def execMulRegReg (ra rb : Reg) (s : State) : Host.Outcome State Fault Refusal :=
  .next (s.writeExact .acc (exactProduct (s.reg ra) (s.reg rb)))

/-- MUL_LIT_REG: `acc <- lit * r`, the low 16 bits (R128). -/
def execMulLitReg (lit : Word) (r : Reg) (s : State) : Host.Outcome State Fault Refusal :=
  .next (s.writeExact .acc (exactProduct lit (s.reg r)))

/-- MUL_REG_LIT: `acc <- r * lit`, the low 16 bits (R129). -/
def execMulRegLit (r : Reg) (lit : Word) (s : State) : Host.Outcome State Fault Refusal :=
  .next (s.writeExact .acc (exactProduct (s.reg r) lit))

/-- INC_REG: `r <- r + 1`, in place on the decoded register (R130, D25). -/
def execIncReg (r : Reg) (s : State) : Host.Outcome State Fault Refusal :=
  .next (s.writeExact r (exactSum (s.reg r) 1))

/-- DEC_REG: `r <- r - 1`, in place on the decoded register (R131, D25). -/
def execDecReg (r : Reg) (s : State) : Host.Outcome State Fault Refusal :=
  .next (s.writeExact r (exactDifference (s.reg r) 1))

end Sys2Proof.Machine
end

