-- ==== Sys2Proof/Machine/DataTransfer.lean ====
section
/-! DEFINITION. The MOV family (40_data_transfer.md). A meaning runs after the operand fetch, so `ip` already holds the
address of the next instruction (10_state.md R26). -/

namespace Sys2Proof.Machine

/-- MOV_LIT_REG: a literal into a register (R100). -/
def execMovLitReg (lit : Word) (rd : Reg) (s : State) : Host.Outcome State Fault Refusal :=
  (moveToReg (.literal lit) rd s).outcome

/-- MOV_REG_REG: a register into a register (R101). -/
def execMovRegReg (rs rd : Reg) (s : State) : Host.Outcome State Fault Refusal :=
  (moveToReg (.register rs) rd s).outcome

/-- MOV_REG_MEM: a register to a fixed address (R102). -/
def execMovRegMem (rs : Reg) (addr : Word) (s : State) : Host.Outcome State Fault Refusal :=
  (memWrite16 addr.toNat (s.reg rs) s).outcome

/-- MOV_MEM_REG: the word at a fixed address into a register (R103). -/
def execMovMemReg (addr : Word) (rd : Reg) (s : State) : Host.Outcome State Fault Refusal :=
  (moveToReg (.absolute addr) rd s).outcome

/-- MOV_LIT_MEM: a literal to a fixed address (R104). -/
def execMovLitMem (lit addr : Word) (s : State) : Host.Outcome State Fault Refusal :=
  (memWrite16 addr.toNat lit s).outcome

/-- MOV_REG_PTR_REG: the word at the address in a register into a register (R105). -/
def execMovRegPtrReg (rp rd : Reg) (s : State) : Host.Outcome State Fault Refusal :=
  (moveToReg (.indirect rp) rd s).outcome

/-- MOV_LIT_OFF_REG: the word at base plus index into a register (R106). -/
def execMovLitOffReg (base : Word) (ri rd : Reg) (s : State) : Host.Outcome State Fault Refusal :=
  (moveToReg (.indexed base ri) rd s).outcome

end Sys2Proof.Machine
end

