-- ==== Sys2Proof/Machine/Flags.lean ====
section
/-! DEFINITION. The CORE has no flags and no condition codes (10_state.md R33): the only conditions are the comparisons
of the conditional jumps against `acc` (43_control.md R160). -/

namespace Sys2Proof.Machine

/-- The six comparisons (43_control.md R160). -/
inductive Comparison where
  | ne | eq | lt | gt | le | ge
deriving DecidableEq, Repr

/-- `a OP b` on unsigned 16-bit values (43_control.md R160). -/
def Comparison.holds (op : Comparison) (a b : Word) : Bool :=
  match op with
  | .ne => decide (a.toNat ≠ b.toNat)
  | .eq => decide (a.toNat = b.toNat)
  | .lt => decide (a.toNat < b.toNat)
  | .gt => decide (a.toNat > b.toNat)
  | .le => decide (a.toNat ≤ b.toNat)
  | .ge => decide (a.toNat ≥ b.toNat)

/-- Whether a jump with comparison operand `v` is taken: `v OP acc` (43_control.md R160); the alternative
`JUMP_OPERAND_ON_LEFT` = false compares `acc OP v` (D4). -/
def jumpTaken (op : Comparison) (v : Word) (s : State) : Bool :=
  if s.config.readings.jumpOperandOnLeft then op.holds v (s.reg .acc) else op.holds (s.reg .acc) v

/-- `jumpIf(OP, v, t)`: a taken jump writes `ip`, and a jump not taken writes nothing (43_control.md R160). -/
def jumpIf (op : Comparison) (v t : Word) (s : State) : State :=
  if jumpTaken op v s then s.setReg .ip t else s

end Sys2Proof.Machine
end

