-- ==== Sys2Proof/Machine/Jump.lean ====
section
/-! DEFINITION. The twelve conditional jumps (43_control.md): the comparison operand against `acc`, unsigned, and an
absolute target that is not checked when the jump is taken (R160). -/

namespace Sys2Proof.Machine

/-- JNE_LIT: jump to `t` if `lit != acc` (R161). -/
def execJneLit (lit t : Word) (s : State) : Host.Outcome State Fault Refusal :=
  .next (jumpIf .ne lit t s)

/-- JNE_REG: jump to `t` if `r != acc` (R162). -/
def execJneReg (r : Reg) (t : Word) (s : State) : Host.Outcome State Fault Refusal :=
  .next (jumpIf .ne (s.reg r) t s)

/-- JEQ_LIT: jump to `t` if `lit == acc` (R163). -/
def execJeqLit (lit t : Word) (s : State) : Host.Outcome State Fault Refusal :=
  .next (jumpIf .eq lit t s)

/-- JEQ_REG: jump to `t` if `r == acc` (R164). -/
def execJeqReg (r : Reg) (t : Word) (s : State) : Host.Outcome State Fault Refusal :=
  .next (jumpIf .eq (s.reg r) t s)

/-- JLT_LIT: jump to `t` if `lit < acc` (R165). -/
def execJltLit (lit t : Word) (s : State) : Host.Outcome State Fault Refusal :=
  .next (jumpIf .lt lit t s)

/-- JLT_REG: jump to `t` if `r < acc` (R166). -/
def execJltReg (r : Reg) (t : Word) (s : State) : Host.Outcome State Fault Refusal :=
  .next (jumpIf .lt (s.reg r) t s)

/-- JGT_LIT: jump to `t` if `lit > acc` (R167). -/
def execJgtLit (lit t : Word) (s : State) : Host.Outcome State Fault Refusal :=
  .next (jumpIf .gt lit t s)

/-- JGT_REG: jump to `t` if `r > acc` (R168). -/
def execJgtReg (r : Reg) (t : Word) (s : State) : Host.Outcome State Fault Refusal :=
  .next (jumpIf .gt (s.reg r) t s)

/-- JLE_LIT: jump to `t` if `lit <= acc` (R169). -/
def execJleLit (lit t : Word) (s : State) : Host.Outcome State Fault Refusal :=
  .next (jumpIf .le lit t s)

/-- JLE_REG: jump to `t` if `r <= acc` (R170). -/
def execJleReg (r : Reg) (t : Word) (s : State) : Host.Outcome State Fault Refusal :=
  .next (jumpIf .le (s.reg r) t s)

/-- JGE_LIT: jump to `t` if `lit >= acc` (R171). -/
def execJgeLit (lit t : Word) (s : State) : Host.Outcome State Fault Refusal :=
  .next (jumpIf .ge lit t s)

/-- JGE_REG: jump to `t` if `r >= acc` (R172). -/
def execJgeReg (r : Reg) (t : Word) (s : State) : Host.Outcome State Fault Refusal :=
  .next (jumpIf .ge (s.reg r) t s)

end Sys2Proof.Machine
end

