-- ==== Sys2Proof/Machine/LogicShift.lean ====
section
/-! DEFINITION. LSF, RSF, AND, OR, XOR and NOT (42_logic_shift.md): shifts in place on the decoded register (R140,
D25), logic into `acc`. -/

namespace Sys2Proof.Machine

/-- LSF_REG_LIT: `r <- shl(r, lit8)` (R141). -/
def execLsfRegLit (r : Reg) (lit8 : Byte) (s : State) : Host.Outcome State Fault Refusal :=
  .next (s.setReg r (shl (s.reg r) (shiftAmount s.config lit8.toNat)))

/-- LSF_REG_REG: `ra <- shl(ra, rb)` (R142). -/
def execLsfRegReg (ra rb : Reg) (s : State) : Host.Outcome State Fault Refusal :=
  .next (s.setReg ra (shl (s.reg ra) (shiftAmount s.config (s.reg rb).toNat)))

/-- RSF_REG_LIT: `r <- shr(r, lit8)` (R143). -/
def execRsfRegLit (r : Reg) (lit8 : Byte) (s : State) : Host.Outcome State Fault Refusal :=
  .next (s.setReg r (shr (s.reg r) (shiftAmount s.config lit8.toNat)))

/-- RSF_REG_REG: `ra <- shr(ra, rb)` (R144). -/
def execRsfRegReg (ra rb : Reg) (s : State) : Host.Outcome State Fault Refusal :=
  .next (s.setReg ra (shr (s.reg ra) (shiftAmount s.config (s.reg rb).toNat)))

/-- AND_REG_LIT: `acc <- r & lit` (R145). -/
def execAndRegLit (r : Reg) (lit : Word) (s : State) : Host.Outcome State Fault Refusal :=
  .next (s.setReg .acc (s.reg r &&& lit))

/-- AND_REG_REG: `acc <- ra & rb` (R146). -/
def execAndRegReg (ra rb : Reg) (s : State) : Host.Outcome State Fault Refusal :=
  .next (s.setReg .acc (s.reg ra &&& s.reg rb))

/-- OR_REG_LIT: `acc <- r | lit` (R147). -/
def execOrRegLit (r : Reg) (lit : Word) (s : State) : Host.Outcome State Fault Refusal :=
  .next (s.setReg .acc (s.reg r ||| lit))

/-- OR_REG_REG: `acc <- ra | rb` (R148). -/
def execOrRegReg (ra rb : Reg) (s : State) : Host.Outcome State Fault Refusal :=
  .next (s.setReg .acc (s.reg ra ||| s.reg rb))

/-- XOR_REG_LIT: `acc <- r ^ lit` (R149). -/
def execXorRegLit (r : Reg) (lit : Word) (s : State) : Host.Outcome State Fault Refusal :=
  .next (s.setReg .acc (s.reg r ^^^ lit))

/-- XOR_REG_REG: `acc <- ra ^ rb` (R150). -/
def execXorRegReg (ra rb : Reg) (s : State) : Host.Outcome State Fault Refusal :=
  .next (s.setReg .acc (s.reg ra ^^^ s.reg rb))

/-- NOT: `acc <- ~r` (R151). -/
def execNot (r : Reg) (s : State) : Host.Outcome State Fault Refusal :=
  .next (s.setReg .acc (~~~(s.reg r)))

end Sys2Proof.Machine
end

