-- ==== Sys2Proof/Machine/StackCall.lean ====
section
/-! DEFINITION. PSH, POP, CAL and RET (44_stack_call.md). The stack discipline is not checked (R192). -/

namespace Sys2Proof.Machine

/-- PSH_LIT: `push(lit)` (R186). -/
def execPshLit (lit : Word) (s : State) : Host.Outcome State Fault Refusal :=
  (push lit s).outcome

/-- PSH_REG: `push(x[r])`, the register read before the push changes `sp` (R187, D11). -/
def execPshReg (r : Reg) (s : State) : Host.Outcome State Fault Refusal :=
  (push (s.reg r) s).outcome

/-- POP: `x[rd] <- pop()`, the destination written last (R188). -/
def execPop (rd : Reg) (s : State) : Host.Outcome State Fault Refusal :=
  ((pop s).bind fun v s => .ok () (s.setReg rd v)).outcome

/-- CAL_LIT: `pushState()`, then `ip <- t` (R189). -/
def execCalLit (t : Word) (s : State) : Host.Outcome State Fault Refusal :=
  ((pushState s).bind fun _ s => .ok () (s.setReg .ip t)).outcome

/-- CAL_REG: the target is read before `pushState()` (R190, D11). -/
def execCalReg (r : Reg) (s : State) : Host.Outcome State Fault Refusal :=
  let t := s.reg r
  ((pushState s).bind fun _ s => .ok () (s.setReg .ip t)).outcome

/-- RET: `popState()`; `inHandler` is not changed (R191). -/
def execRet (s : State) : Host.Outcome State Fault Refusal :=
  (popState s).outcome

end Sys2Proof.Machine
end

