-- ==== Sys2Proof/Machine/System.lean ====
section
/-! DEFINITION. INT, RET_INT and HLT (45_interrupt_system.md). -/

namespace Sys2Proof.Machine

/-- INT: `deliver(value)`; masked or delivered, the instruction completes (R200, 60_exceptions.md R217). -/
def execInt (value : Word) (s : State) : Host.Outcome State Fault Refusal :=
  ((deliver value s).bind fun _ s => .ok () s).outcome

/-- RET_INT: `inHandler <- false`, then `popState()`, whether or not `inHandler` was true (R201, D20). -/
def execRetInt (s : State) : Host.Outcome State Fault Refusal :=
  (returnFromInterrupt s).outcome

/-- HLT: the response is `Halted`; no register, memory or hidden state is written (R202, D17). -/
def execHlt (s : State) : Host.Outcome State Fault Refusal :=
  .next (s.setResponse .halted)

end Sys2Proof.Machine
end

