-- ==== Sys2Proof/Machine/Dispatch.lean ====
section
/-! DEFINITION. One arm per instruction (30_encoding.md R85, R87): the effect of an instruction whose operands have been
fetched. -/

namespace Sys2Proof.Machine

def exec (i : Instr) (s : State) : Host.Outcome State Fault Refusal :=
  match i with
  | .movLitReg lit rd => Sys2Proof.Machine.execMovLitReg lit rd s
  | .movRegReg rs rd => Sys2Proof.Machine.execMovRegReg rs rd s
  | .movRegMem rs addr => Sys2Proof.Machine.execMovRegMem rs addr s
  | .movMemReg addr rd => Sys2Proof.Machine.execMovMemReg addr rd s
  | .addRegReg ra rb => Sys2Proof.Machine.execAddRegReg ra rb s
  | .jneLit lit t => Sys2Proof.Machine.execJneLit lit t s
  | .subLitReg lit r => Sys2Proof.Machine.execSubLitReg lit r s
  | .pshLit lit => Sys2Proof.Machine.execPshLit lit s
  | .pshReg r => Sys2Proof.Machine.execPshReg r s
  | .pop rd => Sys2Proof.Machine.execPop rd s
  | .movLitMem lit addr => Sys2Proof.Machine.execMovLitMem lit addr s
  | .movRegPtrReg rp rd => Sys2Proof.Machine.execMovRegPtrReg rp rd s
  | .movLitOffReg base ri rd => Sys2Proof.Machine.execMovLitOffReg base ri rd s
  | .subRegLit r lit => Sys2Proof.Machine.execSubRegLit r lit s
  | .subRegReg ra rb => Sys2Proof.Machine.execSubRegReg ra rb s
  | .mulLitReg lit r => Sys2Proof.Machine.execMulLitReg lit r s
  | .mulRegReg ra rb => Sys2Proof.Machine.execMulRegReg ra rb s
  | .lsfRegLit r lit8 => Sys2Proof.Machine.execLsfRegLit r lit8 s
  | .lsfRegReg ra rb => Sys2Proof.Machine.execLsfRegReg ra rb s
  | .rsfRegLit r lit8 => Sys2Proof.Machine.execRsfRegLit r lit8 s
  | .rsfRegReg ra rb => Sys2Proof.Machine.execRsfRegReg ra rb s
  | .andRegLit r lit => Sys2Proof.Machine.execAndRegLit r lit s
  | .andRegReg ra rb => Sys2Proof.Machine.execAndRegReg ra rb s
  | .orRegLit r lit => Sys2Proof.Machine.execOrRegLit r lit s
  | .orRegReg ra rb => Sys2Proof.Machine.execOrRegReg ra rb s
  | .xorRegLit r lit => Sys2Proof.Machine.execXorRegLit r lit s
  | .xorRegReg ra rb => Sys2Proof.Machine.execXorRegReg ra rb s
  | .not r => Sys2Proof.Machine.execNot r s
  | .incReg r => Sys2Proof.Machine.execIncReg r s
  | .decReg r => Sys2Proof.Machine.execDecReg r s
  | .jeqReg r t => Sys2Proof.Machine.execJeqReg r t s
  | .addLitReg lit r => Sys2Proof.Machine.execAddLitReg lit r s
  | .jneReg r t => Sys2Proof.Machine.execJneReg r t s
  | .jeqLit lit t => Sys2Proof.Machine.execJeqLit lit t s
  | .jltReg r t => Sys2Proof.Machine.execJltReg r t s
  | .jltLit lit t => Sys2Proof.Machine.execJltLit lit t s
  | .jgtReg r t => Sys2Proof.Machine.execJgtReg r t s
  | .jgtLit lit t => Sys2Proof.Machine.execJgtLit lit t s
  | .jleReg r t => Sys2Proof.Machine.execJleReg r t s
  | .jleLit lit t => Sys2Proof.Machine.execJleLit lit t s
  | .jgeReg r t => Sys2Proof.Machine.execJgeReg r t s
  | .jgeLit lit t => Sys2Proof.Machine.execJgeLit lit t s
  | .addRegLit r lit => Sys2Proof.Machine.execAddRegLit r lit s
  | .mulRegLit r lit => Sys2Proof.Machine.execMulRegLit r lit s
  | .calLit t => Sys2Proof.Machine.execCalLit t s
  | .calReg r => Sys2Proof.Machine.execCalReg r s
  | .ret => Sys2Proof.Machine.execRet s
  | .retInt => Sys2Proof.Machine.execRetInt s
  | .int value => Sys2Proof.Machine.execInt value s
  | .hlt => Sys2Proof.Machine.execHlt s

end Sys2Proof.Machine
end

