-- ==== Sys2Proof/Machine/Fetch.lean ====
section
/-! DEFINITION. Fetching and decoding one instruction from main memory at `ip` (30_encoding.md R72 to R74, R85). -/

namespace Sys2Proof.Machine

/-- `fetch8()` (30_encoding.md R72). -/
def fetch8 (s : State) : Access Byte :=
  (memRead8 (s.reg .ip).toNat s).bind fun b s => .ok b (s.setReg .ip (s.reg .ip + 1))

/-- `fetch16()` (30_encoding.md R73). A word field never wraps inside itself. -/
def fetch16 (s : State) : Access Word :=
  (memRead16 (s.reg .ip).toNat s).bind fun w s => .ok w (s.setReg .ip (s.reg .ip + 2))

/-- The bytes of one operand field. `fetchReg()` is a `fetch8()` whose byte names register `byte mod 13` (30_encoding.md
R74): the reduction, `Reg.ofSelector`, is made where the instruction is assembled. -/
def fetchField (f : Field) (s : State) : Access (List Byte) :=
  match f with
  | .word => (fetch16 s).bind fun w s => .ok [highByte w, lowByte w] s
  | .byte => (fetch8 s).bind fun b s => .ok [b] s
  | .sel => (fetch8 s).bind fun b s => .ok [b] s

/-- The bytes of every operand field, in byte order (30_encoding.md R85 step 1). -/
def fetchFields : List Field → State → Access (List Byte)
  | [], s => .ok [] s
  | f :: fs, s =>
    (fetchField f s).bind fun bs s =>
    (fetchFields fs s).bind fun rest s => .ok (bs ++ rest) s

/-- The instruction of an opcode byte fetched from address `at`: it raises `IllegalInstruction` before any operand
fetch (60_exceptions.md R214), then fetches every operand before any source register is read (D5). -/
def decodeOpcode (op : Byte) (addr : Word) (s : State) : Access Instr :=
  match mnemonicOf s.config.opcodeMap op with
  | none => .raised (s.raise (.illegalInstruction op addr))
  | some m => (fetchFields m.format.fields s).bind fun bs s => .ok (Instr.ofBytes m bs) s

/-- The fetch and decode half of `STEP` (30_encoding.md R85): it leaves `ip` at the byte after the instruction
(10_state.md R26). -/
def fetchInstr (s : State) : Access Instr :=
  (fetch8 s).bind fun op s' => decodeOpcode op (s.reg .ip) s'

/-- Puts bytes at address `a` and on, wrapping at 2^16 as the fetch does; a byte outside memory is dropped. -/
def placeBytes : List Byte → Word → State → State
  | [], _, s => s
  | b :: bs, a, s =>
    placeBytes bs (a + 1)
      (if inBounds s.config a.toNat 1 then s.setMem (s.mem.writeByte a.toNat b) else s)

end Sys2Proof.Machine
end

