-- ==== Sys2Proof/Machine/Step.lean ====
section
/-! DEFINITION. The `STEP` transaction (00_scope.md R7, 30_encoding.md R85), and placing an instruction where it is
fetched next. -/

namespace Sys2Proof.Machine

/-- The execute half of a transaction: runs the instruction that was fetched. -/
def runFetched (x : Access Instr) : Host.Outcome State Fault Refusal :=
  match x with
  | .ok i s => exec i s
  | .raised f => .fault f

/-- `STEP`: one fetch-decode-execute cycle (30_encoding.md R85); refused once a fault has ended the run
(60_exceptions.md R213). -/
def step (s : State) : Host.Outcome State Fault Refusal :=
  match s.phase with
  | .loading => runFetched (fetchInstr s.start)
  | .running => runFetched (fetchInstr s.start)
  | .ended => .refused .runEnded

/-- `s` with the instruction of a table word at `x[ip]`, where the next `STEP` fetches. It stands for the host's `LOAD`
of that instruction (00_scope.md R9). -/
def State.withFetchWord (s : State) (nbits w : Nat) : State :=
  placeBytes (tableBytes nbits w) (s.reg .ip) s

end Sys2Proof.Machine
end

