-- ==== Sys2Proof/Machine/Ports.lean ====
section
/-! DEFINITION. The ports of the block beside `STEP` (00_scope.md R6): `CONFIG`, `LOAD`, `IRQ`, `EXEC` and `DEBUG`, and
a sequence of transactions as the host issues them, one at a time (R8, R13). -/

namespace Sys2Proof.Machine

/-- `CONFIG` and reset: an engine is built only from a legal configuration (00_scope.md R5, R11; 70_reset_and_hazards.md
R240). -/
def configure (c : Config) : Host.Outcome State Fault Refusal :=
  if c.memSizeLegal then
    if c.opcodeMap.legal then .next (State.resetWith c) else .refused .illegalOpcodeMap
  else .refused .illegalMemSize

/-- `LOAD(addr, bytes)`: byte `i` goes to `addr + i`; it fails when `addr + len(bytes) - 1 >= N`, before any byte is
written, and is refused once execution has begun (00_scope.md R9, D13). -/
def load (addr : Nat) (bytes : List Byte) (s : State) : Host.Outcome State Fault Refusal :=
  match s.phase with
  | .loading =>
    if addr + bytes.length ≤ s.config.memSize then .next (s.setMem (s.mem.writeBytes addr bytes))
    else .fault (s.raise (.outOfBounds (addr + bytes.length - 1) 1))
  | .running => .refused .loadAfterStart
  | .ended => .refused .runEnded

/-- The response of an `IRQ` (00_scope.md R8). -/
def Delivery.response : Delivery → Response
  | .delivered => .delivered
  | .masked => .masked

/-- `IRQ(value)`: interrupt delivery between instructions (00_scope.md R8, 60_exceptions.md R217); refused once a fault
has ended the run (R213). -/
def irq (value : Word) (s : State) : Host.Outcome State Fault Refusal :=
  match s.phase with
  | .loading => ((deliver value s.start).bind fun d s => .ok () (s.setResponse d.response)).outcome
  | .running => ((deliver value s.start).bind fun d s => .ok () (s.setResponse d.response)).outcome
  | .ended => .refused .runEnded

/-- `EXEC(opcode)`: as if `STEP` had just fetched `op`, with no opcode fetch and no advance of `ip` for it (00_scope.md
R10, 60_exceptions.md R214); refused once a fault has ended the run (R213). -/
def execOpcode (op : Byte) (s : State) : Host.Outcome State Fault Refusal :=
  match s.phase with
  | .loading => runFetched (decodeOpcode op (s.reg .ip) s.start)
  | .running => runFetched (decodeOpcode op (s.reg .ip) s.start)
  | .ended => .refused .runEnded

/-- `DEBUG`: the value of a register, in any phase (00_scope.md R12). -/
def debugReg (r : Reg) (s : State) : Word := s.reg r

/-- `DEBUG`: the bytes of the window of `n` bytes at `addr` that lie in main memory, in any phase (00_scope.md R12). -/
def debugMem (addr n : Nat) (s : State) : List Byte :=
  ((List.range n).filter fun k => inBounds s.config (addr + k) 1).map fun k => s.mem.byteAt (addr + k)

/-- The transactions that can change the state after construction (00_scope.md R6). -/
inductive Transaction where
  | load (addr : Nat) (bytes : List Byte)
  | step
  | irq (value : Word)
  | exec (op : Byte)
deriving DecidableEq, Repr

/-- Performs one transaction (00_scope.md R6). -/
def transact (t : Transaction) (s : State) : Host.Outcome State Fault Refusal :=
  match t with
  | .load addr bytes => load addr bytes s
  | .step => step s
  | .irq value => irq value s
  | .exec op => execOpcode op s

/-- Performs transactions in the host's order, each after the one before it has completed (00_scope.md R8, R13;
60_exceptions.md R222), stopping at the first fault or refusal. -/
def transactAll : List Transaction → State → Host.Outcome State Fault Refusal
  | [], s => .next s
  | t :: ts, s =>
    match transact t s with
    | .next s' => transactAll ts s'
    | .fault f => .fault f
    | .refused r => .refused r

end Sys2Proof.Machine
end

