-- ==== Sys2Proof/Safety.lean ====
section
/-! DEFINITION. The terms in which claims are made: the state invariant, the frame invariant, the word at an address,
what a transaction leaves unchanged, code standing in memory, and a run without faults. -/

namespace Sys2Proof.Machine

/-- Every listed byte of memory lies inside `[0, N)` (10_state.md R35). -/
def State.memInside (s : State) : Bool := s.mem.all fun cell => decide (cell.1 < s.config.memSize)

/-- The state invariant: a legal configuration (00_scope.md R5, R11), and memory in canonical form inside `[0, N)`. -/
def State.wf (s : State) : Bool := s.config.legal && s.mem.wf && s.memInside

/-- The frame invariant `INV`: `(x[sp] + sfs) mod 2^16 = x[fp]` (44_stack_call.md R194). -/
def FrameInv (s : State) : Prop := s.reg .sp + s.sfs = s.reg .fp

/-- The big-endian word at address `a` (20_memory.md R56). -/
def wordAt (s : State) (a : Nat) : Word := joinBytes (s.mem.byteAt a) (s.mem.byteAt (a + 1))

/-- The word slot at address `a` is in bounds (20_memory.md R51). -/
def slotInBounds (s : State) (a : Word) : Prop := a.toNat + 1 < s.config.memSize

/-- Every byte of memory reads the same in both states. -/
def SameMemory (s t : State) : Prop := ∀ a, t.mem.byteAt a = s.mem.byteAt a

/-- Every byte of memory outside the two bytes at `a` reads the same in both states. -/
def SameMemoryOutsideWord (a : Nat) (s t : State) : Prop :=
  ∀ b, b ≠ a → b ≠ a + 1 → t.mem.byteAt b = s.mem.byteAt b

/-- The address of slot `k` below stack pointer `a`: where the `k`-th push from `a` writes, counting from 0
(44_stack_call.md R180). -/
def slotBelow (a : Word) (k : Nat) : Word := a - BitVec.ofNat 16 (2 * k)

/-- The address of slot `k` above `a`: where the `k`-th pop from `a` reads, counting from 0 (44_stack_call.md R181). -/
def slotAbove (a : Word) (k : Nat) : Word := a + BitVec.ofNat 16 (2 * (k + 1))

/-- Every byte of memory outside the `n` word slots that `n` pushes from `sp` write, at `sp`, `sp - 2`, …, reads the
same in both states (44_stack_call.md R180). -/
def SameMemoryOutsidePushes (sp : Word) (n : Nat) (s t : State) : Prop :=
  ∀ b, (∀ k, k < n → b ≠ (slotBelow sp k).toNat ∧ b ≠ (slotBelow sp k).toNat + 1) →
    t.mem.byteAt b = s.mem.byteAt b

/-- Every register but those listed is the same in both states. -/
def SameRegsBut (rs : List Reg) (s t : State) : Prop := ∀ r, r ∉ rs → t.reg r = s.reg r

/-- The configuration, the phase and the response are the same in both states. -/
def SameEngine (s t : State) : Prop :=
  t.config = s.config ∧ t.phase = s.phase ∧ t.response = s.response

/-- `inHandler` and `sfs` are the same in both states. -/
def SameHidden (s t : State) : Prop := t.inHandler = s.inHandler ∧ t.sfs = s.sfs

/-- Nothing but the listed registers has changed. -/
def OnlyRegsChanged (rs : List Reg) (s t : State) : Prop :=
  SameRegsBut rs s t ∧ SameMemory s t ∧ SameHidden s t ∧ SameEngine s t

/-- The bytes stand in memory from address `a` on, wrapping at 2^16 as the fetch does (10_state.md R25). -/
def codeAt (s : State) : Word → List Byte → Prop
  | _, [] => True
  | a, b :: bs => s.mem.byteAt a.toNat = b ∧ codeAt s (a + 1) bs

/-- Every field, fetched in order from address `a` on, lies in memory: a word field does not wrap inside itself
(30_encoding.md R73, R86). -/
def fieldsReadable (s : State) : Word → List Field → Prop
  | _, [] => True
  | a, f :: fs => a.toNat + f.width - 1 < s.config.memSize ∧ fieldsReadable s (a + BitVec.ofNat 16 f.width) fs

/-- The number of bytes of a list of fields. -/
def widthOf (fields : List Field) : Nat := (fields.map Field.width).sum

/-- The transaction `o`, fetching operand fields from address `a` on, faults at the first field `f` that does not lie in
memory: the fields before it lie in memory, the fault records the address of `f`, which is `a` plus the widths of the
fields before it, and the width of `f`; `ip` is left at that address and nothing else has changed (30_encoding.md R72,
R73, R86). -/
def FaultsAtFirstUnreadable (s : State) (a : Word) (fields : List Field) (o : Host.Outcome State Fault Refusal) : Prop :=
  ∃ before f after final, fields = before ++ f :: after ∧ fieldsReadable s a before ∧
    s.config.memSize ≤ (a + BitVec.ofNat 16 (widthOf before)).toNat + f.width - 1 ∧
    o = .fault (.outOfBounds (a + BitVec.ofNat 16 (widthOf before)).toNat f.width final) ∧
    final.reg .ip = a + BitVec.ofNat 16 (widthOf before) ∧
    SameRegsBut [.ip] s final ∧ SameMemory s final ∧ SameHidden s final ∧ final.config = s.config

/-- The operand fetch of an instruction runs past the end of memory: when the opcode byte at `ip` selects `m` and some
operand field does not lie in memory, `STEP` faults at the first such field (30_encoding.md R86). -/
def OperandFetchFaults (m : Mnemonic) : Prop :=
  ∀ s : State, s.phase ≠ .ended → (s.reg .ip).toNat < s.config.memSize →
    mnemonicOf s.config.opcodeMap (s.mem.byteAt (s.reg .ip).toNat) = some m →
    ¬ fieldsReadable s (s.reg .ip + 1) m.format.fields →
    FaultsAtFirstUnreadable s (s.reg .ip + 1) m.format.fields (step s)

/-- The vector entry of an interrupt value stands at `a`: the exact sum `IVT_BASE + 2v`, or that sum mod 2^16 with the
alternative `EA_WRAP16` (60_exceptions.md R216; 20_memory.md R55; 92_eei_decisions.md D7). -/
def VectorEntryAt (c : Config) (value : Word) (a : Nat) : Prop :=
  (c.readings.eaWrap16 = false ∧ a = c.ivtBase.toNat + 2 * (value.toNat % 15)) ∨
  (c.readings.eaWrap16 = true ∧ a = (c.ivtBase.toNat + 2 * (value.toNat % 15)) % 65536)

/-- The register an instruction's rule names as its destination operand or result, beside what the stack operations,
jumps, calls, returns and interrupts do to `ip`, `sp` and `fp` (40_data_transfer.md to 45_interrupt_system.md). -/
def resultReg : Instr → Option Reg
  | .movLitReg _ rd | .movRegReg _ rd | .movMemReg _ rd | .movRegPtrReg _ rd | .movLitOffReg _ _ rd => some rd
  | .addRegReg _ _ | .addLitReg _ _ | .addRegLit _ _ => some .acc
  | .subRegReg _ _ | .subLitReg _ _ | .subRegLit _ _ => some .acc
  | .mulRegReg _ _ | .mulLitReg _ _ | .mulRegLit _ _ => some .acc
  | .incReg r | .decReg r => some r
  | .lsfRegLit r _ | .lsfRegReg r _ | .rsfRegLit r _ | .rsfRegReg r _ => some r
  | .andRegLit _ _ | .andRegReg _ _ | .orRegLit _ _ | .orRegReg _ _ | .xorRegLit _ _ | .xorRegReg _ _ | .not _ =>
    some .acc
  | .jneLit _ _ | .jneReg _ _ | .jeqLit _ _ | .jeqReg _ _ | .jltLit _ _ | .jltReg _ _ => none
  | .jgtLit _ _ | .jgtReg _ _ | .jleLit _ _ | .jleReg _ _ | .jgeLit _ _ | .jgeReg _ _ => none
  | .pop rd => some rd
  | .movRegMem _ _ | .movLitMem _ _ | .pshLit _ | .pshReg _ | .calLit _ | .calReg _ => none
  | .ret | .retInt | .int _ | .hlt => none

/-- The instructions that store to memory: the two MOV stores and everything that pushes. -/
def storesMemory : Instr → Bool
  | .movRegMem _ _ | .movLitMem _ _ | .pshLit _ | .pshReg _ | .calLit _ | .calReg _ | .int _ => true
  | .movLitReg _ _ | .movRegReg _ _ | .movMemReg _ _ | .movRegPtrReg _ _ | .movLitOffReg _ _ _ => false
  | .addRegReg _ _ | .addLitReg _ _ | .addRegLit _ _ | .subRegReg _ _ | .subLitReg _ _ | .subRegLit _ _ => false
  | .mulRegReg _ _ | .mulLitReg _ _ | .mulRegLit _ _ | .incReg _ | .decReg _ => false
  | .lsfRegLit _ _ | .lsfRegReg _ _ | .rsfRegLit _ _ | .rsfRegReg _ _ => false
  | .andRegLit _ _ | .andRegReg _ _ | .orRegLit _ _ | .orRegReg _ _ | .xorRegLit _ _ | .xorRegReg _ _ | .not _ => false
  | .jneLit _ _ | .jneReg _ _ | .jeqLit _ _ | .jeqReg _ _ | .jltLit _ _ | .jltReg _ _ => false
  | .jgtLit _ _ | .jgtReg _ _ | .jleLit _ _ | .jleReg _ _ | .jgeLit _ _ | .jgeReg _ _ => false
  | .pop _ | .ret | .retInt | .hlt => false

/-- The next `n` pushes are in bounds. -/
def roomForPushes (s : State) (n : Nat) : Prop := ∀ k, k < n → slotInBounds s (slotBelow (s.reg .sp) k)

/-- The next `n` pops from `a` are in bounds. -/
def roomForPops (s : State) (a : Word) (n : Nat) : Prop := ∀ k, k < n → slotInBounds s (slotAbove a k)

/-- Word `k` of the frame that `pushState()` saves in state `s`, in push order: `r1` .. `r8`, `ip`, and the frame size,
which counts the ten words themselves (44_stack_call.md R182). -/
def frameWord (s : State) (k : Nat) : Word := (frameRegs.map s.reg ++ [s.sfs + 20]).getD k 0

/-- Pushes words in the order of the list, as a caller pushes arguments (44_stack_call.md R184). -/
def pushSeq : List Word → State → Access Unit
  | [], s => .ok () s
  | w :: ws, s => (push w s).bind fun _ s => pushSeq ws s

/-- A run of transactions is safe when it ends in neither a fault nor a refusal (60_exceptions.md R213). -/
def SafeRun (ts : List Transaction) (s : State) : Prop := ∃ t, transactAll ts s = .next t

end Sys2Proof.Machine
end

