-- ==== Sys2Proof/Certificates/Slice0/Obligations.lean ====
section
/-! DEFINITION. The statements for the provers. Every statement is over all states, with no premise that a run reaches
them. A meaning runs after the operand fetch, so in the statements about `exec` the value `s.reg .ip` is the address of
the next instruction (10_state.md R26). At the four points where 92_eei_decisions.md names an alternative (assumption
log, entry 5) a premise on that one field of `Readings` says which reading a statement is about.
`OperandFetchFaults` in an instruction's statement is the exception its rule lists for the operand fetch (30_encoding.md
R86). The opcode bytes in the statements are those of the default map (30_encoding.md R80, D1). -/

open Sys2Proof Sys2Proof.Machine

/-! ## Encoding -/

/-- Decoding an encoded instruction gives it back, with every operand at every value and whatever bytes follow, for
every legal opcode map (30_encoding.md R75, R76, R78, R81). That the encoder writes the canonical selector of R78, a
rule the spec marks as derived, is what makes the round trip whole. -/
def Obligations.DecodeEncodeAgree : Prop :=
  ∀ (map : OpcodeMap) (i : Instr) (rest : List Byte), map.legal = true →
    decode map (encode map i ++ rest) = .ok (i, rest)

/-- The opcode byte alone fixes the length, 1 to 5 bytes, whatever the operand bytes are (30_encoding.md R70). -/
def Obligations.OpcodeAloneFixesLength : Prop :=
  ∀ (map : OpcodeMap) (op : Byte) (bytes : List Byte), map.legal = true →
    match mnemonicOf map op with
    | none => decode map (op :: bytes) = .error (.illegalOpcode op)
    | some m =>
      1 ≤ m.length ∧ m.length ≤ 5 ∧
      (bytes.length + 1 < m.length → decode map (op :: bytes) = .error (.truncated m)) ∧
      (m.length ≤ bytes.length + 1 → ∃ i, i.mnemonic = m ∧ (encode map i).length = m.length ∧
        decode map (op :: bytes) = .ok (i, bytes.drop (m.length - 1)))

/-- With the default map, the bytes that are no opcode are exactly the 206 that 30_encoding.md R82 lists, and each of
the other 50 is the byte of the mnemonic it selects. -/
def Obligations.IllegalOpcodeBytesAreTheListed206 : Prop :=
  (∀ op : Byte, mnemonicOf OpcodeMap.default op = none ↔
    op.toNat ≤ 0x0F ∨ op.toNat = 0x19 ∨ (0x22 ≤ op.toNat ∧ op.toNat ≤ 0x25) ∨ op.toNat = 0x28 ∨ op.toNat = 0x29 ∨
    op.toNat = 0x2C ∨ op.toNat = 0x2D ∨ (0x37 ≤ op.toNat ∧ op.toNat ≤ 0x3D) ∨ (0x4A ≤ op.toNat ∧ op.toNat ≤ 0x4F) ∨
    (0x52 ≤ op.toNat ∧ op.toNat ≤ 0x5D) ∨ (0x61 ≤ op.toNat ∧ op.toNat ≤ 0xFB) ∨ op.toNat = 0xFE) ∧
  (∀ op m, mnemonicOf OpcodeMap.default op = some m → opcodeOf OpcodeMap.default m = op) ∧
  ((List.range 256).filter fun n => mnemonicOf OpcodeMap.default (BitVec.ofNat 8 n) == none).length = 206

/-- Every selector byte names the register whose index is the byte mod 13; the canonical selector of a register is its
index (30_encoding.md R78, which the spec marks as derived from R74 and R20). -/
def Obligations.SelectorNamesRegisterModuloThirteen : Prop :=
  (∀ b : Byte, (Reg.ofSelector b).index = b.toNat % 13) ∧
  (∀ r : Reg, r.selector.toNat = r.index ∧ Reg.ofSelector r.selector = r) ∧
  [Reg.ip, .acc, .r1, .r2, .r3, .r4, .r5, .r6, .r7, .r8, .sp, .fp, .im].map Reg.selector =
    [0x00, 0x01, 0x02, 0x03, 0x04, 0x05, 0x06, 0x07, 0x08, 0x09, 0x0A, 0x0B, 0x0C] ∧
  Reg.ofSelector 0x0D = .ip ∧ Reg.ofSelector 0x0E = .acc ∧ Reg.ofSelector 0x19 = .im ∧ Reg.ofSelector 0x1A = .ip ∧
  Reg.ofSelector 0xFF = .r7

/-- A few words written out from the spec's encodings, one per family, decode to what they stand for
(95_test_vectors.md L1 to L3; 30_encoding.md R75, R80). -/
def Obligations.SampleWordsDecode : Prop :=
  decode OpcodeMap.default [0x10, 0x12, 0x34, 0x02] = .ok (.movLitReg 0x1234 .r1, []) ∧
  decode OpcodeMap.default [0x1D, 0x20, 0x00, 0x03, 0x04] = .ok (.movLitOffReg 0x2000 .r2 .r3, []) ∧
  decode OpcodeMap.default [0x1E, 0x02, 0x00, 0x05] = .ok (.subRegLit .r1 0x0005, []) ∧
  decode OpcodeMap.default [0x26, 0x02, 0x0F] = .ok (.lsfRegLit .r1 0x0F, []) ∧
  decode OpcodeMap.default [0x15, 0x00, 0x05, 0x00, 0x04] = .ok (.jneLit 0x0005 0x0004, []) ∧
  decode OpcodeMap.default [0x5E, 0x01, 0x00] = .ok (.calLit 0x0100, []) ∧
  decode OpcodeMap.default [0xFD, 0x00, 0x12] = .ok (.int 0x0012, []) ∧
  decode OpcodeMap.default [0xFF] = .ok (.hlt, [])

/-! ## Configuration and reset -/

/-- `CONFIG` with a legal configuration builds an engine whose every state element has the reset value of 10_state.md
R37; the default configuration builds `State.reset`. -/
def Obligations.ConfigureBuildsTheResetState : Prop :=
  (∀ c : Config, c.legal = true → ∃ t, configure c = .next t ∧ t.config = c ∧
    t.reg .ip = 0x0000 ∧ t.reg .acc = 0x0000 ∧
    t.reg .r1 = 0x0000 ∧ t.reg .r2 = 0x0000 ∧ t.reg .r3 = 0x0000 ∧ t.reg .r4 = 0x0000 ∧
    t.reg .r5 = 0x0000 ∧ t.reg .r6 = 0x0000 ∧ t.reg .r7 = 0x0000 ∧ t.reg .r8 = 0x0000 ∧
    t.reg .sp = 0xFFFD ∧ t.reg .fp = 0xFFFD ∧ t.reg .im = 0xFFFF ∧
    t.inHandler = false ∧ t.sfs = 0x0000 ∧ ∀ a, t.mem.byteAt a = 0x00) ∧
  configure Config.default = .next State.reset

/-- An illegal configuration never runs. The rejection of an `OPCODE_MAP` that is not injective is 00_scope.md R11;
that an `OPCODE_MAP` without all 50 mnemonics, or a `MEM_SIZE` outside 1 .. 65536, is rejected the same way is the
model's choice (assumption log, entry 9). -/
def Obligations.IllegalConfigurationIsRejected : Prop :=
  ∀ c : Config,
    (¬ (1 ≤ c.memSize ∧ c.memSize ≤ 65536) → configure c = .refused .illegalMemSize) ∧
    (1 ≤ c.memSize → c.memSize ≤ 65536 → ¬ (c.opcodeMap.map Prod.fst).Nodup →
      configure c = .refused .illegalOpcodeMap) ∧
    (1 ≤ c.memSize → c.memSize ≤ 65536 → c.opcodeMap.map Prod.snd ≠ Mnemonic.all →
      configure c = .refused .illegalOpcodeMap)

/-- The state invariant and the frame invariant (44_stack_call.md R194: "holds at reset"; the spec marks it as
derived) hold at reset, for every legal configuration. -/
def Obligations.ResetSatisfiesInvariants : Prop :=
  (State.reset.wf = true ∧ FrameInv State.reset) ∧
  ∀ c : Config, c.legal = true → (State.resetWith c).wf = true ∧ FrameInv (State.resetWith c)

/-! ## Registers and memory -/

/-- A register write of an exact integer stores it modulo 2^16, changes nothing else, and reads back (10_state.md
R22). -/
def Obligations.RegisterWriteStoresModulo : Prop :=
  ∀ (s : State) (r : Reg) (v : Int),
    (((s.writeExact r v).reg r).toNat : Int) = v % 0x10000 ∧ OnlyRegsChanged [r] s (s.writeExact r v)

/-- The four memory operations in and out of bounds: what they read or write, and that an access out of bounds raises
`OutOfBounds(a, n)` with no byte read or written (20_memory.md R51, R52, R53). -/
def Obligations.MemoryAccessesInAndOutOfBounds : Prop :=
  ∀ (s : State) (a : Nat),
    (a + 1 - 1 < s.config.memSize →
      memRead8 a s = .ok (s.mem.byteAt a) s ∧
      ∀ b, ∃ t, memWrite8 a b s = .ok () t ∧ t.mem.byteAt a = b ∧ (∀ c, c ≠ a → t.mem.byteAt c = s.mem.byteAt c) ∧
        SameRegsBut [] s t ∧ SameHidden s t ∧ SameEngine s t) ∧
    (s.config.memSize ≤ a + 1 - 1 →
      memRead8 a s = .raised (s.raise (.outOfBounds a 1)) ∧
      ∀ b, memWrite8 a b s = .raised (s.raise (.outOfBounds a 1))) ∧
    (a + 2 - 1 < s.config.memSize →
      (∃ w, memRead16 a s = .ok w s ∧ w.toNat = 256 * (s.mem.byteAt a).toNat + (s.mem.byteAt (a + 1)).toNat) ∧
      ∀ v, ∃ t, memWrite16 a v s = .ok () t ∧
        (t.mem.byteAt a).toNat = v.toNat / 256 ∧ (t.mem.byteAt (a + 1)).toNat = v.toNat % 256 ∧
        SameMemoryOutsideWord a s t ∧ SameRegsBut [] s t ∧ SameHidden s t ∧ SameEngine s t) ∧
    (s.config.memSize ≤ a + 2 - 1 →
      memRead16 a s = .raised (s.raise (.outOfBounds a 2)) ∧
      ∀ v, memWrite16 a v s = .raised (s.raise (.outOfBounds a 2)))

/-- The mixed-width view of memory is big-endian, and a word write is two byte writes in order (20_memory.md R57,
which the spec marks as derived from R52 and R53). -/
def Obligations.WordsAndBytesAgreeBigEndian : Prop :=
  ∀ (s : State) (a : Nat), a + 1 < s.config.memSize →
    (∀ v : Word, ∃ t, memWrite16 a v s = .ok () t ∧
      memRead8 a t = .ok (v.extractLsb' 8 8) t ∧ memRead8 (a + 1) t = .ok (v.extractLsb' 0 8) t ∧
      memRead16 a t = .ok v t ∧
      ((memWrite8 a (v.extractLsb' 8 8) s).bind fun _ u => memWrite8 (a + 1) (v.extractLsb' 0 8) u) = .ok () t) ∧
    (∀ b0 b1 : Byte, ∃ t, ((memWrite8 a b0 s).bind fun _ u => memWrite8 (a + 1) b1 u) = .ok () t ∧
      memRead16 a t = .ok (b0 ++ b1) t)

/-- A stored word is what the next fetch at its address reads (20_memory.md R65). -/
def Obligations.StoresAreSeenByFetch : Prop :=
  ∀ (s t u : State) (lit addr : Word), exec (.movLitMem lit addr) s = .next t →
    u.mem = t.mem → u.config = t.config → u.reg .ip = addr →
    fetch16 u = .ok lit (u.setReg .ip (addr + 2)) ∧
    fetch8 u = .ok (lit.extractLsb' 8 8) (u.setReg .ip (addr + 1))

/-! ## Fetching and stepping -/

/-- `fetch8()` and `fetch16()` read at `ip` and advance it, modulo 2^16, or raise (30_encoding.md R72, R73). -/
def Obligations.FetchReadsAndAdvances : Prop :=
  ∀ s : State,
    ((s.reg .ip).toNat < s.config.memSize → ∃ t, fetch8 s = .ok (s.mem.byteAt (s.reg .ip).toNat) t ∧
      t.reg .ip = s.reg .ip + 1 ∧ OnlyRegsChanged [.ip] s t) ∧
    (s.config.memSize ≤ (s.reg .ip).toNat → fetch8 s = .raised (s.raise (.outOfBounds (s.reg .ip).toNat 1))) ∧
    ((s.reg .ip).toNat + 1 < s.config.memSize → ∃ t, fetch16 s = .ok (wordAt s (s.reg .ip).toNat) t ∧
      t.reg .ip = s.reg .ip + 2 ∧ OnlyRegsChanged [.ip] s t) ∧
    (s.config.memSize ≤ (s.reg .ip).toNat + 1 →
      fetch16 s = .raised (s.raise (.outOfBounds (s.reg .ip).toNat 2)))

/-- When the bytes at `ip` decode to `i` and every field of them lies in memory, `STEP` is `exec` of `i` at the state
whose `ip` is past the instruction, execution begun and the response `Running` unless `exec` says otherwise
(30_encoding.md R85, 10_state.md R26). -/
def Obligations.StepRunsTheDecodedInstruction : Prop :=
  ∀ (s : State) (op : Byte) (bytes : List Byte) (i : Instr),
    s.phase ≠ .ended → s.config.memSize ≤ 65536 → (s.reg .ip).toNat < s.config.memSize →
    codeAt s (s.reg .ip) (op :: bytes) →
    decode s.config.opcodeMap (op :: bytes) = .ok (i, []) →
    fieldsReadable s (s.reg .ip + 1) i.mnemonic.format.fields →
    step s = exec i (s.start.setReg .ip (s.reg .ip + BitVec.ofNat 16 i.mnemonic.length))

/-- An opcode byte that is not in the opcode map raises `IllegalInstruction` after the opcode fetch and before any
operand fetch: only `ip` has advanced, past the opcode; under `EXEC` it has not (60_exceptions.md R214). -/
def Obligations.IllegalOpcodeRaises : Prop :=
  (∀ s : State, s.phase ≠ .ended → (s.reg .ip).toNat < s.config.memSize →
    mnemonicOf s.config.opcodeMap (s.mem.byteAt (s.reg .ip).toNat) = none →
    ∃ final, step s = .fault (.illegalInstruction (s.mem.byteAt (s.reg .ip).toNat) (s.reg .ip) final) ∧
      final.reg .ip = s.reg .ip + 1 ∧ SameRegsBut [.ip] s final ∧ SameMemory s final ∧ SameHidden s final ∧
      final.config = s.config) ∧
  (∀ (s : State) (op : Byte), s.phase ≠ .ended → mnemonicOf s.config.opcodeMap op = none →
    ∃ final, execOpcode op s = .fault (.illegalInstruction op (s.reg .ip) final) ∧
      SameRegsBut [] s final ∧ SameMemory s final ∧ SameHidden s final ∧ final.config = s.config)

/-- An instruction whose bytes run past the end of memory faults at its first field outside memory, the opcode byte or
an operand field: the fault records the address and the width of that field, `ip` is left at that address, and nothing
else has changed (30_encoding.md R86). -/
def Obligations.FetchPastTheEndRaises : Prop :=
  (∀ s : State, s.phase ≠ .ended → s.config.memSize ≤ (s.reg .ip).toNat →
    ∃ final, step s = .fault (.outOfBounds (s.reg .ip).toNat 1 final) ∧
      SameRegsBut [] s final ∧ SameMemory s final ∧ SameHidden s final ∧ final.config = s.config) ∧
  ∀ m, OperandFetchFaults m

/-- A `STEP` that completes responds `Halted` if the instruction was HLT, else `Running` (30_encoding.md R85,
00_scope.md R7). -/
def Obligations.StepRespondsHaltedExactlyForHlt : Prop :=
  ∀ (s s' t : State) (i : Instr), s.phase ≠ .ended → fetchInstr s.start = .ok i s' → step s = .next t →
    t.response = if i = .hlt then .halted else .running

/-- A fault ends the run: the state at the point of the raise records it, and every later transaction is refused
(60_exceptions.md R213; the refusal of `LOAD` is 00_scope.md R9, D13). That a failing `LOAD` ends the run too, and
that the raise is recorded in the state's response, are the model's choices (assumption log, entries 7 and 2). -/
def Obligations.FaultEndsTheRun : Prop :=
  ∀ (tr : Transaction) (s : State) (f : Fault), transact tr s = .fault f →
    f.final.phase = .ended ∧ f.final.response = .fault f.info ∧ f.final.config = s.config ∧
    ∀ tr', transact tr' f.final = .refused .runEnded

/-- No instruction and no port raises `UnknownRegister` (60_exceptions.md R212, which the spec marks as derived). -/
def Obligations.UnknownRegisterIsNeverRaised : Prop :=
  ∀ (tr : Transaction) (s : State) (index : Nat) (final : State),
    transact tr s ≠ .fault (.unknownRegister index final)

/-! ## Invariants and whole-machine rules -/

/-- Every `STEP` keeps the state invariant (a legal configuration, memory in canonical form and inside `[0, N)`), and
no `STEP` changes the configuration (10_state.md R35, R37; 00_scope.md R5, R11). -/
def Obligations.StepKeepsStateInvariant : Prop :=
  ∀ s t : State, s.wf = true → step s = .next t → t.wf = true ∧ t.config = s.config

/-- Every sequence of `LOAD`, `STEP`, `IRQ` and `EXEC` transactions that completes keeps the state invariant and the
configuration (00_scope.md R5, R11; 10_state.md R35). -/
def Obligations.TransactionsKeepStateInvariant : Prop :=
  ∀ (ts : List Transaction) (s t : State), s.wf = true → transactAll ts s = .next t →
    t.wf = true ∧ t.config = s.config

/-- Every instruction but the two returns keeps the frame invariant, unless its result register is `sp` or `fp`
(44_stack_call.md R194, which the spec marks as derived). -/
def Obligations.FrameInvariantIsKept : Prop :=
  ∀ (i : Instr) (s t : State), i ≠ .ret → i ≠ .retInt → resultReg i ≠ some .sp → resultReg i ≠ some .fp →
    FrameInv s → exec i s = .next t → FrameInv t

/-- `acc` and `im` change only where an instruction names them as its result: no call, return, jump, interrupt or
store touches them (10_state.md R27, R32). -/
def Obligations.AccAndMaskChangeOnlyAsResult : Prop :=
  ∀ (i : Instr) (s t : State) (r : Reg), r = .acc ∨ r = .im → resultReg i ≠ some r →
    exec i s = .next t → t.reg r = s.reg r

/-- `inHandler` is set only by a delivered INT and cleared only by RET_INT (10_state.md R30, 60_exceptions.md R220).
-/
def Obligations.InHandlerChangesOnlyByIntAndRetInt : Prop :=
  ∀ (i : Instr) (s t : State), exec i s = .next t →
    (i = .retInt → t.inHandler = false) ∧
    (∀ v, i = .int v → t.inHandler = (s.inHandler || (s.reg .im).getLsbD (v.toNat % 15))) ∧
    (i ≠ .retInt → (∀ v, i ≠ .int v) → t.inHandler = s.inHandler)

/-- Only the two MOV stores and the instructions that push change memory; all the others leave every byte as it was
(20_memory.md R60; 40_data_transfer.md R107). -/
def Obligations.OnlyStoringInstructionsChangeMemory : Prop :=
  ∀ (i : Instr) (s t : State), storesMemory i = false → exec i s = .next t → SameMemory s t

/-- `sfs` changes only in the stack instructions, calls, returns and INT (10_state.md R31). -/
def Obligations.FrameCounterChangesOnlyByStack : Prop :=
  ∀ (i : Instr) (s t : State), (∀ v, i ≠ .pshLit v) → (∀ r, i ≠ .pshReg r) → (∀ r, i ≠ .pop r) → (∀ a, i ≠ .calLit a) →
    (∀ r, i ≠ .calReg r) → i ≠ .ret → i ≠ .retInt → (∀ v, i ≠ .int v) → exec i s = .next t → t.sfs = s.sfs

/-! ## Data transfer -/

/-- MOV_LIT_REG and MOV_REG_REG: encoding, result and frame (40_data_transfer.md R100, R101). -/
def Obligations.MoveLiteralOrRegister : Prop :=
  OperandFetchFaults .movLitReg ∧ OperandFetchFaults .movRegReg ∧
  (∀ (s : State) (lit : Word) (rd : Reg),
    encode OpcodeMap.default (.movLitReg lit rd) = [0x10, lit.extractLsb' 8 8, lit.extractLsb' 0 8, rd.selector] ∧
    ∃ t, exec (.movLitReg lit rd) s = .next t ∧ t.reg rd = lit ∧ OnlyRegsChanged [rd] s t) ∧
  (∀ (s : State) (rs rd : Reg),
    encode OpcodeMap.default (.movRegReg rs rd) = [0x11, rs.selector, rd.selector] ∧
    ∃ t, exec (.movRegReg rs rd) s = .next t ∧ t.reg rd = s.reg rs ∧ OnlyRegsChanged [rd] s t)

/-- MOV_MEM_REG, MOV_REG_PTR_REG and MOV_LIT_OFF_REG: encoding; in bounds, result and frame; out of bounds, the fault
with nothing changed (40_data_transfer.md R103, R105, R106). The indexed address is the exact sum. -/
def Obligations.LoadsReadTheAddressedWord : Prop :=
  OperandFetchFaults .movMemReg ∧ OperandFetchFaults .movRegPtrReg ∧ OperandFetchFaults .movLitOffReg ∧
  (∀ (s : State) (addr : Word) (rd : Reg),
    encode OpcodeMap.default (.movMemReg addr rd) = [0x13, addr.extractLsb' 8 8, addr.extractLsb' 0 8, rd.selector] ∧
    (addr.toNat + 1 < s.config.memSize → ∃ t, exec (.movMemReg addr rd) s = .next t ∧
      t.reg rd = wordAt s addr.toNat ∧ OnlyRegsChanged [rd] s t) ∧
    (s.config.memSize ≤ addr.toNat + 1 →
      exec (.movMemReg addr rd) s = .fault (s.raise (.outOfBounds addr.toNat 2)))) ∧
  (∀ (s : State) (rp rd : Reg),
    encode OpcodeMap.default (.movRegPtrReg rp rd) = [0x1C, rp.selector, rd.selector] ∧
    ((s.reg rp).toNat + 1 < s.config.memSize → ∃ t, exec (.movRegPtrReg rp rd) s = .next t ∧
      t.reg rd = wordAt s (s.reg rp).toNat ∧ OnlyRegsChanged [rd] s t) ∧
    (s.config.memSize ≤ (s.reg rp).toNat + 1 →
      exec (.movRegPtrReg rp rd) s = .fault (s.raise (.outOfBounds (s.reg rp).toNat 2)))) ∧
  (∀ (s : State) (base : Word) (ri rd : Reg), s.config.readings.eaWrap16 = false →
    encode OpcodeMap.default (.movLitOffReg base ri rd) =
      [0x1D, base.extractLsb' 8 8, base.extractLsb' 0 8, ri.selector, rd.selector] ∧
    (base.toNat + (s.reg ri).toNat + 1 < s.config.memSize → ∃ t, exec (.movLitOffReg base ri rd) s = .next t ∧
      t.reg rd = wordAt s (base.toNat + (s.reg ri).toNat) ∧ OnlyRegsChanged [rd] s t) ∧
    (s.config.memSize ≤ base.toNat + (s.reg ri).toNat + 1 →
      exec (.movLitOffReg base ri rd) s = .fault (s.raise (.outOfBounds (base.toNat + (s.reg ri).toNat) 2))))

/-- MOV_REG_MEM and MOV_LIT_MEM: encoding; in bounds, the two bytes stored big-endian at the address and nothing else
changed; out of bounds, the fault with nothing changed (40_data_transfer.md R102, R104). -/
def Obligations.StoresWriteTheAddressedWord : Prop :=
  OperandFetchFaults .movRegMem ∧ OperandFetchFaults .movLitMem ∧
  (∀ (s : State) (rs : Reg) (addr : Word),
    encode OpcodeMap.default (.movRegMem rs addr) = [0x12, rs.selector, addr.extractLsb' 8 8, addr.extractLsb' 0 8] ∧
    (addr.toNat + 1 < s.config.memSize → ∃ t, exec (.movRegMem rs addr) s = .next t ∧
      t.mem.byteAt addr.toNat = (s.reg rs).extractLsb' 8 8 ∧ t.mem.byteAt (addr.toNat + 1) = (s.reg rs).extractLsb' 0 8 ∧
      SameMemoryOutsideWord addr.toNat s t ∧ SameRegsBut [] s t ∧ SameHidden s t ∧ SameEngine s t) ∧
    (s.config.memSize ≤ addr.toNat + 1 →
      exec (.movRegMem rs addr) s = .fault (s.raise (.outOfBounds addr.toNat 2)))) ∧
  (∀ (s : State) (lit addr : Word),
    encode OpcodeMap.default (.movLitMem lit addr) =
      [0x1B, lit.extractLsb' 8 8, lit.extractLsb' 0 8, addr.extractLsb' 8 8, addr.extractLsb' 0 8] ∧
    (addr.toNat + 1 < s.config.memSize → ∃ t, exec (.movLitMem lit addr) s = .next t ∧
      t.mem.byteAt addr.toNat = lit.extractLsb' 8 8 ∧ t.mem.byteAt (addr.toNat + 1) = lit.extractLsb' 0 8 ∧
      SameMemoryOutsideWord addr.toNat s t ∧ SameRegsBut [] s t ∧ SameHidden s t ∧ SameEngine s t) ∧
    (s.config.memSize ≤ addr.toNat + 1 →
      exec (.movLitMem lit addr) s = .fault (s.raise (.outOfBounds addr.toNat 2))))

/-! ## Arithmetic -/

/-- ADD in its three forms: encoding, `acc` and frame (41_arithmetic.md R121, R122, R123). -/
def Obligations.AddIntoAcc : Prop :=
  OperandFetchFaults .addRegReg ∧ OperandFetchFaults .addLitReg ∧ OperandFetchFaults .addRegLit ∧
  (∀ (s : State) (ra rb : Reg),
    encode OpcodeMap.default (.addRegReg ra rb) = [0x14, ra.selector, rb.selector] ∧
    ∃ t, exec (.addRegReg ra rb) s = .next t ∧ t.reg .acc = s.reg ra + s.reg rb ∧ OnlyRegsChanged [.acc] s t) ∧
  (∀ (s : State) (lit : Word) (r : Reg),
    encode OpcodeMap.default (.addLitReg lit r) = [0x3F, lit.extractLsb' 8 8, lit.extractLsb' 0 8, r.selector] ∧
    encode OpcodeMap.default (.addRegLit r lit) = [0x50, r.selector, lit.extractLsb' 8 8, lit.extractLsb' 0 8] ∧
    (∃ t, exec (.addLitReg lit r) s = .next t ∧ t.reg .acc = lit + s.reg r ∧ OnlyRegsChanged [.acc] s t) ∧
    (∃ t, exec (.addRegLit r lit) s = .next t ∧ t.reg .acc = s.reg r + lit ∧ OnlyRegsChanged [.acc] s t))

/-- SUB in its three forms: encoding, `acc` and frame. SUB_LIT_REG is register minus literal, SUB_REG_LIT literal
minus register (41_arithmetic.md R124, R125, R126). -/
def Obligations.SubtractIntoAcc : Prop :=
  OperandFetchFaults .subRegReg ∧ OperandFetchFaults .subLitReg ∧ OperandFetchFaults .subRegLit ∧
  (∀ (s : State) (ra rb : Reg),
    encode OpcodeMap.default (.subRegReg ra rb) = [0x1F, ra.selector, rb.selector] ∧
    ∃ t, exec (.subRegReg ra rb) s = .next t ∧ t.reg .acc = s.reg ra - s.reg rb ∧ OnlyRegsChanged [.acc] s t) ∧
  (∀ (s : State) (lit : Word) (r : Reg),
    encode OpcodeMap.default (.subLitReg lit r) = [0x16, lit.extractLsb' 8 8, lit.extractLsb' 0 8, r.selector] ∧
    encode OpcodeMap.default (.subRegLit r lit) = [0x1E, r.selector, lit.extractLsb' 8 8, lit.extractLsb' 0 8] ∧
    (∃ t, exec (.subLitReg lit r) s = .next t ∧ t.reg .acc = s.reg r - lit ∧ OnlyRegsChanged [.acc] s t) ∧
    (∃ t, exec (.subRegLit r lit) s = .next t ∧ t.reg .acc = lit - s.reg r ∧ OnlyRegsChanged [.acc] s t))

/-- MUL in its three forms: encoding, the low 16 bits of the product in `acc`, and frame (41_arithmetic.md R127, R128,
R129). -/
def Obligations.MultiplyIntoAcc : Prop :=
  OperandFetchFaults .mulRegReg ∧ OperandFetchFaults .mulLitReg ∧ OperandFetchFaults .mulRegLit ∧
  (∀ (s : State) (ra rb : Reg),
    encode OpcodeMap.default (.mulRegReg ra rb) = [0x21, ra.selector, rb.selector] ∧
    ∃ t, exec (.mulRegReg ra rb) s = .next t ∧
      (t.reg .acc).toNat = (s.reg ra).toNat * (s.reg rb).toNat % 65536 ∧ OnlyRegsChanged [.acc] s t) ∧
  (∀ (s : State) (lit : Word) (r : Reg),
    encode OpcodeMap.default (.mulLitReg lit r) = [0x20, lit.extractLsb' 8 8, lit.extractLsb' 0 8, r.selector] ∧
    encode OpcodeMap.default (.mulRegLit r lit) = [0x51, r.selector, lit.extractLsb' 8 8, lit.extractLsb' 0 8] ∧
    (∃ t, exec (.mulLitReg lit r) s = .next t ∧
      (t.reg .acc).toNat = lit.toNat * (s.reg r).toNat % 65536 ∧ OnlyRegsChanged [.acc] s t) ∧
    (∃ t, exec (.mulRegLit r lit) s = .next t ∧
      (t.reg .acc).toNat = (s.reg r).toNat * lit.toNat % 65536 ∧ OnlyRegsChanged [.acc] s t))

/-- INC_REG and DEC_REG: encoding, the addressed register in place, and frame (41_arithmetic.md R130, R131). -/
def Obligations.IncrementAndDecrementInPlace : Prop :=
  OperandFetchFaults .incReg ∧ OperandFetchFaults .decReg ∧
  ∀ (s : State) (r : Reg),
    encode OpcodeMap.default (.incReg r) = [0x35, r.selector] ∧
    encode OpcodeMap.default (.decReg r) = [0x36, r.selector] ∧
    (∃ t, exec (.incReg r) s = .next t ∧ t.reg r = s.reg r + 1 ∧ OnlyRegsChanged [r] s t) ∧
    (∃ t, exec (.decReg r) s = .next t ∧ t.reg r = s.reg r - 1 ∧ OnlyRegsChanged [r] s t)

/-! ## Shifts and logic -/

/-- LSF and RSF: encoding, the logical shift of the addressed register in place, 0 for every amount of 16 or more, and
frame (42_logic_shift.md R141 to R144). -/
def Obligations.ShiftInPlace : Prop :=
  OperandFetchFaults .lsfRegLit ∧ OperandFetchFaults .lsfRegReg ∧ OperandFetchFaults .rsfRegLit ∧
  OperandFetchFaults .rsfRegReg ∧
  (∀ (s : State) (r : Reg) (amount : Byte), s.config.readings.shiftMod32 = false →
    encode OpcodeMap.default (.lsfRegLit r amount) = [0x26, r.selector, amount] ∧
    encode OpcodeMap.default (.rsfRegLit r amount) = [0x2A, r.selector, amount] ∧
    (∃ t, exec (.lsfRegLit r amount) s = .next t ∧
      (t.reg r).toNat = (if amount.toNat ≤ 15 then (s.reg r).toNat * 2 ^ amount.toNat % 65536 else 0) ∧
      OnlyRegsChanged [r] s t) ∧
    (∃ t, exec (.rsfRegLit r amount) s = .next t ∧
      (t.reg r).toNat = (if amount.toNat ≤ 15 then (s.reg r).toNat / 2 ^ amount.toNat else 0) ∧
      OnlyRegsChanged [r] s t)) ∧
  (∀ (s : State) (ra rb : Reg), s.config.readings.shiftMod32 = false →
    encode OpcodeMap.default (.lsfRegReg ra rb) = [0x27, ra.selector, rb.selector] ∧
    encode OpcodeMap.default (.rsfRegReg ra rb) = [0x2B, ra.selector, rb.selector] ∧
    (∃ t, exec (.lsfRegReg ra rb) s = .next t ∧
      (t.reg ra).toNat = (if (s.reg rb).toNat ≤ 15 then (s.reg ra).toNat * 2 ^ (s.reg rb).toNat % 65536 else 0) ∧
      OnlyRegsChanged [ra] s t) ∧
    (∃ t, exec (.rsfRegReg ra rb) s = .next t ∧
      (t.reg ra).toNat = (if (s.reg rb).toNat ≤ 15 then (s.reg ra).toNat / 2 ^ (s.reg rb).toNat else 0) ∧
      OnlyRegsChanged [ra] s t))

/-- AND, OR, XOR with a literal and with a register, and NOT: encoding, `acc` bit by bit, and frame (42_logic_shift.md
R145 to R151). -/
def Obligations.LogicIntoAcc : Prop :=
  OperandFetchFaults .andRegLit ∧ OperandFetchFaults .andRegReg ∧ OperandFetchFaults .orRegLit ∧
  OperandFetchFaults .orRegReg ∧ OperandFetchFaults .xorRegLit ∧ OperandFetchFaults .xorRegReg ∧
  OperandFetchFaults .not ∧
  (∀ (s : State) (r : Reg) (lit : Word),
    encode OpcodeMap.default (.andRegLit r lit) = [0x2E, r.selector, lit.extractLsb' 8 8, lit.extractLsb' 0 8] ∧
    encode OpcodeMap.default (.orRegLit r lit) = [0x30, r.selector, lit.extractLsb' 8 8, lit.extractLsb' 0 8] ∧
    encode OpcodeMap.default (.xorRegLit r lit) = [0x32, r.selector, lit.extractLsb' 8 8, lit.extractLsb' 0 8] ∧
    (∃ t, exec (.andRegLit r lit) s = .next t ∧ OnlyRegsChanged [.acc] s t ∧
      ∀ k, k < 16 → (t.reg .acc).getLsbD k = ((s.reg r).getLsbD k && lit.getLsbD k)) ∧
    (∃ t, exec (.orRegLit r lit) s = .next t ∧ OnlyRegsChanged [.acc] s t ∧
      ∀ k, k < 16 → (t.reg .acc).getLsbD k = ((s.reg r).getLsbD k || lit.getLsbD k)) ∧
    (∃ t, exec (.xorRegLit r lit) s = .next t ∧ OnlyRegsChanged [.acc] s t ∧
      ∀ k, k < 16 → (t.reg .acc).getLsbD k = ((s.reg r).getLsbD k ^^ lit.getLsbD k))) ∧
  (∀ (s : State) (ra rb : Reg),
    encode OpcodeMap.default (.andRegReg ra rb) = [0x2F, ra.selector, rb.selector] ∧
    encode OpcodeMap.default (.orRegReg ra rb) = [0x31, ra.selector, rb.selector] ∧
    encode OpcodeMap.default (.xorRegReg ra rb) = [0x33, ra.selector, rb.selector] ∧
    (∃ t, exec (.andRegReg ra rb) s = .next t ∧ OnlyRegsChanged [.acc] s t ∧
      ∀ k, k < 16 → (t.reg .acc).getLsbD k = ((s.reg ra).getLsbD k && (s.reg rb).getLsbD k)) ∧
    (∃ t, exec (.orRegReg ra rb) s = .next t ∧ OnlyRegsChanged [.acc] s t ∧
      ∀ k, k < 16 → (t.reg .acc).getLsbD k = ((s.reg ra).getLsbD k || (s.reg rb).getLsbD k)) ∧
    (∃ t, exec (.xorRegReg ra rb) s = .next t ∧ OnlyRegsChanged [.acc] s t ∧
      ∀ k, k < 16 → (t.reg .acc).getLsbD k = ((s.reg ra).getLsbD k ^^ (s.reg rb).getLsbD k))) ∧
  (∀ (s : State) (r : Reg),
    encode OpcodeMap.default (.not r) = [0x34, r.selector] ∧
    ∃ t, exec (.not r) s = .next t ∧ OnlyRegsChanged [.acc] s t ∧
      ∀ k, k < 16 → (t.reg .acc).getLsbD k = !(s.reg r).getLsbD k)

/-! ## Conditional jumps -/

/-- The six jumps with a literal operand: encoding; `ip` is the target if `lit OP acc`, unsigned, and otherwise as it
was; frame (43_control.md R161, R163, R165, R167, R169, R171). -/
def Obligations.JumpsComparingLiteral : Prop :=
  OperandFetchFaults .jneLit ∧ OperandFetchFaults .jeqLit ∧ OperandFetchFaults .jltLit ∧ OperandFetchFaults .jgtLit ∧
  OperandFetchFaults .jleLit ∧ OperandFetchFaults .jgeLit ∧
  ∀ (s : State) (lit t : Word), s.config.readings.jumpOperandOnLeft = true →
    (encode OpcodeMap.default (.jneLit lit t) =
        [0x15, lit.extractLsb' 8 8, lit.extractLsb' 0 8, t.extractLsb' 8 8, t.extractLsb' 0 8] ∧
      encode OpcodeMap.default (.jeqLit lit t) =
        [0x41, lit.extractLsb' 8 8, lit.extractLsb' 0 8, t.extractLsb' 8 8, t.extractLsb' 0 8] ∧
      encode OpcodeMap.default (.jltLit lit t) =
        [0x43, lit.extractLsb' 8 8, lit.extractLsb' 0 8, t.extractLsb' 8 8, t.extractLsb' 0 8] ∧
      encode OpcodeMap.default (.jgtLit lit t) =
        [0x45, lit.extractLsb' 8 8, lit.extractLsb' 0 8, t.extractLsb' 8 8, t.extractLsb' 0 8] ∧
      encode OpcodeMap.default (.jleLit lit t) =
        [0x47, lit.extractLsb' 8 8, lit.extractLsb' 0 8, t.extractLsb' 8 8, t.extractLsb' 0 8] ∧
      encode OpcodeMap.default (.jgeLit lit t) =
        [0x49, lit.extractLsb' 8 8, lit.extractLsb' 0 8, t.extractLsb' 8 8, t.extractLsb' 0 8]) ∧
    (∃ u, exec (.jneLit lit t) s = .next u ∧ OnlyRegsChanged [.ip] s u ∧
      u.reg .ip = if lit.toNat ≠ (s.reg .acc).toNat then t else s.reg .ip) ∧
    (∃ u, exec (.jeqLit lit t) s = .next u ∧ OnlyRegsChanged [.ip] s u ∧
      u.reg .ip = if lit.toNat = (s.reg .acc).toNat then t else s.reg .ip) ∧
    (∃ u, exec (.jltLit lit t) s = .next u ∧ OnlyRegsChanged [.ip] s u ∧
      u.reg .ip = if lit.toNat < (s.reg .acc).toNat then t else s.reg .ip) ∧
    (∃ u, exec (.jgtLit lit t) s = .next u ∧ OnlyRegsChanged [.ip] s u ∧
      u.reg .ip = if lit.toNat > (s.reg .acc).toNat then t else s.reg .ip) ∧
    (∃ u, exec (.jleLit lit t) s = .next u ∧ OnlyRegsChanged [.ip] s u ∧
      u.reg .ip = if lit.toNat ≤ (s.reg .acc).toNat then t else s.reg .ip) ∧
    (∃ u, exec (.jgeLit lit t) s = .next u ∧ OnlyRegsChanged [.ip] s u ∧
      u.reg .ip = if lit.toNat ≥ (s.reg .acc).toNat then t else s.reg .ip)

/-- The six jumps with a register operand: encoding; `ip` is the target if `x[r] OP acc`, unsigned, and otherwise as
it was; frame (43_control.md R162, R164, R166, R168, R170, R172). -/
def Obligations.JumpsComparingRegister : Prop :=
  OperandFetchFaults .jneReg ∧ OperandFetchFaults .jeqReg ∧ OperandFetchFaults .jltReg ∧ OperandFetchFaults .jgtReg ∧
  OperandFetchFaults .jleReg ∧ OperandFetchFaults .jgeReg ∧
  ∀ (s : State) (r : Reg) (t : Word), s.config.readings.jumpOperandOnLeft = true →
    (encode OpcodeMap.default (.jneReg r t) = [0x40, r.selector, t.extractLsb' 8 8, t.extractLsb' 0 8] ∧
      encode OpcodeMap.default (.jeqReg r t) = [0x3E, r.selector, t.extractLsb' 8 8, t.extractLsb' 0 8] ∧
      encode OpcodeMap.default (.jltReg r t) = [0x42, r.selector, t.extractLsb' 8 8, t.extractLsb' 0 8] ∧
      encode OpcodeMap.default (.jgtReg r t) = [0x44, r.selector, t.extractLsb' 8 8, t.extractLsb' 0 8] ∧
      encode OpcodeMap.default (.jleReg r t) = [0x46, r.selector, t.extractLsb' 8 8, t.extractLsb' 0 8] ∧
      encode OpcodeMap.default (.jgeReg r t) = [0x48, r.selector, t.extractLsb' 8 8, t.extractLsb' 0 8]) ∧
    (∃ u, exec (.jneReg r t) s = .next u ∧ OnlyRegsChanged [.ip] s u ∧
      u.reg .ip = if (s.reg r).toNat ≠ (s.reg .acc).toNat then t else s.reg .ip) ∧
    (∃ u, exec (.jeqReg r t) s = .next u ∧ OnlyRegsChanged [.ip] s u ∧
      u.reg .ip = if (s.reg r).toNat = (s.reg .acc).toNat then t else s.reg .ip) ∧
    (∃ u, exec (.jltReg r t) s = .next u ∧ OnlyRegsChanged [.ip] s u ∧
      u.reg .ip = if (s.reg r).toNat < (s.reg .acc).toNat then t else s.reg .ip) ∧
    (∃ u, exec (.jgtReg r t) s = .next u ∧ OnlyRegsChanged [.ip] s u ∧
      u.reg .ip = if (s.reg r).toNat > (s.reg .acc).toNat then t else s.reg .ip) ∧
    (∃ u, exec (.jleReg r t) s = .next u ∧ OnlyRegsChanged [.ip] s u ∧
      u.reg .ip = if (s.reg r).toNat ≤ (s.reg .acc).toNat then t else s.reg .ip) ∧
    (∃ u, exec (.jgeReg r t) s = .next u ∧ OnlyRegsChanged [.ip] s u ∧
      u.reg .ip = if (s.reg r).toNat ≥ (s.reg .acc).toNat then t else s.reg .ip)

/-- The named alternatives of 92_eei_decisions.md (assumption log, entry 5). With `JUMP_OPERAND_ON_LEFT` = false each
of the twelve jumps compares `acc OP v` (D4). With `SHIFT_MOD32` each of the four shifts takes its amount mod 32 (D6).
With `EA_WRAP16` the indexed address, in bounds and out of bounds, and the vector address are the sums mod 2^16 (D7; the
statements about INT have both readings). `POPSTATE_SFS_ADJUST` is what RET and RET_INT take from the popped frame size
(D9). -/
def Obligations.AlternativeReadingsAreTheNamedOnes : Prop :=
  (∀ (s : State) (i : Instr) (v t : Word), s.config.readings.jumpOperandOnLeft = false →
    ((i = .jneLit v t ∨ ∃ r, i = .jneReg r t ∧ v = s.reg r) → ∃ u, exec i s = .next u ∧ OnlyRegsChanged [.ip] s u ∧
      u.reg .ip = if (s.reg .acc).toNat ≠ v.toNat then t else s.reg .ip) ∧
    ((i = .jeqLit v t ∨ ∃ r, i = .jeqReg r t ∧ v = s.reg r) → ∃ u, exec i s = .next u ∧ OnlyRegsChanged [.ip] s u ∧
      u.reg .ip = if (s.reg .acc).toNat = v.toNat then t else s.reg .ip) ∧
    ((i = .jltLit v t ∨ ∃ r, i = .jltReg r t ∧ v = s.reg r) → ∃ u, exec i s = .next u ∧ OnlyRegsChanged [.ip] s u ∧
      u.reg .ip = if (s.reg .acc).toNat < v.toNat then t else s.reg .ip) ∧
    ((i = .jgtLit v t ∨ ∃ r, i = .jgtReg r t ∧ v = s.reg r) → ∃ u, exec i s = .next u ∧ OnlyRegsChanged [.ip] s u ∧
      u.reg .ip = if (s.reg .acc).toNat > v.toNat then t else s.reg .ip) ∧
    ((i = .jleLit v t ∨ ∃ r, i = .jleReg r t ∧ v = s.reg r) → ∃ u, exec i s = .next u ∧ OnlyRegsChanged [.ip] s u ∧
      u.reg .ip = if (s.reg .acc).toNat ≤ v.toNat then t else s.reg .ip) ∧
    ((i = .jgeLit v t ∨ ∃ r, i = .jgeReg r t ∧ v = s.reg r) → ∃ u, exec i s = .next u ∧ OnlyRegsChanged [.ip] s u ∧
      u.reg .ip = if (s.reg .acc).toNat ≥ v.toNat then t else s.reg .ip)) ∧
  (∀ (s : State) (i : Instr) (r : Reg) (amount : Nat), s.config.readings.shiftMod32 = true →
    (((∃ b, i = .lsfRegLit r b ∧ amount = b.toNat) ∨ ∃ rb, i = .lsfRegReg r rb ∧ amount = (s.reg rb).toNat) →
      ∃ t, exec i s = .next t ∧ OnlyRegsChanged [r] s t ∧
        (t.reg r).toNat = if amount % 32 ≤ 15 then (s.reg r).toNat * 2 ^ (amount % 32) % 65536 else 0) ∧
    (((∃ b, i = .rsfRegLit r b ∧ amount = b.toNat) ∨ ∃ rb, i = .rsfRegReg r rb ∧ amount = (s.reg rb).toNat) →
      ∃ t, exec i s = .next t ∧ OnlyRegsChanged [r] s t ∧
        (t.reg r).toNat = if amount % 32 ≤ 15 then (s.reg r).toNat / 2 ^ (amount % 32) else 0)) ∧
  (∀ (s : State) (base : Word) (ri rd : Reg), s.config.readings.eaWrap16 = true →
    ((base + s.reg ri).toNat + 1 < s.config.memSize → ∃ t, exec (.movLitOffReg base ri rd) s = .next t ∧
      t.reg rd = wordAt s (base + s.reg ri).toNat ∧ OnlyRegsChanged [rd] s t) ∧
    (s.config.memSize ≤ (base + s.reg ri).toNat + 1 →
      exec (.movLitOffReg base ri rd) s = .fault (s.raise (.outOfBounds (base + s.reg ri).toNat 2)))) ∧
  (∀ (c : Config) (v : Nat), c.readings.eaWrap16 = true →
    vectorAddress c v = (c.ivtBase.toNat + 2 * v) % 65536) ∧
  (∀ (s t : State) (i : Instr), i = .ret ∨ i = .retInt → exec i s = .next t →
    t.sfs = wordAt s (slotAbove (s.reg .fp) 0).toNat - s.config.readings.popStateSfsAdjust - 20 -
      2 * wordAt s (slotAbove (s.reg .fp) 10).toNat)

/-! ## The stack -/

/-- `push(v)` and `pop()` in and out of bounds, and that a pop gives back what was pushed (44_stack_call.md R180,
R181). -/
def Obligations.PushAndPopPrimitives : Prop :=
  ∀ s : State,
    (slotInBounds s (s.reg .sp) → ∀ v, ∃ t, push v s = .ok () t ∧
      t.reg .sp = s.reg .sp - 2 ∧ t.sfs = s.sfs + 2 ∧ wordAt t (s.reg .sp).toNat = v ∧
      SameMemoryOutsideWord (s.reg .sp).toNat s t ∧ SameRegsBut [.sp] s t ∧ t.inHandler = s.inHandler ∧
      SameEngine s t ∧
      ∃ u, pop t = .ok v u ∧ (∀ r, u.reg r = s.reg r) ∧ u.sfs = s.sfs ∧ u.mem = t.mem) ∧
    (¬ slotInBounds s (s.reg .sp) → ∀ v, push v s = .raised (s.raise (.outOfBounds (s.reg .sp).toNat 2))) ∧
    (slotInBounds s (s.reg .sp + 2) → ∃ t, pop s = .ok (wordAt s (s.reg .sp + 2).toNat) t ∧
      t.reg .sp = s.reg .sp + 2 ∧ t.sfs = s.sfs - 2 ∧ SameMemory s t ∧ SameRegsBut [.sp] s t ∧
      t.inHandler = s.inHandler ∧ SameEngine s t) ∧
    (¬ slotInBounds s (s.reg .sp + 2) → ∃ t, pop s = .raised (t.raise (.outOfBounds (s.reg .sp + 2).toNat 2)) ∧
      t.reg .sp = s.reg .sp + 2 ∧ t.sfs = s.sfs - 2 ∧ SameMemory s t ∧ SameRegsBut [.sp] s t ∧
      t.inHandler = s.inHandler ∧ SameEngine s t)

/-- PSH_LIT and PSH_REG: encoding; the value pushed is read before `sp` changes; frame; the fault when the slot is
outside memory (44_stack_call.md R186, R187). -/
def Obligations.PushInstructions : Prop :=
  OperandFetchFaults .pshLit ∧ OperandFetchFaults .pshReg ∧
  (∀ (s : State) (lit : Word),
    encode OpcodeMap.default (.pshLit lit) = [0x17, lit.extractLsb' 8 8, lit.extractLsb' 0 8] ∧
    (slotInBounds s (s.reg .sp) → ∃ t, exec (.pshLit lit) s = .next t ∧
      wordAt t (s.reg .sp).toNat = lit ∧ t.reg .sp = s.reg .sp - 2 ∧ t.sfs = s.sfs + 2 ∧
      SameMemoryOutsideWord (s.reg .sp).toNat s t ∧ SameRegsBut [.sp] s t ∧ t.inHandler = s.inHandler ∧
      SameEngine s t) ∧
    (¬ slotInBounds s (s.reg .sp) →
      exec (.pshLit lit) s = .fault (s.raise (.outOfBounds (s.reg .sp).toNat 2)))) ∧
  (∀ (s : State) (r : Reg),
    encode OpcodeMap.default (.pshReg r) = [0x18, r.selector] ∧
    (slotInBounds s (s.reg .sp) → ∃ t, exec (.pshReg r) s = .next t ∧
      wordAt t (s.reg .sp).toNat = s.reg r ∧ t.reg .sp = s.reg .sp - 2 ∧ t.sfs = s.sfs + 2 ∧
      SameMemoryOutsideWord (s.reg .sp).toNat s t ∧ SameRegsBut [.sp] s t ∧ t.inHandler = s.inHandler ∧
      SameEngine s t) ∧
    (¬ slotInBounds s (s.reg .sp) →
      exec (.pshReg r) s = .fault (s.raise (.outOfBounds (s.reg .sp).toNat 2))))

/-- POP: encoding; the top word into the destination, which may be `sp` itself; frame; the fault when that word lies
outside memory (44_stack_call.md R188). -/
def Obligations.PopInstruction : Prop :=
  OperandFetchFaults .pop ∧
  ∀ (s : State) (rd : Reg),
    encode OpcodeMap.default (.pop rd) = [0x1A, rd.selector] ∧
    (slotInBounds s (s.reg .sp + 2) → ∃ t, exec (.pop rd) s = .next t ∧
      t.reg rd = wordAt s (s.reg .sp + 2).toNat ∧ (rd ≠ .sp → t.reg .sp = s.reg .sp + 2) ∧ t.sfs = s.sfs - 2 ∧
      SameMemory s t ∧ SameRegsBut [rd, .sp] s t ∧ t.inHandler = s.inHandler ∧ SameEngine s t) ∧
    (¬ slotInBounds s (s.reg .sp + 2) →
      ∃ final, exec (.pop rd) s = .fault (.outOfBounds (s.reg .sp + 2).toNat 2 final) ∧
        final.reg .sp = s.reg .sp + 2 ∧ final.sfs = s.sfs - 2 ∧ SameMemory s final ∧ SameRegsBut [.sp] s final)

/-- CAL_LIT and CAL_REG with room for the frame: encoding; the ten words at the ten slots below `sp`; `sp`, `fp`,
`sfs` and `ip`; frame. The target of CAL_REG is the register's value before the save (44_stack_call.md R182, R189,
R190). -/
def Obligations.CallsSaveTheFrame : Prop :=
  ∀ (s : State) (a : Word) (r : Reg),
    encode OpcodeMap.default (.calLit a) = [0x5E, a.extractLsb' 8 8, a.extractLsb' 0 8] ∧
    encode OpcodeMap.default (.calReg r) = [0x5F, r.selector] ∧
    (roomForPushes s 10 →
      ∀ i target, (i = .calLit a ∧ target = a) ∨ (i = .calReg r ∧ target = s.reg r) →
      ∃ t, exec i s = .next t ∧
        wordAt t (slotBelow (s.reg .sp) 0).toNat = s.reg .r1 ∧ wordAt t (slotBelow (s.reg .sp) 1).toNat = s.reg .r2 ∧
        wordAt t (slotBelow (s.reg .sp) 2).toNat = s.reg .r3 ∧ wordAt t (slotBelow (s.reg .sp) 3).toNat = s.reg .r4 ∧
        wordAt t (slotBelow (s.reg .sp) 4).toNat = s.reg .r5 ∧ wordAt t (slotBelow (s.reg .sp) 5).toNat = s.reg .r6 ∧
        wordAt t (slotBelow (s.reg .sp) 6).toNat = s.reg .r7 ∧ wordAt t (slotBelow (s.reg .sp) 7).toNat = s.reg .r8 ∧
        wordAt t (slotBelow (s.reg .sp) 8).toNat = s.reg .ip ∧ wordAt t (slotBelow (s.reg .sp) 9).toNat = s.sfs + 20 ∧
        t.reg .sp = s.reg .sp - 20 ∧ t.reg .fp = s.reg .sp - 20 ∧ t.sfs = 0 ∧ t.reg .ip = target ∧
        SameMemoryOutsidePushes (s.reg .sp) 10 s t ∧ SameRegsBut [.sp, .fp, .ip] s t ∧
        t.inHandler = s.inHandler ∧ SameEngine s t)

/-- A call whose push number `k` fails has done the `k` pushes before it and nothing else (60_exceptions.md R213: a
`pushState` that faults on its fourth push has written three words and moved `sp` by 6). -/
def Obligations.FaultingCallLeavesEarlierPushes : Prop :=
  ∀ (s : State) (a : Word) (r : Reg) (k : Nat), k < 10 → roomForPushes s k →
    ¬ slotInBounds s (slotBelow (s.reg .sp) k) → ∀ i, i = .calLit a ∨ i = .calReg r →
    ∃ final, exec i s = .fault (.outOfBounds (slotBelow (s.reg .sp) k).toNat 2 final) ∧
      final.reg .sp = slotBelow (s.reg .sp) k ∧ final.sfs = s.sfs + BitVec.ofNat 16 (2 * k) ∧
      (∀ j, j < k → wordAt final (slotBelow (s.reg .sp) j).toNat = frameWord s j) ∧
      SameMemoryOutsidePushes (s.reg .sp) k s final ∧ SameRegsBut [.sp] s final ∧ final.inHandler = s.inHandler ∧
      final.config = s.config

/-- RET and RET_INT: encoding; when every word that is popped lies in memory, the restored registers, `sp`, `fp` and
`sfs` are those of the slots above `fp`, with `n` argument words discarded; RET leaves `inHandler`, RET_INT clears it;
when slot `k` is the first popped word outside memory, the fault there (44_stack_call.md R183, R191;
45_interrupt_system.md R201). The value of `sfs` is that of R183's own reading of D9; AlternativeReadingsAreTheNamedOnes
has the other. -/
def Obligations.ReturnsRestoreTheFrame : Prop :=
  ∀ (s : State) (i : Instr) (handler : Bool) (n : Nat),
    (i = .ret ∧ handler = s.inHandler) ∨ (i = .retInt ∧ handler = false) →
    n = (wordAt s (slotAbove (s.reg .fp) 10).toNat).toNat →
    encode OpcodeMap.default .ret = [0x60] ∧ encode OpcodeMap.default .retInt = [0xFC] ∧
    (roomForPops s (s.reg .fp) (11 + n) → ∃ t, exec i s = .next t ∧
      t.reg .ip = wordAt s (slotAbove (s.reg .fp) 1).toNat ∧ t.reg .r8 = wordAt s (slotAbove (s.reg .fp) 2).toNat ∧
      t.reg .r7 = wordAt s (slotAbove (s.reg .fp) 3).toNat ∧ t.reg .r6 = wordAt s (slotAbove (s.reg .fp) 4).toNat ∧
      t.reg .r5 = wordAt s (slotAbove (s.reg .fp) 5).toNat ∧ t.reg .r4 = wordAt s (slotAbove (s.reg .fp) 6).toNat ∧
      t.reg .r3 = wordAt s (slotAbove (s.reg .fp) 7).toNat ∧ t.reg .r2 = wordAt s (slotAbove (s.reg .fp) 8).toNat ∧
      t.reg .r1 = wordAt s (slotAbove (s.reg .fp) 9).toNat ∧
      t.reg .sp = s.reg .fp + 22 + BitVec.ofNat 16 (2 * n) ∧
      t.reg .fp = s.reg .fp + wordAt s (slotAbove (s.reg .fp) 0).toNat ∧
      (s.config.readings.popStateSfsAdjust = 2 →
        t.sfs = wordAt s (slotAbove (s.reg .fp) 0).toNat - 22 - BitVec.ofNat 16 (2 * n)) ∧
      t.reg .acc = s.reg .acc ∧ t.reg .im = s.reg .im ∧ SameMemory s t ∧ t.inHandler = handler ∧ SameEngine s t) ∧
    (∀ k, k < 11 + n → roomForPops s (s.reg .fp) k → ¬ slotInBounds s (slotAbove (s.reg .fp) k) →
      ∃ final, exec i s = .fault (.outOfBounds (slotAbove (s.reg .fp) k).toNat 2 final) ∧
        final.reg .sp = slotAbove (s.reg .fp) k ∧ final.reg .fp = s.reg .fp ∧ final.reg .acc = s.reg .acc ∧
        final.reg .im = s.reg .im ∧ SameMemory s final ∧ final.inHandler = handler)

/-- Call/return invariance: a caller pushes `n` words and then the count word `n`, and calls; if the callee leaves the
frame, the count and the arguments in memory, and `fp`, as they were, its RET gives back `r1` .. `r8`, the return
address, and the `sp`, `fp` and `sfs` of before the pushes; `acc` and `im` are the callee's (44_stack_call.md R193,
with R194's invariant at the start for `fp`; the spec marks both as derived). That `sfs` comes back needs R183's reading
of D9 (assumption log, entry 5). -/
def Obligations.CallReturnInvariance : Prop :=
  ∀ (args : List Word) (s0 s1 s t u : State) (ra : Word) (i : Instr),
    FrameInv s0 → args.length < 65536 →
    pushSeq (args ++ [BitVec.ofNat 16 args.length]) s0 = .ok () s1 →
    s = s1.setReg .ip ra → ((∃ a, i = .calLit a) ∨ ∃ r, i = .calReg r) → exec i s = .next t →
    u.config = t.config → u.reg .fp = t.reg .fp →
    (∀ k, k < 11 + args.length →
      wordAt u (slotAbove (t.reg .fp) k).toNat = wordAt t (slotAbove (t.reg .fp) k).toNat) →
    ∃ v, exec .ret u = .next v ∧
      (∀ r, r ∈ [Reg.r1, .r2, .r3, .r4, .r5, .r6, .r7, .r8] → v.reg r = s0.reg r) ∧ v.reg .ip = ra ∧
      v.reg .sp = s0.reg .sp ∧ v.reg .fp = s0.reg .fp ∧
      (s0.config.readings.popStateSfsAdjust = 2 → v.sfs = s0.sfs) ∧ v.reg .acc = u.reg .acc ∧
      v.reg .im = u.reg .im ∧ SameMemory u v ∧ v.inHandler = u.inHandler

/-! ## Interrupts and system instructions -/

/-- A masked interrupt changes nothing: INT completes with only its bytes consumed, and `IRQ` responds `Masked`
(60_exceptions.md R218). That even a masked `IRQ` counts as the begin of execution is the model's reading of D13
(assumption log, entry 3). -/
def Obligations.MaskedInterruptChangesNothing : Prop :=
  ∀ (s : State) (value : Word), (s.reg .im).getLsbD (value.toNat % 15) = false →
    exec (.int value) s = .next s ∧
    (s.phase ≠ .ended → ∃ t, irq value s = .next t ∧ t.response = .masked ∧ SameRegsBut [] s t ∧ t.mem = s.mem ∧
      SameHidden s t ∧ t.config = s.config)

/-- INT outside a handler, unmasked, with its vector entry in memory and room for the eleven pushes: encoding; the
argument-count placeholder and the frame saved; `inHandler` set; `ip` at the handler; frame (60_exceptions.md R216,
R217; 45_interrupt_system.md R200). The vector address has either reading of D7 (assumption log, entry 5). -/
def Obligations.IntSavesContextAndVectors : Prop :=
  ∀ (s : State) (value : Word) (entry : Nat), VectorEntryAt s.config value entry → s.inHandler = false →
    (s.reg .im).getLsbD (value.toNat % 15) = true → entry + 1 < s.config.memSize → roomForPushes s 11 →
    encode OpcodeMap.default (.int value) = [0xFD, value.extractLsb' 8 8, value.extractLsb' 0 8] ∧
    ∃ t, exec (.int value) s = .next t ∧
      wordAt t (slotBelow (s.reg .sp) 0).toNat = 0 ∧
      wordAt t (slotBelow (s.reg .sp) 1).toNat = s.reg .r1 ∧ wordAt t (slotBelow (s.reg .sp) 2).toNat = s.reg .r2 ∧
      wordAt t (slotBelow (s.reg .sp) 3).toNat = s.reg .r3 ∧ wordAt t (slotBelow (s.reg .sp) 4).toNat = s.reg .r4 ∧
      wordAt t (slotBelow (s.reg .sp) 5).toNat = s.reg .r5 ∧ wordAt t (slotBelow (s.reg .sp) 6).toNat = s.reg .r6 ∧
      wordAt t (slotBelow (s.reg .sp) 7).toNat = s.reg .r7 ∧ wordAt t (slotBelow (s.reg .sp) 8).toNat = s.reg .r8 ∧
      wordAt t (slotBelow (s.reg .sp) 9).toNat = s.reg .ip ∧ wordAt t (slotBelow (s.reg .sp) 10).toNat = s.sfs + 22 ∧
      t.reg .ip = wordAt s entry ∧
      t.reg .sp = s.reg .sp - 22 ∧ t.reg .fp = s.reg .sp - 22 ∧ t.sfs = 0 ∧ t.inHandler = true ∧
      SameMemoryOutsidePushes (s.reg .sp) 11 s t ∧ SameRegsBut [.sp, .fp, .ip] s t ∧ SameEngine s t

/-- INT inside a handler, unmasked, with its vector entry in memory: nothing is pushed, and only `ip` changes
(60_exceptions.md R219). The vector address has either reading of D7 (assumption log, entry 5). -/
def Obligations.NestedIntOnlyRedirects : Prop :=
  ∀ (s : State) (value : Word) (entry : Nat), VectorEntryAt s.config value entry → s.inHandler = true →
    (s.reg .im).getLsbD (value.toNat % 15) = true → entry + 1 < s.config.memSize →
    ∃ t, exec (.int value) s = .next t ∧ t.reg .ip = wordAt s entry ∧ OnlyRegsChanged [.ip] s t

/-- Where an unmasked INT faults: its vector entry outside memory, with nothing pushed and nothing changed; or a push
of the context save outside memory, with the words pushed before it (0, then `r1` .. `r8`, then `ip`) in their slots
(45_interrupt_system.md R200, 60_exceptions.md R217). -/
def Obligations.IntFaultsBeforeOrDuringTheSave : Prop :=
  ∀ (s : State) (value : Word) (entry : Nat), VectorEntryAt s.config value entry →
    (s.reg .im).getLsbD (value.toNat % 15) = true →
    (s.config.memSize ≤ entry + 1 → exec (.int value) s = .fault (s.raise (.outOfBounds entry 2))) ∧
    (entry + 1 < s.config.memSize → s.inHandler = false →
      ∀ k, k < 11 → roomForPushes s k → ¬ slotInBounds s (slotBelow (s.reg .sp) k) →
      ∃ final, exec (.int value) s = .fault (.outOfBounds (slotBelow (s.reg .sp) k).toNat 2 final) ∧
        final.reg .sp = slotBelow (s.reg .sp) k ∧ final.sfs = s.sfs + BitVec.ofNat 16 (2 * k) ∧
        (∀ j, j < k → wordAt final (slotBelow (s.reg .sp) j).toNat = ((0 : Word) :: frameRegs.map s.reg).getD j 0) ∧
        SameMemoryOutsidePushes (s.reg .sp) k s final ∧ SameRegsBut [.sp] s final ∧ final.inHandler = false ∧
        final.config = s.config)

/-- `IRQ` takes an interrupt exactly as INT does at the same state, but for the response, and faults where it faults
(60_exceptions.md R215, R217). -/
def Obligations.IrqDeliversAsIntDoes : Prop :=
  ∀ (s : State) (value : Word), s.phase ≠ .ended →
    (∀ t, exec (.int value) s.start = .next t → irq value s = .next (t.setResponse
      (if (s.reg .im).getLsbD (value.toNat % 15) = true then .delivered else .masked))) ∧
    (∀ f, exec (.int value) s.start = .fault f → irq value s = .fault f)

/-- Interrupt round trip: an interrupt delivered outside a handler, by INT or by `IRQ`, then a handler that leaves the
frame memory and `fp` as delivery left them and executes RET_INT: the interrupted program resumes at the saved `ip`
with `r1` .. `r8`, `sp`, `fp` and `sfs` as before; `acc` and `im` are the handler's (60_exceptions.md R221, with
R194's invariant at the start for `fp`; the spec marks both as derived). That `sfs` comes back needs R183's reading of
D9 (assumption log, entry 5). -/
def Obligations.InterruptRoundTrip : Prop :=
  ∀ (s t u : State) (value : Word), FrameInv s → s.inHandler = false →
    (s.reg .im).getLsbD (value.toNat % 15) = true →
    (exec (.int value) s = .next t ∨ irq value s = .next t) →
    u.config = t.config → u.reg .fp = t.reg .fp →
    (∀ k, k < 11 → wordAt u (slotAbove (t.reg .fp) k).toNat = wordAt t (slotAbove (t.reg .fp) k).toNat) →
    ∃ v, exec .retInt u = .next v ∧
      (∀ r, r ∈ [Reg.r1, .r2, .r3, .r4, .r5, .r6, .r7, .r8, .ip, .sp, .fp] → v.reg r = s.reg r) ∧
      (s.config.readings.popStateSfsAdjust = 2 → v.sfs = s.sfs) ∧ v.inHandler = false ∧ v.reg .acc = u.reg .acc ∧
      v.reg .im = u.reg .im ∧ SameMemory u v

/-- HLT: encoding; the response is `Halted` and no register, memory or hidden state is written (45_interrupt_system.md
R202). -/
def Obligations.HaltOnlyResponds : Prop :=
  encode OpcodeMap.default .hlt = [0xFF] ∧
  ∀ s : State, ∃ t, exec .hlt s = .next t ∧ t.response = .halted ∧ SameRegsBut [] s t ∧ SameMemory s t ∧
    SameHidden s t ∧ t.config = s.config ∧ t.phase = s.phase

/-! ## Ports -/

/-- `LOAD` before execution, inside memory: byte `i` goes to `addr + i`, nothing else changes; once a `STEP`, `IRQ` or
`EXEC` has completed, it is refused (00_scope.md R9). -/
def Obligations.LoadWritesBeforeExecutionOnly : Prop :=
  (∀ (s : State) (addr : Nat) (bytes : List Byte), s.phase = .loading → addr + bytes.length ≤ s.config.memSize →
    ∃ t, transact (.load addr bytes) s = .next t ∧
      (∀ k, k < bytes.length → t.mem.byteAt (addr + k) = bytes.getD k 0) ∧
      (∀ a, a < addr ∨ addr + bytes.length ≤ a → t.mem.byteAt a = s.mem.byteAt a) ∧
      SameRegsBut [] s t ∧ SameHidden s t ∧ SameEngine s t) ∧
  (∀ (s t : State) (tr : Transaction) (addr : Nat) (bytes : List Byte), (∀ a bs, tr ≠ .load a bs) →
    transact tr s = .next t → transact (.load addr bytes) t = .refused .loadAfterStart)

/-- A `LOAD` past the end fails with `OutOfBounds` (00_scope.md R9). That it changes no byte, records the last address
it names with width 1, and ends the run is the model's choice (assumption log, entry 7). -/
def Obligations.LoadPastTheEndFails : Prop :=
  ∀ (s : State) (addr : Nat) (bytes : List Byte), s.phase = .loading → s.config.memSize < addr + bytes.length →
    ∃ final, transact (.load addr bytes) s = .fault (.outOfBounds (addr + bytes.length - 1) 1 final) ∧
      SameMemory s final ∧ SameRegsBut [] s final ∧ SameHidden s final ∧ final.phase = .ended

/-- `EXEC(op)` executes the instruction whose opcode byte is `op` as if `STEP` had just fetched it: it fetches the
operand bytes at `ip`, a `STEP` whose opcode byte is `op` does what `EXEC(op)` does from the address after it, and an
operand fetch that runs past the end of memory faults at the first field outside it (00_scope.md R10). -/
def Obligations.ExecPortRunsAsIfFetched : Prop :=
  (∀ (s : State) (op : Byte) (bytes : List Byte) (i : Instr),
    s.phase ≠ .ended → s.config.memSize ≤ 65536 → codeAt s (s.reg .ip) bytes →
    decode s.config.opcodeMap (op :: bytes) = .ok (i, []) →
    fieldsReadable s (s.reg .ip) i.mnemonic.format.fields →
    execOpcode op s = exec i (s.start.setReg .ip (s.reg .ip + BitVec.ofNat 16 i.mnemonic.operandBytes))) ∧
  (∀ (s : State) (op : Byte), s.phase ≠ .ended → (s.reg .ip).toNat < s.config.memSize →
    s.mem.byteAt (s.reg .ip).toNat = op → (mnemonicOf s.config.opcodeMap op).isSome = true →
    step s = execOpcode op (s.setReg .ip (s.reg .ip + 1))) ∧
  (∀ (s : State) (op : Byte) (m : Mnemonic), s.phase ≠ .ended → mnemonicOf s.config.opcodeMap op = some m →
    ¬ fieldsReadable s (s.reg .ip) m.format.fields →
    FaultsAtFirstUnreadable s (s.reg .ip) m.format.fields (execOpcode op s))

/-- `DEBUG` reads every register, and every byte of a window that lies in memory, in any phase (00_scope.md R12). What
it shows of a window that leaves memory is the model's choice and not stated (assumption log, entry 8). -/
def Obligations.DebugReadsRegistersAndMemory : Prop :=
  ∀ s : State, (∀ r, debugReg r s = s.reg r) ∧
    ∀ addr n, addr + n ≤ s.config.memSize →
      (debugMem addr n s).length = n ∧ ∀ k, k < n → (debugMem addr n s).getD k 0 = s.mem.byteAt (addr + k)
end

