-- ==== Sys2Proof/Laws/Encoding.lean ====
section
/-! SUPPORT. The small lemmas of the encoding: bytes of a word, selectors, the opcode map. -/

namespace Sys2Proof

@[simp] theorem joinBytes_high_low (v : Word) : joinBytes (highByte v) (lowByte v) = v := by
  unfold joinBytes highByte lowByte
  ext i hi
  simp only [BitVec.getElem_append, BitVec.getElem_extractLsb', Nat.zero_add]
  split
  · simp [BitVec.getLsbD_eq_getElem hi]
  · rename_i h
    rw [show 8 + (i - 8) = i by omega, BitVec.getLsbD_eq_getElem hi]

@[simp] theorem highByte_joinBytes (hi lo : Byte) : highByte (joinBytes hi lo) = hi := by
  unfold joinBytes highByte
  ext i h
  simp only [BitVec.getElem_extractLsb', BitVec.getLsbD_append]
  rw [if_neg (by omega), show 8 + i - 8 = i by omega, BitVec.getLsbD_eq_getElem h]

@[simp] theorem lowByte_joinBytes (hi lo : Byte) : lowByte (joinBytes hi lo) = lo := by
  unfold joinBytes lowByte
  ext i h
  simp only [BitVec.getElem_extractLsb', BitVec.getLsbD_append, Nat.zero_add]
  rw [if_pos h, BitVec.getLsbD_eq_getElem h]

@[simp] theorem Reg.ofSelector_selector (r : Reg) : Reg.ofSelector r.selector = r := by
  cases r <;> rfl

/-- A selector byte names the register whose index is the byte mod 13. -/
theorem Reg.index_ofSelector (b : Byte) : (Reg.ofSelector b).index = b.toNat % 13 := by
  have h : b.toNat % 13 < 13 := Nat.mod_lt _ (by decide)
  unfold Reg.ofSelector
  generalize b.toNat % 13 = k at h ⊢
  interval_cases k <;> rfl

@[simp] theorem Instr.mnemonic_assemble (m : Mnemonic) (b1 b2 b3 b4 : Byte) :
    (Instr.assemble m b1 b2 b3 b4).mnemonic = m := by
  cases m <;> rfl

@[simp] theorem Instr.mnemonic_ofBytes (m : Mnemonic) (bs : List Byte) : (Instr.ofBytes m bs).mnemonic = m :=
  Instr.mnemonic_assemble m _ _ _ _

/-- A byte that the map knows is the byte of the mnemonic found, where no byte has two rows. -/
theorem opcodeOf_of_mnemonicOf {map : OpcodeMap} {op : Byte} {m : Mnemonic}
    (hm : (map.map Prod.snd).Nodup) (h : mnemonicOf map op = some m) : opcodeOf map m = op := by
  induction map with
  | nil => simp [mnemonicOf] at h
  | cons row rows ih =>
    obtain ⟨b, m'⟩ := row
    simp only [List.map_cons, List.nodup_cons, List.mem_map, not_exists, not_and] at hm
    unfold mnemonicOf at h
    unfold opcodeOf
    split at h
    · simp_all
    · have hne : m' ≠ m := by
        rintro rfl
        have : ∀ (l : OpcodeMap), mnemonicOf l op = some m' → ∃ x ∈ l, x.2 = m' := by
          intro l hl
          induction l with
          | nil => simp [mnemonicOf] at hl
          | cons r rs ih' =>
            obtain ⟨c, n⟩ := r
            unfold mnemonicOf at hl
            split at hl
            · exact ⟨(c, n), by simp, by simpa using hl⟩
            · obtain ⟨x, hx, e⟩ := ih' hl
              exact ⟨x, List.mem_cons_of_mem _ hx, e⟩
        obtain ⟨x, hx, e⟩ := this rows h
        exact hm.1 x hx e
      rw [if_neg hne]
      exact ih hm.2 h

/-- The map finds every mnemonic it has a row for by that mnemonic's byte, where no byte is in two rows. -/
theorem mnemonicOf_opcodeOf {map : OpcodeMap} {m : Mnemonic}
    (hb : (map.map Prod.fst).Nodup) (hm : m ∈ map.map Prod.snd) : mnemonicOf map (opcodeOf map m) = some m := by
  induction map with
  | nil => simp at hm
  | cons row rows ih =>
    obtain ⟨b, m'⟩ := row
    simp only [List.map_cons, List.nodup_cons] at hb
    unfold opcodeOf
    by_cases e : m' = m
    · simp [e, mnemonicOf]
    · rw [if_neg e]
      have hin : m ∈ rows.map Prod.snd := by
        simp only [List.map_cons, List.mem_cons] at hm
        exact hm.resolve_left (fun h => e h.symm)
      have hmem : opcodeOf rows m ∈ rows.map Prod.fst := by
        clear ih hb hm e
        induction rows with
        | nil => simp at hin
        | cons r rs ih' =>
          obtain ⟨c, n⟩ := r
          unfold opcodeOf
          by_cases e' : n = m
          · simp [e']
          · simp only [if_neg e', List.map_cons, List.mem_cons]
            simp only [List.map_cons, List.mem_cons] at hin
            exact .inr (ih' (hin.resolve_left (fun h => e' h.symm)))
      have hne : b ≠ opcodeOf rows m := fun h => hb.1 (h ▸ hmem)
      unfold mnemonicOf
      rw [if_neg hne]
      exact ih hb.2 hin

/-- Every mnemonic is in the list of all mnemonics. -/
theorem Mnemonic.mem_all (m : Mnemonic) : m ∈ Mnemonic.all := by
  cases m <;> decide

/-- What a legal opcode map is (00_scope.md R5, 30_encoding.md R81). -/
theorem OpcodeMap.legal_iff (map : OpcodeMap) :
    map.legal = true ↔ map.map Prod.snd = Mnemonic.all ∧ (map.map Prod.fst).Nodup := by
  simp [OpcodeMap.legal, OpcodeMap.total, OpcodeMap.injective]

end Sys2Proof
end

