-- ==== Sys2Proof/Laws/State.lean ====
section
/-! SUPPORT. What each named update of State leaves in each field, so that no later proof unfolds a record update; and
the register file read after a write. -/

namespace Sys2Proof.Machine

/-! ## The register file -/

@[simp] theorem RegFile.get_set (f : RegFile) (r : Reg) (v : Word) (q : Reg) :
    (f.set r v).get q = if q = r then v else f.get q := by
  cases r <;> cases q <;> rfl

theorem RegFile.set_set (f : RegFile) (r : Reg) (v w : Word) : (f.set r v).set r w = f.set r w := by
  cases r <;> rfl

theorem RegFile.set_comm (f : RegFile) (r q : Reg) (v w : Word) (h : r ≠ q) :
    (f.set r v).set q w = (f.set q w).set r v := by
  cases r <;> cases q <;> first | rfl | exact absurd rfl h

theorem RegFile.set_get (f : RegFile) (r : Reg) : f.set r (f.get r) = f := by
  cases r <;> rfl

/-- Two register files that hold the same value in every register are equal. -/
theorem RegFile.ext_get {f g : RegFile} (h : ∀ r, f.get r = g.get r) : f = g := by
  cases f; cases g
  have h' := fun r => h r
  simp only [RegFile.mk.injEq]
  exact ⟨h' .ip, h' .acc, h' .r1, h' .r2, h' .r3, h' .r4, h' .r5, h' .r6, h' .r7, h' .r8, h' .sp, h' .fp, h' .im⟩

@[simp] theorem State.reg_setReg (s : State) (r : Reg) (v : Word) (q : Reg) :
    (s.setReg r v).reg q = if q = r then v else s.reg q := RegFile.get_set s.regs r v q

/-! ## One lemma per field per update -/

@[simp] theorem State.setReg_config (s : State) (r : Reg) (v : Word) : (s.setReg r v).config = s.config := rfl
@[simp] theorem State.setReg_regs (s : State) (r : Reg) (v : Word) : (s.setReg r v).regs = s.regs.set r v := rfl
@[simp] theorem State.setReg_inHandler (s : State) (r : Reg) (v : Word) : (s.setReg r v).inHandler = s.inHandler := rfl
@[simp] theorem State.setReg_sfs (s : State) (r : Reg) (v : Word) : (s.setReg r v).sfs = s.sfs := rfl
@[simp] theorem State.setReg_mem (s : State) (r : Reg) (v : Word) : (s.setReg r v).mem = s.mem := rfl
@[simp] theorem State.setReg_phase (s : State) (r : Reg) (v : Word) : (s.setReg r v).phase = s.phase := rfl
@[simp] theorem State.setReg_response (s : State) (r : Reg) (v : Word) : (s.setReg r v).response = s.response := rfl

@[simp] theorem State.writeExact_config (s : State) (r : Reg) (v : Int) : (s.writeExact r v).config = s.config := rfl
@[simp] theorem State.writeExact_regs (s : State) (r : Reg) (v : Int) : (s.writeExact r v).regs = s.regs.set r (BitVec.ofInt 16 v) := rfl
@[simp] theorem State.writeExact_inHandler (s : State) (r : Reg) (v : Int) : (s.writeExact r v).inHandler = s.inHandler := rfl
@[simp] theorem State.writeExact_sfs (s : State) (r : Reg) (v : Int) : (s.writeExact r v).sfs = s.sfs := rfl
@[simp] theorem State.writeExact_mem (s : State) (r : Reg) (v : Int) : (s.writeExact r v).mem = s.mem := rfl
@[simp] theorem State.writeExact_phase (s : State) (r : Reg) (v : Int) : (s.writeExact r v).phase = s.phase := rfl
@[simp] theorem State.writeExact_response (s : State) (r : Reg) (v : Int) : (s.writeExact r v).response = s.response := rfl

@[simp] theorem State.setSfs_config (s : State) (v : Word) : (s.setSfs v).config = s.config := rfl
@[simp] theorem State.setSfs_regs (s : State) (v : Word) : (s.setSfs v).regs = s.regs := rfl
@[simp] theorem State.setSfs_inHandler (s : State) (v : Word) : (s.setSfs v).inHandler = s.inHandler := rfl
@[simp] theorem State.setSfs_sfs (s : State) (v : Word) : (s.setSfs v).sfs = v := rfl
@[simp] theorem State.setSfs_mem (s : State) (v : Word) : (s.setSfs v).mem = s.mem := rfl
@[simp] theorem State.setSfs_phase (s : State) (v : Word) : (s.setSfs v).phase = s.phase := rfl
@[simp] theorem State.setSfs_response (s : State) (v : Word) : (s.setSfs v).response = s.response := rfl
@[simp] theorem State.reg_setSfs (s : State) (v : Word) (q : Reg) : (s.setSfs v).reg q = s.reg q := rfl

@[simp] theorem State.setInHandler_config (s : State) (b : Bool) : (s.setInHandler b).config = s.config := rfl
@[simp] theorem State.setInHandler_regs (s : State) (b : Bool) : (s.setInHandler b).regs = s.regs := rfl
@[simp] theorem State.setInHandler_inHandler (s : State) (b : Bool) : (s.setInHandler b).inHandler = b := rfl
@[simp] theorem State.setInHandler_sfs (s : State) (b : Bool) : (s.setInHandler b).sfs = s.sfs := rfl
@[simp] theorem State.setInHandler_mem (s : State) (b : Bool) : (s.setInHandler b).mem = s.mem := rfl
@[simp] theorem State.setInHandler_phase (s : State) (b : Bool) : (s.setInHandler b).phase = s.phase := rfl
@[simp] theorem State.setInHandler_response (s : State) (b : Bool) : (s.setInHandler b).response = s.response := rfl
@[simp] theorem State.reg_setInHandler (s : State) (b : Bool) (q : Reg) : (s.setInHandler b).reg q = s.reg q := rfl

@[simp] theorem State.setMem_config (s : State) (m : Memory) : (s.setMem m).config = s.config := rfl
@[simp] theorem State.setMem_regs (s : State) (m : Memory) : (s.setMem m).regs = s.regs := rfl
@[simp] theorem State.setMem_inHandler (s : State) (m : Memory) : (s.setMem m).inHandler = s.inHandler := rfl
@[simp] theorem State.setMem_sfs (s : State) (m : Memory) : (s.setMem m).sfs = s.sfs := rfl
@[simp] theorem State.setMem_mem (s : State) (m : Memory) : (s.setMem m).mem = m := rfl
@[simp] theorem State.setMem_phase (s : State) (m : Memory) : (s.setMem m).phase = s.phase := rfl
@[simp] theorem State.setMem_response (s : State) (m : Memory) : (s.setMem m).response = s.response := rfl
@[simp] theorem State.reg_setMem (s : State) (m : Memory) (q : Reg) : (s.setMem m).reg q = s.reg q := rfl

@[simp] theorem State.setResponse_config (s : State) (r : Response) : (s.setResponse r).config = s.config := rfl
@[simp] theorem State.setResponse_regs (s : State) (r : Response) : (s.setResponse r).regs = s.regs := rfl
@[simp] theorem State.setResponse_inHandler (s : State) (r : Response) : (s.setResponse r).inHandler = s.inHandler := rfl
@[simp] theorem State.setResponse_sfs (s : State) (r : Response) : (s.setResponse r).sfs = s.sfs := rfl
@[simp] theorem State.setResponse_mem (s : State) (r : Response) : (s.setResponse r).mem = s.mem := rfl
@[simp] theorem State.setResponse_phase (s : State) (r : Response) : (s.setResponse r).phase = s.phase := rfl
@[simp] theorem State.setResponse_response (s : State) (r : Response) : (s.setResponse r).response = r := rfl
@[simp] theorem State.reg_setResponse (s : State) (r : Response) (q : Reg) : (s.setResponse r).reg q = s.reg q := rfl

@[simp] theorem State.setPhase_config (s : State) (p : Phase) : (s.setPhase p).config = s.config := rfl
@[simp] theorem State.setPhase_regs (s : State) (p : Phase) : (s.setPhase p).regs = s.regs := rfl
@[simp] theorem State.setPhase_inHandler (s : State) (p : Phase) : (s.setPhase p).inHandler = s.inHandler := rfl
@[simp] theorem State.setPhase_sfs (s : State) (p : Phase) : (s.setPhase p).sfs = s.sfs := rfl
@[simp] theorem State.setPhase_mem (s : State) (p : Phase) : (s.setPhase p).mem = s.mem := rfl
@[simp] theorem State.setPhase_phase (s : State) (p : Phase) : (s.setPhase p).phase = p := rfl
@[simp] theorem State.setPhase_response (s : State) (p : Phase) : (s.setPhase p).response = s.response := rfl
@[simp] theorem State.reg_setPhase (s : State) (p : Phase) (q : Reg) : (s.setPhase p).reg q = s.reg q := rfl

@[simp] theorem State.reg_writeExact (s : State) (r : Reg) (v : Int) (q : Reg) :
    (s.writeExact r v).reg q = if q = r then BitVec.ofInt 16 v else s.reg q := State.reg_setReg s r _ q

@[simp] theorem State.start_config (s : State) : s.start.config = s.config := rfl
@[simp] theorem State.start_regs (s : State) : s.start.regs = s.regs := rfl
@[simp] theorem State.start_inHandler (s : State) : s.start.inHandler = s.inHandler := rfl
@[simp] theorem State.start_sfs (s : State) : s.start.sfs = s.sfs := rfl
@[simp] theorem State.start_mem (s : State) : s.start.mem = s.mem := rfl
@[simp] theorem State.start_phase (s : State) : s.start.phase = .running := rfl
@[simp] theorem State.start_response (s : State) : s.start.response = .running := rfl
@[simp] theorem State.reg_start (s : State) (q : Reg) : s.start.reg q = s.reg q := rfl

/-! ## Faults -/

@[simp] theorem State.raise_info (s : State) (info : FaultInfo) : (s.raise info).info = info := by
  cases info <;> rfl

@[simp] theorem State.raise_final (s : State) (info : FaultInfo) :
    (s.raise info).final = (s.setPhase .ended).setResponse (.fault info) := by
  cases info <;> rfl

/-! ## Sequencing -/

@[simp] theorem Access.bind_ok {α β : Type} (a : α) (s : State) (k : α → State → Access β) :
    (Access.ok a s).bind k = k a s := rfl

@[simp] theorem Access.bind_raised {α β : Type} (f : Fault) (k : α → State → Access β) :
    (Access.raised f : Access α).bind k = .raised f := rfl

@[simp] theorem Access.outcome_ok (u : Unit) (s : State) : (Access.ok u s).outcome = .next s := rfl

@[simp] theorem Access.outcome_raised (f : Fault) : (Access.raised f : Access Unit).outcome = .fault f := rfl

/-- A sequence that completes is one whose first part completes and whose rest completes after it. -/
theorem Access.bind_eq_ok {α β : Type} {x : Access α} {k : α → State → Access β} {b : β} {t : State}
    (h : x.bind k = .ok b t) : ∃ a s, x = .ok a s ∧ k a s = .ok b t := by
  cases x with
  | ok a s => exact ⟨a, s, rfl, h⟩
  | raised f => exact absurd h (by simp)

/-- A sequence that faults is one whose first part faults, or whose rest faults after it. -/
theorem Access.bind_eq_raised {α β : Type} {x : Access α} {k : α → State → Access β} {f : Fault}
    (h : x.bind k = .raised f) : x = .raised f ∨ ∃ a s, x = .ok a s ∧ k a s = .raised f := by
  cases x with
  | ok a s => exact .inr ⟨a, s, rfl, h⟩
  | raised g => exact .inl (by simpa using h)

/-- An instruction completes exactly when its pseudocode does. -/
theorem Access.outcome_eq_next {x : Access Unit} {t : State} (h : x.outcome = .next t) : x = .ok () t := by
  cases x with
  | ok u s => simpa using h
  | raised f => exact absurd h (by simp)

/-- An instruction faults exactly when its pseudocode does. -/
theorem Access.outcome_eq_fault {x : Access Unit} {f : Fault} (h : x.outcome = .fault f) : x = .raised f := by
  cases x with
  | ok u s => exact absurd h (by simp)
  | raised g => simpa using h

end Sys2Proof.Machine
end

