-- ==== Sys2Proof/Laws/Memory.lean ====
section
/-! SUPPORT. Memory: reading after writing, and the canonical form, which every memory operation keeps. -/

namespace Sys2Proof.Machine

@[simp] theorem Memory.byteAt_nil (a : Nat) : Memory.byteAt [] a = 0 := rfl

theorem Memory.byteAt_filter_ne (m : Memory) (a b : Nat) :
    Memory.byteAt (m.filter fun cell => cell.1 != a) b = if b = a then 0 else Memory.byteAt m b := by
  induction m with
  | nil => simp
  | cons cell cells ih =>
    obtain ⟨c, v⟩ := cell
    by_cases hc : c = a
    · subst hc
      simp only [List.filter_cons, bne_self_eq_false, Bool.false_eq_true, if_false, ih, Memory.byteAt]
      by_cases hb : b = c
      · simp [hb]
      · rw [if_neg hb, if_neg hb, if_neg (fun h => hb h.symm)]
    · simp only [List.filter_cons, bne_iff_ne, ne_eq, hc, not_false_eq_true, if_true, Memory.byteAt, ih]
      by_cases hcb : c = b
      · subst hcb; simp [hc]
      · simp [hcb]

theorem Memory.byteAt_insert (m : Memory) (a : Nat) (v : Byte) (b : Nat)
    (h : ∀ cell ∈ m, cell.1 ≠ a) :
    Memory.byteAt (Memory.insert m a v) b = if b = a then v else Memory.byteAt m b := by
  induction m with
  | nil =>
    by_cases hb : a = b
    · simp [Memory.insert, Memory.byteAt, hb]
    · have hb' : b ≠ a := Ne.symm hb
      simp [Memory.insert, Memory.byteAt, hb, hb']
  | cons cell cells ih =>
    obtain ⟨c, w⟩ := cell
    have hca : c ≠ a := h (c, w) (by simp)
    have ih := ih fun cell hcell => h cell (List.mem_cons_of_mem _ hcell)
    unfold Memory.insert
    split
    · by_cases hb : a = b
      · simp [Memory.byteAt, hb]
      · have hb' : b ≠ a := Ne.symm hb
        simp [Memory.byteAt, hb, hb']
    · simp only [Memory.byteAt, ih]
      by_cases hcb : c = b
      · subst hcb; simp [hca]
      · simp [hcb]

/-- Read after write (20_memory.md R53): the written byte reads as written, and every other byte as before. It holds of
every memory, canonical or not. -/
@[simp] theorem Memory.byteAt_writeByte (m : Memory) (a : Nat) (v : Byte) (b : Nat) :
    Memory.byteAt (m.writeByte a v) b = if b = a then v else Memory.byteAt m b := by
  unfold Memory.writeByte
  split
  · rename_i hv
    rw [Memory.byteAt_filter_ne, hv]
  · rw [Memory.byteAt_insert _ _ _ _ (by simp), Memory.byteAt_filter_ne]
    by_cases hb : b = a <;> simp [hb]

/-- Read after writing a sequence of bytes (00_scope.md R9): byte `i` is at `a + i`, and every other byte is as before. -/
theorem Memory.byteAt_writeBytes (bs : List Byte) (m : Memory) (a b : Nat) :
    Memory.byteAt (m.writeBytes a bs) b =
      if a ≤ b ∧ b < a + bs.length then bs.getD (b - a) 0 else Memory.byteAt m b := by
  induction bs generalizing m a with
  | nil => rw [Memory.writeBytes, if_neg (by simp only [List.length_nil]; omega)]
  | cons x xs ih =>
    simp only [Memory.writeBytes, ih, Memory.byteAt_writeByte, List.length_cons]
    by_cases h1 : b = a
    · subst h1; simp
    · by_cases h2 : a + 1 ≤ b ∧ b < a + 1 + xs.length
      · rw [if_pos h2, if_pos (by omega), show b - a = (b - (a + 1)) + 1 by omega]; rfl
      · rw [if_neg h2, if_neg h1, if_neg (by omega)]

/-! ## The canonical form -/

theorem Memory.wf_cons {a : Nat} {v : Byte} {cells : Memory} :
    Memory.wf ((a, v) :: cells) = true ↔ v ≠ 0 ∧ (∀ cell ∈ cells, a < cell.1) ∧ Memory.wf cells = true := by
  simp [Memory.wf, and_assoc]

theorem Memory.wf_filter {m : Memory} (p : Host.Cell → Bool) (h : m.wf = true) :
    Memory.wf (m.filter p) = true := by
  induction m with
  | nil => rfl
  | cons cell cells ih =>
    obtain ⟨c, w⟩ := cell
    obtain ⟨h0, h1, h2⟩ := Memory.wf_cons.1 h
    rw [List.filter_cons]
    split
    · exact Memory.wf_cons.2 ⟨h0, fun cell hc => h1 cell (List.mem_of_mem_filter hc), ih h2⟩
    · exact ih h2

theorem Memory.mem_insert {m : Memory} {a : Nat} {v : Byte} {cell : Host.Cell}
    (h : cell ∈ Memory.insert m a v) : cell = (a, v) ∨ cell ∈ m := by
  induction m with
  | nil => simpa [Memory.insert] using h
  | cons c cells ih =>
    obtain ⟨b, w⟩ := c
    unfold Memory.insert at h
    split at h
    · simpa using h
    · rcases List.mem_cons.1 h with h | h
      · exact .inr (by simp [h])
      · exact (ih h).imp id (List.mem_cons_of_mem _)

theorem Memory.wf_insert {m : Memory} {a : Nat} {v : Byte} (hv : v ≠ 0)
    (ha : ∀ cell ∈ m, cell.1 ≠ a) (h : m.wf = true) : Memory.wf (Memory.insert m a v) = true := by
  induction m with
  | nil => exact Memory.wf_cons.2 ⟨hv, by simp, rfl⟩
  | cons c cells ih =>
    obtain ⟨b, w⟩ := c
    obtain ⟨h0, h1, h2⟩ := Memory.wf_cons.1 h
    have hba : b ≠ a := ha (b, w) (by simp)
    unfold Memory.insert
    split
    · rename_i hab
      refine Memory.wf_cons.2 ⟨hv, fun cell hc => ?_, h⟩
      rcases List.mem_cons.1 hc with hc | hc
      · simpa [hc] using hab
      · exact Nat.lt_trans hab (h1 cell hc)
    · rename_i hab
      refine Memory.wf_cons.2 ⟨h0, fun cell hc => ?_, ih (fun cell hc => ha cell (List.mem_cons_of_mem _ hc)) h2⟩
      rcases Memory.mem_insert hc with hc | hc
      · rw [hc]; show b < a; omega
      · exact h1 cell hc

/-- Writing a byte keeps the canonical form. -/
theorem Memory.wf_writeByte {m : Memory} (a : Nat) (v : Byte) (h : m.wf = true) : (m.writeByte a v).wf = true := by
  unfold Memory.writeByte
  split
  · exact Memory.wf_filter _ h
  · rename_i hv
    exact Memory.wf_insert hv (by simp) (Memory.wf_filter _ h)

/-- Writing a sequence of bytes keeps the canonical form. -/
theorem Memory.wf_writeBytes {m : Memory} (a : Nat) (bs : List Byte) (h : m.wf = true) :
    (m.writeBytes a bs).wf = true := by
  induction bs generalizing m a with
  | nil => exact h
  | cons b bs ih => exact ih (a + 1) (Memory.wf_writeByte a b h)

/-- Two memories in canonical form that read the same everywhere are equal as data. -/
theorem Memory.ext_of_wf {m n : Memory} (hm : m.wf = true) (hn : n.wf = true)
    (h : ∀ a, Memory.byteAt m a = Memory.byteAt n a) : m = n := by
  have read_zero : ∀ (l : Memory) (a : Nat), (∀ cell ∈ l, a < cell.1) → Memory.byteAt l a = 0 := by
    intro l a hl
    induction l with
    | nil => rfl
    | cons c cs ih =>
      obtain ⟨b, w⟩ := c
      have hb : a < b := hl (b, w) (by simp)
      rw [Memory.byteAt, if_neg (by omega)]
      exact ih fun cell hc => hl cell (List.mem_cons_of_mem _ hc)
  induction m generalizing n with
  | nil =>
    cases n with
    | nil => rfl
    | cons c cs =>
      obtain ⟨b, w⟩ := c
      have := h b
      simp only [Memory.byteAt, if_true] at this
      exact absurd this.symm (Memory.wf_cons.1 hn).1
  | cons c cs ih =>
    obtain ⟨a, v⟩ := c
    obtain ⟨hv, ha, hcs⟩ := Memory.wf_cons.1 hm
    cases n with
    | nil =>
      have := h a
      simp only [Memory.byteAt, if_true] at this
      exact absurd this hv
    | cons d ds =>
      obtain ⟨b, w⟩ := d
      obtain ⟨hw, hb, hds⟩ := Memory.wf_cons.1 hn
      have hab : a = b := by
        rcases Nat.lt_trichotomy a b with hlt | heq | hgt
        · have := h a
          rw [read_zero ((b, w) :: ds) a (fun cell hc => by
            rcases List.mem_cons.1 hc with hc | hc
            · simpa [hc] using hlt
            · exact Nat.lt_trans hlt (hb cell hc))] at this
          simp only [Memory.byteAt, if_true] at this
          exact absurd this hv
        · exact heq
        · have := h b
          rw [read_zero ((a, v) :: cs) b (fun cell hc => by
            rcases List.mem_cons.1 hc with hc | hc
            · simpa [hc] using hgt
            · exact Nat.lt_trans hgt (ha cell hc))] at this
          simp only [Memory.byteAt, if_true] at this
          exact absurd this.symm hw
      subst hab
      have hvw : v = w := by
        have := h a
        simpa [Memory.byteAt] using this
      subst hvw
      congr 1
      refine ih hcs hds fun c => ?_
      by_cases hc : c = a
      · subst hc; rw [read_zero cs c ha, read_zero ds c hb]
      · have := h c
        simpa only [Memory.byteAt, if_neg (fun e : a = c => hc e.symm)] using this

/-! ## Addresses inside memory -/

theorem Memory.mem_writeByte {m : Memory} {a : Nat} {v : Byte} {cell : Host.Cell} (h : cell ∈ m.writeByte a v) :
    cell = (a, v) ∨ cell ∈ m := by
  unfold Memory.writeByte at h
  split at h
  · exact .inr (List.mem_of_mem_filter h)
  · exact (Memory.mem_insert h).imp id List.mem_of_mem_filter

theorem Memory.below_writeByte {m : Memory} {a n : Nat} {v : Byte} (ha : a < n)
    (h : ∀ cell ∈ m, cell.1 < n) : ∀ cell ∈ m.writeByte a v, cell.1 < n := by
  intro cell hc
  rcases Memory.mem_writeByte hc with rfl | hc
  · exact ha
  · exact h cell hc

theorem Memory.below_writeBytes {m : Memory} {a n : Nat} {bs : List Byte} (ha : a + bs.length ≤ n)
    (h : ∀ cell ∈ m, cell.1 < n) : ∀ cell ∈ m.writeBytes a bs, cell.1 < n := by
  induction bs generalizing m a with
  | nil => exact h
  | cons b bs ih =>
    simp only [List.length_cons] at ha
    exact ih (by omega) (Memory.below_writeByte (by omega) h)

/-- The state invariant, opened. -/
theorem State.wf_iff (s : State) :
    s.wf = true ↔ s.config.legal = true ∧ s.mem.wf = true ∧ ∀ cell ∈ s.mem, cell.1 < s.config.memSize := by
  simp [State.wf, State.memInside, and_assoc]

end Sys2Proof.Machine
end

