-- ==== Sys2Proof/Laws/Stack.lean ====
section
/-! SUPPORT. What the memory accesses, the stack primitives and the interrupt delivery can do, each said once: in
bounds they complete in a state given outright, and out of bounds they raise at the first access that fails. -/

namespace Sys2Proof.Machine

/-! ## Memory accesses (20_memory.md R52, R53) -/

theorem memRead8_inside {a : Nat} {s : State} (h : a < s.config.memSize) :
    memRead8 a s = .ok (s.mem.byteAt a) s := by
  simp [memRead8, inBounds, h]

theorem memRead8_outside {a : Nat} {s : State} (h : s.config.memSize ≤ a) :
    memRead8 a s = .raised (s.raise (.outOfBounds a 1)) := by
  simp [memRead8, inBounds, Nat.not_lt.2 h]

theorem memRead16_inside {a : Nat} {s : State} (h : a + 1 < s.config.memSize) :
    memRead16 a s = .ok (wordAt s a) s := by
  simp [memRead16, inBounds, h, wordAt]

theorem memRead16_outside {a : Nat} {s : State} (h : s.config.memSize ≤ a + 1) :
    memRead16 a s = .raised (s.raise (.outOfBounds a 2)) := by
  simp [memRead16, inBounds, Nat.not_lt.2 h]

theorem memWrite16_inside {a : Nat} {v : Word} {s : State} (h : a + 1 < s.config.memSize) :
    memWrite16 a v s = .ok () (s.setMem (s.mem.writeWord a v)) := by
  simp [memWrite16, inBounds, h]

theorem memWrite16_outside {a : Nat} {v : Word} {s : State} (h : s.config.memSize ≤ a + 1) :
    memWrite16 a v s = .raised (s.raise (.outOfBounds a 2)) := by
  simp [memWrite16, inBounds, Nat.not_lt.2 h]

/-- A 16-bit read that completes was in bounds, answers the word there and changes nothing. -/
theorem memRead16_ok {a : Nat} {s t : State} {v : Word} (h : memRead16 a s = .ok v t) :
    a + 1 < s.config.memSize ∧ v = wordAt s a ∧ t = s := by
  by_cases hb : a + 1 < s.config.memSize
  · rw [memRead16_inside hb] at h
    injection h with h1 h2
    exact ⟨hb, h1.symm, h2.symm⟩
  · rw [memRead16_outside (Nat.not_lt.1 hb)] at h
    simp at h

/-- An 8-bit read that completes was in bounds, answers the byte there and changes nothing. -/
theorem memRead8_ok {a : Nat} {s t : State} {v : Byte} (h : memRead8 a s = .ok v t) :
    a < s.config.memSize ∧ v = s.mem.byteAt a ∧ t = s := by
  by_cases hb : a < s.config.memSize
  · rw [memRead8_inside hb] at h
    injection h with h1 h2
    exact ⟨hb, h1.symm, h2.symm⟩
  · rw [memRead8_outside (Nat.not_lt.1 hb)] at h
    simp at h

/-- A 16-bit write that completes was in bounds and replaces the two bytes. -/
theorem memWrite16_ok {a : Nat} {v : Word} {s t : State} {u : Unit} (h : memWrite16 a v s = .ok u t) :
    a + 1 < s.config.memSize ∧ t = s.setMem (s.mem.writeWord a v) := by
  by_cases hb : a + 1 < s.config.memSize
  · rw [memWrite16_inside hb] at h
    injection h with _ h2
    exact ⟨hb, h2.symm⟩
  · rw [memWrite16_outside (Nat.not_lt.1 hb)] at h
    simp at h

@[simp] theorem Memory.byteAt_writeWord (m : Memory) (a : Nat) (v : Word) (b : Nat) :
    Memory.byteAt (m.writeWord a v) b =
      if b = a + 1 then lowByte v else if b = a then highByte v else Memory.byteAt m b := by
  simp [Memory.writeWord]

theorem Memory.wf_writeWord {m : Memory} (a : Nat) (v : Word) (h : m.wf = true) : (m.writeWord a v).wf = true :=
  Memory.wf_writeByte _ _ (Memory.wf_writeByte _ _ h)

theorem Memory.below_writeWord {m : Memory} {a n : Nat} {v : Word} (ha : a + 1 < n)
    (h : ∀ cell ∈ m, cell.1 < n) : ∀ cell ∈ m.writeWord a v, cell.1 < n :=
  Memory.below_writeByte ha (Memory.below_writeByte (by omega) h)

/-! ## push and pop (44_stack_call.md R180, R181) -/

/-- The state after `push(v)` in bounds. -/
def pushed (v : Word) (s : State) : State :=
  ((s.setMem (s.mem.writeWord (s.reg .sp).toNat v)).setReg .sp (s.reg .sp - 2)).setSfs (s.sfs + 2)

/-- The state after `pop()` in bounds. -/
def popped (s : State) : State := (s.setReg .sp (s.reg .sp + 2)).setSfs (s.sfs - 2)

@[simp] theorem pushed_config (v : Word) (s : State) : (pushed v s).config = s.config := rfl
@[simp] theorem pushed_inHandler (v : Word) (s : State) : (pushed v s).inHandler = s.inHandler := rfl
@[simp] theorem pushed_sfs (v : Word) (s : State) : (pushed v s).sfs = s.sfs + 2 := rfl
@[simp] theorem pushed_mem (v : Word) (s : State) :
    (pushed v s).mem = s.mem.writeWord (s.reg .sp).toNat v := rfl
@[simp] theorem pushed_phase (v : Word) (s : State) : (pushed v s).phase = s.phase := rfl
@[simp] theorem pushed_response (v : Word) (s : State) : (pushed v s).response = s.response := rfl
@[simp] theorem pushed_reg (v : Word) (s : State) (q : Reg) :
    (pushed v s).reg q = if q = .sp then s.reg .sp - 2 else s.reg q := by simp [pushed]

@[simp] theorem popped_config (s : State) : (popped s).config = s.config := rfl
@[simp] theorem popped_inHandler (s : State) : (popped s).inHandler = s.inHandler := rfl
@[simp] theorem popped_sfs (s : State) : (popped s).sfs = s.sfs - 2 := rfl
@[simp] theorem popped_mem (s : State) : (popped s).mem = s.mem := rfl
@[simp] theorem popped_phase (s : State) : (popped s).phase = s.phase := rfl
@[simp] theorem popped_response (s : State) : (popped s).response = s.response := rfl
@[simp] theorem popped_reg (s : State) (q : Reg) :
    (popped s).reg q = if q = .sp then s.reg .sp + 2 else s.reg q := by simp [popped]

theorem push_inside {v : Word} {s : State} (h : slotInBounds s (s.reg .sp)) : push v s = .ok () (pushed v s) := by
  rw [push, memWrite16_inside h]; rfl

theorem push_outside {v : Word} {s : State} (h : ¬ slotInBounds s (s.reg .sp)) :
    push v s = .raised (s.raise (.outOfBounds (s.reg .sp).toNat 2)) := by
  rw [push, memWrite16_outside (Nat.not_lt.1 h)]; rfl

theorem pop_inside {s : State} (h : slotInBounds s (s.reg .sp + 2)) :
    pop s = .ok (wordAt s (s.reg .sp + 2).toNat) (popped s) := by
  exact memRead16_inside (s := popped s) h

theorem pop_outside {s : State} (h : ¬ slotInBounds s (s.reg .sp + 2)) :
    pop s = .raised ((popped s).raise (.outOfBounds (s.reg .sp + 2).toNat 2)) := by
  exact memRead16_outside (s := popped s) (Nat.not_lt.1 h)

/-- A push that completes was in bounds. -/
theorem push_ok {v : Word} {s t : State} {u : Unit} (h : push v s = .ok u t) :
    slotInBounds s (s.reg .sp) ∧ t = pushed v s := by
  by_cases hb : slotInBounds s (s.reg .sp)
  · rw [push_inside hb] at h
    injection h with _ h2
    exact ⟨hb, h2.symm⟩
  · rw [push_outside hb] at h
    simp at h

/-- A pop that completes was in bounds. -/
theorem pop_ok {s t : State} {v : Word} (h : pop s = .ok v t) :
    slotInBounds s (s.reg .sp + 2) ∧ v = wordAt s (s.reg .sp + 2).toNat ∧ t = popped s := by
  by_cases hb : slotInBounds s (s.reg .sp + 2)
  · rw [pop_inside hb] at h
    injection h with h1 h2
    exact ⟨hb, h1.symm, h2.symm⟩
  · rw [pop_outside hb] at h
    simp at h

/-! ## Sequences of pushes -/

/-- Memory after pushing the words, first to last, from stack pointer `a` down. -/
def pushedMem : Memory → Word → List Word → Memory
  | m, _, [] => m
  | m, a, w :: ws => pushedMem (m.writeWord a.toNat w) (a - 2) ws

theorem pushedMem_append (m : Memory) (a : Word) (ws vs : List Word) :
    pushedMem m a (ws ++ vs) = pushedMem (pushedMem m a ws) (a - BitVec.ofNat 16 (2 * ws.length)) vs := by
  induction ws generalizing m a with
  | nil => simp [pushedMem]
  | cons w ws ih =>
    simp only [List.cons_append, pushedMem, ih, List.length_cons]
    congr 1
    rw [show 2 * (ws.length + 1) = 2 + 2 * ws.length by omega, BitVec.ofNat_add]
    bv_omega

/-- Slots below the top of the stack do not wrap onto each other. -/
theorem slot_sub (a : Word) (k : Nat) :
    a - 2 - BitVec.ofNat 16 (2 * k) = a - BitVec.ofNat 16 (2 * (k + 1)) := by
  rw [show 2 * (k + 1) = 2 + 2 * k by omega, BitVec.ofNat_add]
  bv_omega

/-- A byte outside the slots written reads as before. -/
theorem byteAt_pushedMem_outside (ws : List Word) (m : Memory) (a : Word) (b : Nat)
    (h : ∀ k, k < ws.length →
      b ≠ (a - BitVec.ofNat 16 (2 * k)).toNat ∧ b ≠ (a - BitVec.ofNat 16 (2 * k)).toNat + 1) :
    Memory.byteAt (pushedMem m a ws) b = Memory.byteAt m b := by
  induction ws generalizing m a with
  | nil => rfl
  | cons w ws ih =>
    rw [pushedMem, ih]
    · have := h 0 (by simp)
      simp only [Nat.mul_zero, BitVec.sub_zero] at this
      simp [this]
    · intro k hk
      have := h (k + 1) (by simpa using hk)
      rw [← slot_sub] at this
      exact this

/-- Two different slots of one stack share no byte. -/
theorem slots_disjoint (a : Word) (j : Nat) (hj : 2 * (j + 1) < 65536) :
    a.toNat ≠ (a - 2 - BitVec.ofNat 16 (2 * j)).toNat ∧
    a.toNat ≠ (a - 2 - BitVec.ofNat 16 (2 * j)).toNat + 1 ∧
    a.toNat + 1 ≠ (a - 2 - BitVec.ofNat 16 (2 * j)).toNat ∧
    a.toNat + 1 ≠ (a - 2 - BitVec.ofNat 16 (2 * j)).toNat + 1 := by
  rw [slot_sub]
  simp only [BitVec.toNat_sub, BitVec.toNat_ofNat]
  have := a.isLt
  omega

/-- The two bytes of slot `k` hold the `k`-th word pushed, big-endian. -/
theorem byteAt_pushedMem_slot (ws : List Word) (m : Memory) (a : Word) (k : Nat) (hk : k < ws.length)
    (hl : 2 * ws.length < 65536) :
    Memory.byteAt (pushedMem m a ws) (a - BitVec.ofNat 16 (2 * k)).toNat = highByte (ws.getD k 0) ∧
    Memory.byteAt (pushedMem m a ws) ((a - BitVec.ofNat 16 (2 * k)).toNat + 1) = lowByte (ws.getD k 0) := by
  induction ws generalizing m a k with
  | nil => simp at hk
  | cons w ws ih =>
    rw [pushedMem]
    simp only [List.length_cons] at hk hl
    cases k with
    | zero =>
      simp only [Nat.mul_zero, BitVec.ofNat_eq_ofNat, BitVec.sub_zero, List.getD_cons_zero]
      rw [byteAt_pushedMem_outside, byteAt_pushedMem_outside]
      · simp
      · intro j hj
        have := slots_disjoint a j (by omega)
        exact ⟨this.2.2.1, this.2.2.2⟩
      · intro j hj
        have := slots_disjoint a j (by omega)
        exact ⟨this.1, this.2.1⟩
    | succ k =>
      rw [← slot_sub, List.getD_cons_succ]
      exact ih _ _ k (by omega) (by omega)

theorem wf_pushedMem (ws : List Word) (m : Memory) (a : Word) (h : m.wf = true) : (pushedMem m a ws).wf = true := by
  induction ws generalizing m a with
  | nil => exact h
  | cons w ws ih => exact ih _ _ (Memory.wf_writeWord _ _ h)

/-- The state after pushing words in bounds. -/
def pushedAll (ws : List Word) (s : State) : State :=
  ((s.setMem (pushedMem s.mem (s.reg .sp) ws)).setReg .sp (s.reg .sp - BitVec.ofNat 16 (2 * ws.length))).setSfs
    (s.sfs + BitVec.ofNat 16 (2 * ws.length))

@[simp] theorem pushedAll_config (ws : List Word) (s : State) : (pushedAll ws s).config = s.config := rfl
@[simp] theorem pushedAll_inHandler (ws : List Word) (s : State) : (pushedAll ws s).inHandler = s.inHandler := rfl
@[simp] theorem pushedAll_sfs (ws : List Word) (s : State) :
    (pushedAll ws s).sfs = s.sfs + BitVec.ofNat 16 (2 * ws.length) := rfl
@[simp] theorem pushedAll_mem (ws : List Word) (s : State) :
    (pushedAll ws s).mem = pushedMem s.mem (s.reg .sp) ws := rfl
@[simp] theorem pushedAll_phase (ws : List Word) (s : State) : (pushedAll ws s).phase = s.phase := rfl
@[simp] theorem pushedAll_response (ws : List Word) (s : State) : (pushedAll ws s).response = s.response := rfl
@[simp] theorem pushedAll_reg (ws : List Word) (s : State) (q : Reg) :
    (pushedAll ws s).reg q = if q = .sp then s.reg .sp - BitVec.ofNat 16 (2 * ws.length) else s.reg q := by
  simp [pushedAll]

/-- Two states that agree in every field, register by register, are equal. -/
theorem State.ext_fields {s t : State} (hc : s.config = t.config) (hr : ∀ r, s.reg r = t.reg r)
    (hh : s.inHandler = t.inHandler) (hf : s.sfs = t.sfs) (hm : s.mem = t.mem) (hp : s.phase = t.phase)
    (he : s.response = t.response) : s = t := by
  have := RegFile.ext_get (f := s.regs) (g := t.regs) hr
  cases s; cases t; simp_all

theorem pushedAll_nil (s : State) : pushedAll [] s = s := by
  refine State.ext_fields rfl (fun r => ?_) rfl ?_ rfl rfl rfl
  · by_cases h : r = .sp <;> simp [h]
  · simp

theorem pushedAll_cons (w : Word) (ws : List Word) (s : State) :
    pushedAll ws (pushed w s) = pushedAll (w :: ws) s := by
  have e : BitVec.ofNat 16 (2 * (ws.length + 1)) = 2 + BitVec.ofNat 16 (2 * ws.length) := by
    rw [show 2 * (ws.length + 1) = 2 + 2 * ws.length by omega, BitVec.ofNat_add]; rfl
  refine State.ext_fields rfl (fun r => ?_) rfl ?_ ?_ rfl rfl
  · by_cases h : r = .sp
    · simp only [h, pushedAll_reg, pushed_reg, if_true, List.length_cons, e]
      bv_omega
    · simp [h]
  · simp only [pushedAll_sfs, pushed_sfs, List.length_cons, e]
    bv_omega
  · simp [pushedMem]

theorem pushedAll_append (ws vs : List Word) (s : State) :
    pushedAll vs (pushedAll ws s) = pushedAll (ws ++ vs) s := by
  induction ws generalizing s with
  | nil => rw [pushedAll_nil, List.nil_append]
  | cons w ws ih => rw [← pushedAll_cons, ih, List.cons_append, ← pushedAll_cons]

theorem pushedRegs_cons {r : Reg} {rs : List Reg} {s : State} (hsp : Reg.sp ∉ rs) :
    pushedAll (rs.map (pushed (s.reg r) s).reg) (pushed (s.reg r) s) = pushedAll ((r :: rs).map s.reg) s := by
  have : rs.map (pushed (s.reg r) s).reg = rs.map s.reg :=
    List.map_congr_left fun q hq => by
      have : q ≠ .sp := fun e => hsp (e ▸ hq)
      simp [this]
  rw [this, pushedAll_cons, List.map_cons]

/-- Pushing registers other than `sp`, with every slot in bounds. -/
theorem pushRegs_inside (rs : List Reg) (s : State) (hsp : Reg.sp ∉ rs)
    (h : ∀ k, k < rs.length → slotInBounds s (s.reg .sp - BitVec.ofNat 16 (2 * k))) :
    pushRegs rs s = .ok () (pushedAll (rs.map s.reg) s) := by
  induction rs generalizing s with
  | nil => rw [pushRegs, List.map_nil, pushedAll_nil]
  | cons r rs ih =>
    simp only [List.mem_cons, not_or] at hsp
    have h0 : slotInBounds s (s.reg .sp) := by
      have := h 0 (by simp)
      simpa using this
    rw [pushRegs, push_inside h0, Access.bind_ok, ih _ hsp.2]
    · rw [pushedRegs_cons hsp.2]
    · intro k hk
      have := h (k + 1) (by simpa using hk)
      rw [pushed_reg, if_pos rfl, slot_sub]
      exact this

/-- A sequence of register pushes that completes had every slot in bounds. -/
theorem pushRegs_ok (rs : List Reg) {s t : State} {u : Unit} (h : pushRegs rs s = .ok u t) :
    ∀ k, k < rs.length → slotInBounds s (s.reg .sp - BitVec.ofNat 16 (2 * k)) := by
  induction rs generalizing s with
  | nil => intro k hk; simp at hk
  | cons r rs ih =>
    rw [pushRegs] at h
    obtain ⟨_, s1, h1, h2⟩ := Access.bind_eq_ok h
    obtain ⟨hb, rfl⟩ := push_ok h1
    intro k hk
    cases k with
    | zero => simpa using hb
    | succ k =>
      have := ih h2 k (by simpa using hk)
      rw [pushed_reg, if_pos rfl, slot_sub] at this
      exact this

/-- What a pushed sequence leaves in its slots, in every state with the memory it leaves. -/
theorem wordAt_pushedAll (ws : List Word) (s : State) (k : Nat) (hk : k < ws.length) (hl : 2 * ws.length < 65536)
    {t : State} (ht : t.mem = (pushedAll ws s).mem) : wordAt t (slotBelow (s.reg .sp) k).toNat = ws.getD k 0 := by
  have := byteAt_pushedMem_slot ws s.mem (s.reg .sp) k hk hl
  simp only [wordAt, ht, pushedAll_mem, slotBelow, this.1, this.2, joinBytes_high_low]

/-- A pushed sequence changes no byte outside its slots. -/
theorem sameMemory_pushedAll (ws : List Word) {s t : State} (ht : t.mem = (pushedAll ws s).mem) :
    SameMemoryOutsidePushes (s.reg .sp) ws.length s t := by
  intro b hb
  rw [ht]
  exact byteAt_pushedMem_outside _ _ _ _ hb

/-! ## pushState (44_stack_call.md R182) -/

/-- The ten words of a frame, in the order they are pushed. -/
def frameWords (s : State) : List Word := frameRegs.map s.reg ++ [s.sfs + 20]

@[simp] theorem frameWords_length (s : State) : (frameWords s).length = 10 := rfl

/-- The state after `pushState()` in bounds. -/
def framed (s : State) : State :=
  ((pushedAll (frameWords s) s).setReg .fp (s.reg .sp - 20)).setSfs 0

@[simp] theorem framed_config (s : State) : (framed s).config = s.config := rfl
@[simp] theorem framed_inHandler (s : State) : (framed s).inHandler = s.inHandler := rfl
@[simp] theorem framed_sfs (s : State) : (framed s).sfs = 0 := rfl
@[simp] theorem framed_mem (s : State) : (framed s).mem = pushedMem s.mem (s.reg .sp) (frameWords s) := rfl
@[simp] theorem framed_phase (s : State) : (framed s).phase = s.phase := rfl
@[simp] theorem framed_response (s : State) : (framed s).response = s.response := rfl
@[simp] theorem framed_reg (s : State) (q : Reg) :
    (framed s).reg q = if q = .fp ∨ q = .sp then s.reg .sp - 20 else s.reg q := by
  by_cases h1 : q = .fp
  · simp [framed, h1]
  · by_cases h2 : q = .sp <;> simp [framed, h1, h2]

theorem pushState_inside {s : State}
    (h : ∀ k, k < 10 → slotInBounds s (s.reg .sp - BitVec.ofNat 16 (2 * k))) :
    pushState s = .ok () (framed s) := by
  have h9 : slotInBounds (pushedAll (frameRegs.map s.reg) s) ((pushedAll (frameRegs.map s.reg) s).reg .sp) := by
    have := h 9 (by omega)
    simpa [slotInBounds, frameRegs] using this
  rw [pushState, pushRegs_inside _ _ (by decide) (fun k hk => h k (by simp [frameRegs] at hk; omega)),
    Access.bind_ok, push_inside h9, Access.bind_ok]
  have hw : pushed ((pushedAll (frameRegs.map s.reg) s).sfs + 2) (pushedAll (frameRegs.map s.reg) s) =
      pushedAll (frameWords s) s := by
    have e : (pushedAll (frameRegs.map s.reg) s).sfs + 2 = s.sfs + 20 := by
      simp only [pushedAll_sfs, List.length_map, show frameRegs.length = 9 from rfl]
      bv_omega
    rw [e, frameWords, ← pushedAll_append, ← pushedAll_cons, pushedAll_nil]
  rw [hw]
  simp [framed]

/-- A frame save that completes had its ten slots in bounds. -/
theorem pushState_ok {s t : State} {u : Unit} (h : pushState s = .ok u t) :
    (∀ k, k < 10 → slotInBounds s (s.reg .sp - BitVec.ofNat 16 (2 * k))) ∧ t = framed s := by
  have hb : ∀ k, k < 10 → slotInBounds s (s.reg .sp - BitVec.ofNat 16 (2 * k)) := by
    rw [pushState] at h
    obtain ⟨_, s1, h1, h2⟩ := Access.bind_eq_ok h
    have hs := pushRegs_ok _ h1
    rw [pushRegs_inside _ _ (by decide) hs] at h1
    injection h1 with _ h1
    subst h1
    obtain ⟨_, s2, h3, _⟩ := Access.bind_eq_ok h2
    have h9 := (push_ok h3).1
    intro k hk
    by_cases e : k = 9
    · subst e
      simpa [slotInBounds, frameRegs] using h9
    · exact hs k (by simp [frameRegs]; omega)
  rw [pushState_inside hb] at h
  injection h with _ h
  exact ⟨hb, h.symm⟩

/-! ## Sequences of pops -/

theorem slot_add (a : Word) (k : Nat) :
    a + 2 + BitVec.ofNat 16 (2 * k) = a + BitVec.ofNat 16 (2 * (k + 1)) := by
  rw [show 2 * (k + 1) = 2 + 2 * k by omega, BitVec.ofNat_add]
  bv_omega

/-- The state after popping registers other than `sp` in bounds. -/
def poppedInto : List Reg → State → State
  | [], s => s
  | r :: rs, s => poppedInto rs ((popped s).setReg r (wordAt s (s.reg .sp + 2).toNat))

@[simp] theorem poppedInto_config (rs : List Reg) (s : State) : (poppedInto rs s).config = s.config := by
  induction rs generalizing s with
  | nil => rfl
  | cons r rs ih => simp [poppedInto, ih]

@[simp] theorem poppedInto_inHandler (rs : List Reg) (s : State) : (poppedInto rs s).inHandler = s.inHandler := by
  induction rs generalizing s with
  | nil => rfl
  | cons r rs ih => simp [poppedInto, ih]

@[simp] theorem poppedInto_mem (rs : List Reg) (s : State) : (poppedInto rs s).mem = s.mem := by
  induction rs generalizing s with
  | nil => rfl
  | cons r rs ih => simp [poppedInto, ih]

@[simp] theorem poppedInto_phase (rs : List Reg) (s : State) : (poppedInto rs s).phase = s.phase := by
  induction rs generalizing s with
  | nil => rfl
  | cons r rs ih => simp [poppedInto, ih]

@[simp] theorem poppedInto_response (rs : List Reg) (s : State) : (poppedInto rs s).response = s.response := by
  induction rs generalizing s with
  | nil => rfl
  | cons r rs ih => simp [poppedInto, ih]

theorem poppedInto_sfs (rs : List Reg) (s : State) :
    (poppedInto rs s).sfs = s.sfs - BitVec.ofNat 16 (2 * rs.length) := by
  induction rs generalizing s with
  | nil => simp [poppedInto]
  | cons r rs ih =>
    rw [poppedInto, ih, List.length_cons, show 2 * (rs.length + 1) = 2 + 2 * rs.length by omega, BitVec.ofNat_add]
    simp only [State.setReg_sfs, popped_sfs]
    bv_omega

theorem poppedInto_sp (rs : List Reg) (s : State) (h : Reg.sp ∉ rs) :
    (poppedInto rs s).reg .sp = s.reg .sp + BitVec.ofNat 16 (2 * rs.length) := by
  induction rs generalizing s with
  | nil => simp [poppedInto]
  | cons r rs ih =>
    simp only [List.mem_cons, not_or] at h
    rw [poppedInto, ih _ h.2, List.length_cons, ← slot_add]
    simp [h.1]

theorem poppedInto_reg_other (rs : List Reg) (s : State) (q : Reg) (h : q ∉ rs) (hq : q ≠ .sp) :
    (poppedInto rs s).reg q = s.reg q := by
  induction rs generalizing s with
  | nil => rfl
  | cons r rs ih =>
    simp only [List.mem_cons, not_or] at h
    rw [poppedInto, ih _ h.2]
    simp [h.1, hq]

/-- The `k`-th register popped holds the word of the `k`-th slot. -/
theorem poppedInto_reg (rs : List Reg) (s : State) (k : Nat) (hk : k < rs.length) (hsp : Reg.sp ∉ rs)
    (hd : rs.Nodup) :
    (poppedInto rs s).reg (rs.getD k .ip) = wordAt s (s.reg .sp + BitVec.ofNat 16 (2 * (k + 1))).toNat := by
  induction rs generalizing s k with
  | nil => simp at hk
  | cons r rs ih =>
    simp only [List.mem_cons, not_or] at hsp
    rw [List.nodup_cons] at hd
    rw [poppedInto]
    cases k with
    | zero =>
      rw [List.getD_cons_zero, poppedInto_reg_other _ _ _ hd.1 (fun e => hsp.1 e.symm)]
      simp
    | succ k =>
      rw [List.getD_cons_succ, ih _ _ (by simpa using hk) hsp.2 hd.2]
      simp only [State.reg_setReg, popped_reg, if_neg hsp.1, if_true, slot_add]
      rfl

theorem popRegs_inside (rs : List Reg) (s : State) (hsp : Reg.sp ∉ rs)
    (h : ∀ k, k < rs.length → slotInBounds s (s.reg .sp + BitVec.ofNat 16 (2 * (k + 1)))) :
    popRegs rs s = .ok () (poppedInto rs s) := by
  induction rs generalizing s with
  | nil => rfl
  | cons r rs ih =>
    simp only [List.mem_cons, not_or] at hsp
    have h0 : slotInBounds s (s.reg .sp + 2) := by
      have := h 0 (by simp)
      simpa using this
    rw [popRegs, pop_inside h0, Access.bind_ok, ih _ hsp.2]
    · rfl
    · intro k hk
      have := h (k + 1) (by simpa using hk)
      rw [State.reg_setReg, if_neg hsp.1, popped_reg, if_pos rfl, slot_add]
      exact this

theorem popRegs_ok (rs : List Reg) {s t : State} {u : Unit} (hsp : Reg.sp ∉ rs) (h : popRegs rs s = .ok u t) :
    ∀ k, k < rs.length → slotInBounds s (s.reg .sp + BitVec.ofNat 16 (2 * (k + 1))) := by
  induction rs generalizing s with
  | nil => intro k hk; simp at hk
  | cons r rs ih =>
    simp only [List.mem_cons, not_or] at hsp
    rw [popRegs] at h
    obtain ⟨v, s1, h1, h2⟩ := Access.bind_eq_ok h
    obtain ⟨hb, rfl, rfl⟩ := pop_ok h1
    intro k hk
    cases k with
    | zero => simpa using hb
    | succ k =>
      have := ih hsp.2 h2 k (by simpa using hk)
      rw [State.reg_setReg, if_neg hsp.1, popped_reg, if_pos rfl, slot_add] at this
      exact this

/-- The state after discarding `n` words in bounds. -/
def discarded (n : Nat) (s : State) : State :=
  (s.setReg .sp (s.reg .sp + BitVec.ofNat 16 (2 * n))).setSfs (s.sfs - BitVec.ofNat 16 (2 * n))

theorem popDiscard_inside (n : Nat) (s : State)
    (h : ∀ k, k < n → slotInBounds s (s.reg .sp + BitVec.ofNat 16 (2 * (k + 1)))) :
    popDiscard n s = .ok () (discarded n s) := by
  induction n generalizing s with
  | zero =>
    rw [popDiscard]
    congr 1
    refine State.ext_fields rfl (fun r => ?_) rfl ?_ rfl rfl rfl
    · by_cases hr : r = .sp <;> simp [discarded, hr]
    · simp [discarded]
  | succ n ih =>
    have h0 : slotInBounds s (s.reg .sp + 2) := by
      have := h 0 (by omega)
      simpa using this
    rw [popDiscard, pop_inside h0, Access.bind_ok, ih]
    · congr 1
      refine State.ext_fields rfl (fun r => ?_) rfl ?_ rfl rfl rfl
      · by_cases hr : r = .sp
        · simp only [discarded, State.reg_setSfs, State.reg_setReg, hr, if_true, popped_reg, ← slot_add]
        · simp [discarded, hr]
      · simp only [discarded, State.setSfs_sfs, popped_sfs, show 2 * (n + 1) = 2 + 2 * n by omega, BitVec.ofNat_add]
        bv_omega
    · intro k hk
      have := h (k + 1) (by omega)
      rw [popped_reg, if_pos rfl, slot_add]
      exact this

theorem popDiscard_ok (n : Nat) {s t : State} {u : Unit} (h : popDiscard n s = .ok u t) :
    ∀ k, k < n → slotInBounds s (s.reg .sp + BitVec.ofNat 16 (2 * (k + 1))) := by
  induction n generalizing s with
  | zero => intro k hk; omega
  | succ n ih =>
    rw [popDiscard] at h
    obtain ⟨v, s1, h1, h2⟩ := Access.bind_eq_ok h
    obtain ⟨hb, rfl, rfl⟩ := pop_ok h1
    intro k hk
    cases k with
    | zero => simpa using hb
    | succ k =>
      have := ih h2 k (by omega)
      rw [popped_reg, if_pos rfl, slot_add] at this
      exact this

/-! ## popState (44_stack_call.md R183) -/

@[simp] theorem discarded_config (n : Nat) (s : State) : (discarded n s).config = s.config := rfl
@[simp] theorem discarded_inHandler (n : Nat) (s : State) : (discarded n s).inHandler = s.inHandler := rfl
@[simp] theorem discarded_sfs (n : Nat) (s : State) : (discarded n s).sfs = s.sfs - BitVec.ofNat 16 (2 * n) := rfl
@[simp] theorem discarded_mem (n : Nat) (s : State) : (discarded n s).mem = s.mem := rfl
@[simp] theorem discarded_phase (n : Nat) (s : State) : (discarded n s).phase = s.phase := rfl
@[simp] theorem discarded_response (n : Nat) (s : State) : (discarded n s).response = s.response := rfl
@[simp] theorem discarded_reg (n : Nat) (s : State) (q : Reg) :
    (discarded n s).reg q = if q = .sp then s.reg .sp + BitVec.ofNat 16 (2 * n) else s.reg q := by
  simp [discarded]

/-- The word of the `k`-th slot above `fp`, counting from 0: the frame size, `ip`, `r8` .. `r1`, the argument count,
the arguments (44_stack_call.md R185). -/
def frameSlot (s : State) (k : Nat) : Word := wordAt s (s.reg .fp + BitVec.ofNat 16 (2 * (k + 1))).toNat

/-- The number of argument words above the frame (44_stack_call.md R183, R184). -/
def frameArgs (s : State) : Nat := (frameSlot s 10).toNat

/-- The state inside `popState()` after the frame size and the nine saved registers are popped. -/
def unframed (s : State) : State :=
  poppedInto frameRegs.reverse
    ((popped (s.setReg .sp (s.reg .fp))).setSfs (frameSlot s 0 - s.config.readings.popStateSfsAdjust))

/-- The state after `popState()` in bounds. -/
def restored (s : State) : State :=
  (discarded (frameArgs s) (popped (unframed s))).setReg .fp (s.reg .fp + frameSlot s 0)

@[simp] theorem unframed_config (s : State) : (unframed s).config = s.config := by simp [unframed]
@[simp] theorem unframed_inHandler (s : State) : (unframed s).inHandler = s.inHandler := by simp [unframed]
@[simp] theorem unframed_mem (s : State) : (unframed s).mem = s.mem := by simp [unframed]
@[simp] theorem unframed_phase (s : State) : (unframed s).phase = s.phase := by simp [unframed]
@[simp] theorem unframed_response (s : State) : (unframed s).response = s.response := by simp [unframed]

theorem unframed_sp (s : State) : (unframed s).reg .sp = s.reg .fp + 20 := by
  rw [unframed, poppedInto_sp _ _ (by decide)]
  simp only [State.reg_setSfs, popped_reg, State.reg_setReg, if_true, frameRegs, List.length_reverse,
    List.length_cons, List.length_nil]
  bv_omega

theorem unframed_sfs (s : State) :
    (unframed s).sfs = frameSlot s 0 - s.config.readings.popStateSfsAdjust - 18 := by
  rw [unframed, poppedInto_sfs]; rfl

/-- The saved registers come back from their slots. -/
theorem unframed_saved (s : State) (k : Nat) (hk : k < 9) :
    (unframed s).reg (frameRegs.reverse.getD k .ip) = frameSlot s (k + 1) := by
  rw [unframed, poppedInto_reg _ _ _ (by simpa [frameRegs] using hk) (by decide) (by decide)]
  simp only [State.reg_setSfs, popped_reg, State.reg_setReg, if_true, slot_add]
  rfl

theorem unframed_other (s : State) (q : Reg) (h : q = .acc ∨ q = .im ∨ q = .fp) :
    (unframed s).reg q = s.reg q := by
  rw [unframed, poppedInto_reg_other] <;> rcases h with rfl | rfl | rfl <;> first | decide | simp

@[simp] theorem restored_config (s : State) : (restored s).config = s.config := by simp [restored]
@[simp] theorem restored_inHandler (s : State) : (restored s).inHandler = s.inHandler := by simp [restored]
@[simp] theorem restored_mem (s : State) : (restored s).mem = s.mem := by simp [restored]
@[simp] theorem restored_phase (s : State) : (restored s).phase = s.phase := by simp [restored]
@[simp] theorem restored_response (s : State) : (restored s).response = s.response := by simp [restored]

theorem restored_sfs (s : State) :
    (restored s).sfs =
      frameSlot s 0 - s.config.readings.popStateSfsAdjust - 20 - BitVec.ofNat 16 (2 * frameArgs s) := by
  simp only [restored, State.setReg_sfs, discarded_sfs, popped_sfs, unframed_sfs]
  bv_omega

theorem restored_sp (s : State) :
    (restored s).reg .sp = s.reg .fp + 22 + BitVec.ofNat 16 (2 * frameArgs s) := by
  simp only [restored, State.reg_setReg, discarded_reg, popped_reg, unframed_sp, if_true, reduceCtorEq, if_false]
  bv_omega

theorem restored_fp (s : State) : (restored s).reg .fp = s.reg .fp + frameSlot s 0 := by
  simp [restored]

theorem restored_saved (s : State) (k : Nat) (hk : k < 9) :
    (restored s).reg (frameRegs.reverse.getD k .ip) = frameSlot s (k + 1) := by
  rw [← unframed_saved s k hk]
  interval_cases k <;> simp [restored, frameRegs]

theorem restored_other (s : State) (q : Reg) (h : q = .acc ∨ q = .im) : (restored s).reg q = s.reg q := by
  rw [← unframed_other s q (h.imp id .inl)]
  rcases h with rfl | rfl <;> simp [restored]

theorem popState_inside {s : State}
    (h : ∀ k, k < 11 + frameArgs s → slotInBounds s (s.reg .fp + BitVec.ofNat 16 (2 * (k + 1)))) :
    popState s = .ok () (restored s) := by
  have h0 : slotInBounds (s.setReg .sp (s.reg .fp)) ((s.setReg .sp (s.reg .fp)).reg .sp + 2) := by
    have := h 0 (by omega)
    simpa [slotInBounds] using this
  have e0 : wordAt (s.setReg .sp (s.reg .fp)) ((s.setReg .sp (s.reg .fp)).reg .sp + 2).toNat = frameSlot s 0 := by
    simp [frameSlot, wordAt]
  have h10 : slotInBounds (unframed s) ((unframed s).reg .sp + 2) := by
    have := h 10 (by omega)
    rw [unframed_sp, show s.reg .fp + 20 + 2 = s.reg .fp + BitVec.ofNat 16 (2 * (10 + 1)) by bv_omega]
    simpa [slotInBounds] using this
  have e10 : wordAt (unframed s) ((unframed s).reg .sp + 2).toNat = frameSlot s 10 := by
    rw [unframed_sp, show s.reg .fp + 20 + 2 = s.reg .fp + BitVec.ofNat 16 (2 * (10 + 1)) by bv_omega]
    simp [frameSlot, wordAt]
  simp only [popState, pop_inside h0, Access.bind_ok, e0]
  rw [popRegs_inside _ _ (by decide)]
  · have eU : poppedInto frameRegs.reverse ((popped (s.setReg .sp (s.reg .fp))).setSfs
        (frameSlot s 0 - (popped (s.setReg .sp (s.reg .fp))).config.readings.popStateSfsAdjust)) = unframed s := rfl
    rw [eU, Access.bind_ok, pop_inside h10, Access.bind_ok, e10, popDiscard_inside]
    · rfl
    · intro k hk
      have := h (11 + k) (by simpa [frameArgs] using hk)
      have e : (popped (unframed s)).reg .sp + BitVec.ofNat 16 (2 * (k + 1)) =
          s.reg .fp + BitVec.ofNat 16 (2 * (11 + k + 1)) := by
        rw [popped_reg, if_pos rfl, unframed_sp, show 2 * (11 + k + 1) = 22 + 2 * (k + 1) by omega, BitVec.ofNat_add]
        bv_omega
      rw [e]
      simpa [slotInBounds] using this
  · intro k hk
    have := h (k + 1) (by simp [frameRegs] at hk; omega)
    simp only [State.reg_setSfs, popped_reg, State.reg_setReg, if_true, slot_add]
    exact this

/-- A frame restore that completes had every slot in bounds. -/
theorem popState_ok {s t : State} {u : Unit} (h : popState s = .ok u t) :
    (∀ k, k < 11 + frameArgs s → slotInBounds s (s.reg .fp + BitVec.ofNat 16 (2 * (k + 1)))) ∧ t = restored s := by
  have hb : ∀ k, k < 11 + frameArgs s → slotInBounds s (s.reg .fp + BitVec.ofNat 16 (2 * (k + 1))) := by
    simp only [popState] at h
    obtain ⟨size, s1, h1, h⟩ := Access.bind_eq_ok h
    obtain ⟨hb0, rfl, rfl⟩ := pop_ok h1
    obtain ⟨_, s2, h2, h⟩ := Access.bind_eq_ok h
    have hb1 := popRegs_ok _ (by decide) h2
    rw [popRegs_inside _ _ (by decide) hb1] at h2
    injection h2 with _ h2
    have e0 : wordAt (s.setReg .sp (s.reg .fp)) ((s.setReg .sp (s.reg .fp)).reg .sp + 2).toNat = frameSlot s 0 := by
      simp [frameSlot, wordAt]
    rw [e0] at h2
    have e2 : s2 = unframed s := h2.symm
    subst e2
    obtain ⟨argc, s3, h3, h⟩ := Access.bind_eq_ok h
    obtain ⟨hb10, rfl, rfl⟩ := pop_ok h3
    have e10 : wordAt (unframed s) ((unframed s).reg .sp + 2).toNat = frameSlot s 10 := by
      rw [unframed_sp, show s.reg .fp + 20 + 2 = s.reg .fp + BitVec.ofNat 16 (2 * (10 + 1)) by bv_omega]
      simp [frameSlot, wordAt]
    rw [e10] at h
    obtain ⟨_, s4, h4, _⟩ := Access.bind_eq_ok h
    have hb11 := popDiscard_ok _ h4
    intro k hk
    rcases Nat.lt_trichotomy k 10 with h' | h' | h'
    · rcases Nat.eq_zero_or_pos k with rfl | hp
      · simpa [slotInBounds] using hb0
      · have := hb1 (k - 1) (by simp [frameRegs]; omega)
        simp only [State.reg_setSfs, popped_reg, State.reg_setReg, if_true, slot_add,
          show k - 1 + 1 + 1 = k + 1 by omega] at this
        exact this
    · subst h'
      rw [unframed_sp, show s.reg .fp + 20 + 2 = s.reg .fp + BitVec.ofNat 16 (2 * (10 + 1)) by bv_omega] at hb10
      simpa [slotInBounds] using hb10
    · have := hb11 (k - 11) (by rw [frameArgs] at hk; omega)
      have e : (popped (unframed s)).reg .sp + BitVec.ofNat 16 (2 * (k - 11 + 1)) =
          s.reg .fp + BitVec.ofNat 16 (2 * (k + 1)) := by
        rw [popped_reg, if_pos rfl, unframed_sp, show 2 * (k + 1) = 22 + 2 * (k - 11 + 1) by omega, BitVec.ofNat_add]
        bv_omega
      rw [e] at this
      simpa [slotInBounds] using this
  rw [popState_inside hb] at h
  injection h with _ h
  exact ⟨hb, h.symm⟩

/-! ## Interrupt delivery (60_exceptions.md R217) -/

/-- The state after the context save of a delivery, in bounds. -/
def savedContext (s : State) : State := if s.inHandler then s else framed (pushed 0 s)

@[simp] theorem savedContext_config (s : State) : (savedContext s).config = s.config := by
  unfold savedContext; split <;> simp
@[simp] theorem savedContext_phase (s : State) : (savedContext s).phase = s.phase := by
  unfold savedContext; split <;> simp
@[simp] theorem savedContext_response (s : State) : (savedContext s).response = s.response := by
  unfold savedContext; split <;> simp

theorem saveContext_nested {s : State} (h : s.inHandler = true) : saveContext s = .ok () s := by
  simp [saveContext, h]

theorem saveContext_inside {s : State} (hn : s.inHandler = false)
    (h : ∀ k, k < 11 → slotInBounds s (s.reg .sp - BitVec.ofNat 16 (2 * k))) :
    saveContext s = .ok () (framed (pushed 0 s)) := by
  have h0 : slotInBounds s (s.reg .sp) := by
    have := h 0 (by omega)
    simpa using this
  simp only [saveContext, hn, Bool.false_eq_true, if_false, push_inside h0, Access.bind_ok]
  refine pushState_inside fun k hk => ?_
  rw [pushed_reg, if_pos rfl, slot_sub]
  exact h (k + 1) (by omega)

/-- A context save that completes either was nested and did nothing, or had its eleven slots in bounds. -/
theorem saveContext_ok {s t : State} {u : Unit} (h : saveContext s = .ok u t) :
    (s.inHandler = true ∧ t = s) ∨
    (s.inHandler = false ∧ (∀ k, k < 11 → slotInBounds s (s.reg .sp - BitVec.ofNat 16 (2 * k))) ∧
      t = framed (pushed 0 s)) := by
  cases hn : s.inHandler with
  | true =>
    rw [saveContext_nested hn] at h
    injection h with _ h
    exact .inl ⟨rfl, h.symm⟩
  | false =>
    simp only [saveContext, hn, Bool.false_eq_true, if_false] at h
    obtain ⟨_, s1, h1, h2⟩ := Access.bind_eq_ok h
    obtain ⟨hb, rfl⟩ := push_ok h1
    obtain ⟨hb', rfl⟩ := pushState_ok h2
    refine .inr ⟨rfl, fun k hk => ?_, rfl⟩
    cases k with
    | zero => simpa using hb
    | succ k =>
      have := hb' k (by omega)
      rw [pushed_reg, if_pos rfl, slot_sub] at this
      exact this

theorem deliver_masked {value : Word} {s : State} (h : (s.reg .im).getLsbD (vectorOf value) = false) :
    deliver value s = .ok .masked s := by
  simp [deliver, h]

/-- Everything a delivery that completes can have done. -/
theorem deliver_ok {value : Word} {s t : State} {d : Delivery} (h : deliver value s = .ok d t) :
    ((s.reg .im).getLsbD (vectorOf value) = false ∧ d = .masked ∧ t = s) ∨
    ((s.reg .im).getLsbD (vectorOf value) = true ∧ d = .delivered ∧
      vectorAddress s.config (vectorOf value) + 1 < s.config.memSize ∧
      saveContext s = .ok () (savedContext s) ∧
      t = ((savedContext s).setInHandler true).setReg .ip
        (wordAt s (vectorAddress s.config (vectorOf value)))) := by
  unfold deliver at h
  split at h
  · rename_i hm
    obtain ⟨handler, s1, h1, h⟩ := Access.bind_eq_ok h
    obtain ⟨hb, rfl, rfl⟩ := memRead16_ok h1
    obtain ⟨_, s2, h2, h⟩ := Access.bind_eq_ok h
    have e : s2 = savedContext s1 := by
      rcases saveContext_ok h2 with ⟨hn, rfl⟩ | ⟨hn, _, rfl⟩ <;> simp [savedContext, hn]
    subst e
    injection h with hd ht
    exact .inr ⟨hm, hd.symm, hb, h2, ht.symm⟩
  · rename_i hm
    injection h with hd ht
    exact .inl ⟨by simpa using hm, hd.symm, ht.symm⟩

end Sys2Proof.Machine
end

