-- ==== Sys2Proof/Laws/Fetch.lean ====
section
/-! SUPPORT. What fetching can do: reading the operand fields of code that stands in memory, field by field
(30_encoding.md R72, R73, R85). -/

namespace Sys2Proof.Machine

theorem fetch8_inside {s : State} (h : (s.reg .ip).toNat < s.config.memSize) :
    fetch8 s = .ok (s.mem.byteAt (s.reg .ip).toNat) (s.setReg .ip (s.reg .ip + 1)) := by
  rw [fetch8, memRead8_inside h]; rfl

theorem fetch8_outside {s : State} (h : s.config.memSize ≤ (s.reg .ip).toNat) :
    fetch8 s = .raised (s.raise (.outOfBounds (s.reg .ip).toNat 1)) := by
  rw [fetch8, memRead8_outside h]; rfl

theorem fetch16_inside {s : State} (h : (s.reg .ip).toNat + 1 < s.config.memSize) :
    fetch16 s = .ok (wordAt s (s.reg .ip).toNat) (s.setReg .ip (s.reg .ip + 2)) := by
  rw [fetch16, memRead16_inside h]; rfl

theorem fetch16_outside {s : State} (h : s.config.memSize ≤ (s.reg .ip).toNat + 1) :
    fetch16 s = .raised (s.raise (.outOfBounds (s.reg .ip).toNat 2)) := by
  rw [fetch16, memRead16_outside h]; rfl

/-- The bytes of memory from address `a` on, wrapping at 2^16. -/
def bytesAt (m : Memory) : Word → Nat → List Byte
  | _, 0 => []
  | a, n + 1 => m.byteAt a.toNat :: bytesAt m (a + 1) n

theorem bytesAt_add (m : Memory) (a : Word) (j k : Nat) :
    bytesAt m a (j + k) = bytesAt m a j ++ bytesAt m (a + BitVec.ofNat 16 j) k := by
  induction j generalizing a with
  | zero => simp [bytesAt]
  | succ j ih =>
    rw [show j + 1 + k = (j + k) + 1 by omega, bytesAt, bytesAt, ih, List.cons_append,
      show a + 1 + BitVec.ofNat 16 j = a + BitVec.ofNat 16 (j + 1) by rw [BitVec.ofNat_add]; bv_omega]

@[simp] theorem bytesAt_length (m : Memory) (a : Word) (n : Nat) : (bytesAt m a n).length = n := by
  induction n generalizing a with
  | zero => rfl
  | succ n ih => simp [bytesAt, ih]

/-- One field, readable, is fetched as the bytes that stand there. -/
theorem fetchField_inside (f : Field) {s : State} (hw : s.config.memSize ≤ 65536)
    (h : (s.reg .ip).toNat + f.width - 1 < s.config.memSize) :
    fetchField f s =
      .ok (bytesAt s.mem (s.reg .ip) f.width) (s.setReg .ip (s.reg .ip + BitVec.ofNat 16 f.width)) := by
  cases f with
  | byte => rw [fetchField, fetch8_inside (by simpa [Field.width] using h)]; rfl
  | sel => rw [fetchField, fetch8_inside (by simpa [Field.width] using h)]; rfl
  | word =>
    have h' : (s.reg .ip).toNat + 1 < s.config.memSize := by simpa [Field.width] using h
    rw [fetchField, fetch16_inside h', Access.bind_ok]
    simp only [wordAt, highByte_joinBytes, lowByte_joinBytes, Field.width, bytesAt]
    rw [show (s.reg .ip + 1).toNat = (s.reg .ip).toNat + 1 by
      rw [BitVec.toNat_add, show (1 : Word).toNat = 1 from rfl]; omega]
    rfl

/-- Whether fields are readable depends on the configuration alone. -/
theorem fieldsReadable_congr {s t : State} (h : t.config = s.config) (fs : List Field) (a : Word) :
    fieldsReadable t a fs ↔ fieldsReadable s a fs := by
  induction fs generalizing a with
  | nil => exact Iff.rfl
  | cons f fs ih => rw [fieldsReadable, fieldsReadable, ih, h]

/-- Readable fields are fetched in order as the bytes that stand there, and `ip` moves past them. -/
theorem fetchFields_inside (fs : List Field) {s : State} (hw : s.config.memSize ≤ 65536)
    (h : fieldsReadable s (s.reg .ip) fs) :
    fetchFields fs s =
      .ok (bytesAt s.mem (s.reg .ip) (widthOf fs)) (s.setReg .ip (s.reg .ip + BitVec.ofNat 16 (widthOf fs))) := by
  induction fs generalizing s with
  | nil =>
    rw [fetchFields]
    congr 1
    refine State.ext_fields rfl (fun r => ?_) rfl rfl rfl rfl rfl
    by_cases hr : r = .ip <;> simp [widthOf, hr]
  | cons f fs ih =>
    obtain ⟨h1, h2⟩ := h
    rw [fetchFields, fetchField_inside f hw h1, Access.bind_ok, ih (by simpa using hw), Access.bind_ok]
    · congr 1
      · rw [show widthOf (f :: fs) = f.width + widthOf fs by simp [widthOf], bytesAt_add]
        simp
      · refine State.ext_fields rfl (fun r => ?_) rfl rfl rfl rfl rfl
        by_cases hr : r = .ip
        · simp only [hr, State.reg_setReg, if_true, widthOf, List.map_cons, List.sum_cons, BitVec.ofNat_add]
          bv_omega
        · simp [hr]
    · simp only [State.reg_setReg, if_true]
      exact (fieldsReadable_congr (State.setReg_config _ _ _) fs _).2 h2

/-- Writing back what a register holds changes nothing. -/
theorem State.setReg_reg (s : State) (r : Reg) : s.setReg r (s.reg r) = s := by
  refine State.ext_fields rfl (fun q => ?_) rfl rfl rfl rfl rfl
  by_cases h : q = r <;> simp [h]

/-- One field that does not lie in memory raises the fault of its own address and width, with `ip` left at it. -/
theorem fetchField_outside (f : Field) {s : State} (h : s.config.memSize ≤ (s.reg .ip).toNat + f.width - 1) :
    fetchField f s = .raised (s.raise (.outOfBounds (s.reg .ip).toNat f.width)) := by
  cases f with
  | byte => rw [fetchField, fetch8_outside (by simpa [Field.width] using h)]; rfl
  | sel => rw [fetchField, fetch8_outside (by simpa [Field.width] using h)]; rfl
  | word => rw [fetchField, fetch16_outside (by simpa [Field.width] using h)]; rfl

/-- One field that lies in memory moves `ip` past it. -/
theorem fetchField_advances (f : Field) {s : State} (h : (s.reg .ip).toNat + f.width - 1 < s.config.memSize) :
    ∃ bytes, fetchField f s = .ok bytes (s.setReg .ip (s.reg .ip + BitVec.ofNat 16 f.width)) := by
  cases f with
  | byte => exact ⟨_, by rw [fetchField, fetch8_inside (by simpa [Field.width] using h)]; rfl⟩
  | sel => exact ⟨_, by rw [fetchField, fetch8_inside (by simpa [Field.width] using h)]; rfl⟩
  | word => exact ⟨_, by rw [fetchField, fetch16_inside (by simpa [Field.width] using h)]; rfl⟩

/-- Fields of which some is not readable fault at the first that is not, with `ip` left at it (30_encoding.md R86). -/
theorem fetchFields_outside (fs : List Field) {s : State} (h : ¬ fieldsReadable s (s.reg .ip) fs) :
    ∃ before f after a, fs = before ++ f :: after ∧ fieldsReadable s (s.reg .ip) before ∧
      a = s.reg .ip + BitVec.ofNat 16 (widthOf before) ∧ s.config.memSize ≤ a.toNat + f.width - 1 ∧
      fetchFields fs s = .raised ((s.setReg .ip a).raise (.outOfBounds a.toNat f.width)) := by
  induction fs generalizing s with
  | nil => exact absurd trivial h
  | cons f fs ih =>
    by_cases h1 : (s.reg .ip).toNat + f.width - 1 < s.config.memSize
    · obtain ⟨bytes, hb⟩ := fetchField_advances f h1
      have h2 : ∀ gs, fieldsReadable (s.setReg .ip (s.reg .ip + BitVec.ofNat 16 f.width))
          ((s.setReg .ip (s.reg .ip + BitVec.ofNat 16 f.width)).reg .ip) gs ↔
            fieldsReadable s (s.reg .ip + BitVec.ofNat 16 f.width) gs := by
        intro gs
        rw [State.reg_setReg, if_pos rfl, fieldsReadable_congr (State.setReg_config _ _ _)]
      obtain ⟨before, g, after, a, e, hr, ha, hm, hf⟩ := ih ((h2 fs).not.2 fun hh => h ⟨h1, hh⟩)
      refine ⟨f :: before, g, after, a, by rw [e, List.cons_append], ⟨h1, (h2 before).1 hr⟩, ?_, hm, ?_⟩
      · rw [ha, State.reg_setReg, if_pos rfl, show widthOf (f :: before) = f.width + widthOf before by simp [widthOf],
          BitVec.ofNat_add]
        bv_omega
      · rw [fetchFields, hb, Access.bind_ok, hf, Access.bind_raised]
        congr 2
    · refine ⟨[], f, fs, s.reg .ip, rfl, trivial, by simp [widthOf], Nat.le_of_not_lt h1, ?_⟩
      rw [fetchFields, fetchField_outside f (Nat.le_of_not_lt h1), State.setReg_reg]
      rfl

/-- Code that stands in memory is the bytes of memory there. -/
theorem codeAt_iff (s : State) (a : Word) (bs : List Byte) : codeAt s a bs ↔ bytesAt s.mem a bs.length = bs := by
  induction bs generalizing a with
  | nil => simp [codeAt, bytesAt]
  | cons b bs ih => simp [codeAt, bytesAt, ih]

end Sys2Proof.Machine
end

