-- ==== Sys2Proof/Laws/Keeps.lean ====
section
/-! SUPPORT. What every primitive keeps, whether it completes or faults: the configuration and the state invariant; and
what a fault of a primitive is. Each is said once here and composed along `Access.bind`. -/

namespace Sys2Proof.Machine

/-- What every primitive run from `s` keeps. Completed: the configuration, the phase, the response and the state
invariant. Faulted: the configuration and the state invariant, the run has ended with the fault as its response, and
the fault is not `UnknownRegister`. -/
def Keeps {α : Type} (s : State) (x : Access α) : Prop :=
  match x with
  | .ok _ t => SameEngine s t ∧ (s.wf = true → t.wf = true)
  | .raised f =>
    f.final.config = s.config ∧ f.final.phase = .ended ∧ f.final.response = .fault f.info ∧
    (s.wf = true → f.final.wf = true) ∧ f.info.code ≠ 3

theorem Keeps.refl {α : Type} (s : State) (a : α) : Keeps s (.ok a s) := ⟨⟨rfl, rfl, rfl⟩, id⟩

/-- An update that touches neither the engine fields nor memory keeps everything. -/
theorem Keeps.update {α : Type} {s t : State} (a : α) (hc : t.config = s.config) (hp : t.phase = s.phase)
    (hr : t.response = s.response) (hm : t.mem = s.mem) : Keeps s (.ok a t) :=
  ⟨⟨hc, hp, hr⟩, fun h => by
    rw [State.wf_iff] at h ⊢
    rwa [hc, hm]⟩

/-- A raise in `s` ends the run. -/
theorem Keeps.raise {α : Type} (s : State) (info : FaultInfo) (h : info.code ≠ 3) :
    Keeps s (.raised (s.raise info) : Access α) := by
  refine ⟨by simp, by simp, by simp, fun hw => ?_, by simpa using h⟩
  rw [State.wf_iff] at hw ⊢
  simpa using hw

/-- Keeping composes: a statement, then the rest of the pseudocode. -/
theorem Keeps.bind {α β : Type} {s : State} {x : Access α} {k : α → State → Access β}
    (hx : Keeps s x) (hk : ∀ a t, x = .ok a t → Keeps t (k a t)) : Keeps s (x.bind k) := by
  cases x with
  | raised f => exact hx
  | ok a t =>
    have h := hk a t rfl
    obtain ⟨⟨hc, hp, hr⟩, hw⟩ := hx
    rw [Access.bind_ok]
    cases hkt : k a t with
    | ok b u =>
      rw [hkt] at h
      obtain ⟨⟨hc', hp', hr'⟩, hw'⟩ := h
      exact ⟨⟨hc'.trans hc, hp'.trans hp, hr'.trans hr⟩, hw' ∘ hw⟩
    | raised f =>
      rw [hkt] at h
      obtain ⟨h1, h2, h3, h4, h5⟩ := h
      exact ⟨h1.trans hc, h2, h3, h4 ∘ hw, h5⟩

/-- A step taken from a state with the same engine fields and memory. -/
theorem Keeps.of_update {α : Type} {s t : State} {x : Access α} (hc : t.config = s.config) (hp : t.phase = s.phase)
    (hr : t.response = s.response) (hm : t.mem = s.mem) (h : Keeps t x) : Keeps s x :=
  Keeps.bind (x := .ok () t) (k := fun _ _ => x) (Keeps.update () hc hp hr hm)
    (fun _ _ e => by injection e with _ e; exact e ▸ h)

theorem memRead8_keeps (a : Nat) (s : State) : Keeps s (memRead8 a s) := by
  unfold memRead8
  split
  · exact Keeps.refl s _
  · exact Keeps.raise s _ (by simp [FaultInfo.code])

theorem memRead16_keeps (a : Nat) (s : State) : Keeps s (memRead16 a s) := by
  unfold memRead16
  split
  · exact Keeps.refl s _
  · exact Keeps.raise s _ (by simp [FaultInfo.code])

theorem memWrite16_keeps (a : Nat) (v : Word) (s : State) : Keeps s (memWrite16 a v s) := by
  unfold memWrite16
  split
  · rename_i hb
    have hb : a + 1 < s.config.memSize := by simpa [inBounds] using hb
    refine ⟨⟨rfl, rfl, rfl⟩, fun h => ?_⟩
    rw [State.wf_iff] at h ⊢
    exact ⟨h.1, Memory.wf_writeWord a v h.2.1, Memory.below_writeWord hb h.2.2⟩
  · exact Keeps.raise s _ (by simp [FaultInfo.code])

theorem push_keeps (v : Word) (s : State) : Keeps s (push v s) :=
  Keeps.bind (memWrite16_keeps _ _ _) fun _ _ _ => Keeps.update () rfl rfl rfl rfl

theorem pop_keeps (s : State) : Keeps s (pop s) :=
  Keeps.of_update (t := popped s) rfl rfl rfl rfl (memRead16_keeps _ _)

theorem pushRegs_keeps (rs : List Reg) (s : State) : Keeps s (pushRegs rs s) := by
  induction rs generalizing s with
  | nil => exact Keeps.refl s ()
  | cons r rs ih => exact Keeps.bind (push_keeps _ _) fun _ t _ => ih t

theorem popRegs_keeps (rs : List Reg) (s : State) : Keeps s (popRegs rs s) := by
  induction rs generalizing s with
  | nil => exact Keeps.refl s ()
  | cons r rs ih =>
    exact Keeps.bind (pop_keeps _) fun v t _ => Keeps.of_update rfl rfl rfl rfl (ih (t.setReg r v))

theorem popDiscard_keeps (n : Nat) (s : State) : Keeps s (popDiscard n s) := by
  induction n generalizing s with
  | zero => exact Keeps.refl s ()
  | succ n ih => exact Keeps.bind (pop_keeps _) fun _ t _ => ih t

theorem pushState_keeps (s : State) : Keeps s (pushState s) :=
  Keeps.bind (pushRegs_keeps _ _) fun _ _ _ =>
    Keeps.bind (push_keeps _ _) fun _ _ _ => Keeps.update () rfl rfl rfl rfl

theorem popState_keeps (s : State) : Keeps s (popState s) :=
  Keeps.of_update (t := s.setReg .sp (s.reg .fp)) rfl rfl rfl rfl <|
    Keeps.bind (pop_keeps _) fun _ _ _ =>
      Keeps.bind (Keeps.of_update rfl rfl rfl rfl (popRegs_keeps _ _)) fun _ _ _ =>
        Keeps.bind (pop_keeps _) fun _ _ _ =>
          Keeps.bind (popDiscard_keeps _ _) fun _ _ _ => Keeps.update () rfl rfl rfl rfl

theorem saveContext_keeps (s : State) : Keeps s (saveContext s) := by
  unfold saveContext
  split
  · exact Keeps.refl s ()
  · exact Keeps.bind (push_keeps _ _) fun _ _ _ => pushState_keeps _

theorem deliver_keeps (value : Word) (s : State) : Keeps s (deliver value s) := by
  unfold deliver
  split
  · exact Keeps.bind (memRead16_keeps _ _) fun _ _ _ =>
      Keeps.bind (saveContext_keeps _) fun _ _ _ => Keeps.update _ rfl rfl rfl rfl
  · exact Keeps.refl s _

theorem returnFromInterrupt_keeps (s : State) : Keeps s (returnFromInterrupt s) :=
  Keeps.of_update (t := s.setInHandler false) rfl rfl rfl rfl (popState_keeps _)

theorem readSource_keeps (src : Source) (s : State) : Keeps s (readSource src s) := by
  cases src with
  | literal lit => exact Keeps.refl s _
  | register rs => exact Keeps.refl s _
  | absolute addr => exact memRead16_keeps _ _
  | indirect rp => exact memRead16_keeps _ _
  | indexed base ri => exact memRead16_keeps _ _

theorem moveToReg_keeps (src : Source) (rd : Reg) (s : State) : Keeps s (moveToReg src rd s) :=
  Keeps.bind (readSource_keeps _ _) fun _ _ _ => Keeps.update () rfl rfl rfl rfl

theorem fetch8_keeps (s : State) : Keeps s (fetch8 s) :=
  Keeps.bind (memRead8_keeps _ _) fun _ _ _ => Keeps.update _ rfl rfl rfl rfl

theorem fetch16_keeps (s : State) : Keeps s (fetch16 s) :=
  Keeps.bind (memRead16_keeps _ _) fun _ _ _ => Keeps.update _ rfl rfl rfl rfl

theorem fetchField_keeps (f : Field) (s : State) : Keeps s (fetchField f s) := by
  cases f with
  | word => exact Keeps.bind (fetch16_keeps _) fun _ t _ => Keeps.refl t _
  | byte => exact Keeps.bind (fetch8_keeps _) fun _ t _ => Keeps.refl t _
  | sel => exact Keeps.bind (fetch8_keeps _) fun _ t _ => Keeps.refl t _

theorem fetchFields_keeps (fs : List Field) (s : State) : Keeps s (fetchFields fs s) := by
  induction fs generalizing s with
  | nil => exact Keeps.refl s _
  | cons f fs ih =>
    exact Keeps.bind (fetchField_keeps _ _) fun _ t _ => Keeps.bind (ih t) fun _ u _ => Keeps.refl u _

theorem decodeOpcode_keeps (op : Byte) (addr : Word) (s : State) : Keeps s (decodeOpcode op addr s) := by
  unfold decodeOpcode
  split
  · exact Keeps.raise s _ (by simp [FaultInfo.code])
  · exact Keeps.bind (fetchFields_keeps _ _) fun _ t _ => Keeps.refl t _

theorem fetchInstr_keeps (s : State) : Keeps s (fetchInstr s) :=
  Keeps.bind (fetch8_keeps _) fun _ _ _ => decodeOpcode_keeps _ _ _

end Sys2Proof.Machine
end

