-- ==== Sys2Proof/Laws/PerInstr.lean ====
section
/-! SUPPORT. One lemma per instruction about its operand bytes: they are as many as its format has (30_encoding.md
R70, R83), and assembling them gives the instruction back, whatever bytes follow (R75 to R78). -/

namespace Sys2Proof.Laws.OperandBytes

/-- The operand bytes of `i` have the length its opcode fixes, and read back as `i`. -/
def Statement (i : Instr) : Prop :=
  i.operandBytes.length = i.mnemonic.operandBytes ∧
    ∀ rest : List Byte, Instr.ofBytes i.mnemonic (i.operandBytes ++ rest) = i

theorem movLitReg (lit : Word) (rd : Reg) : Statement (.movLitReg lit rd) :=
  ⟨rfl, fun rest => by simp [Instr.ofBytes, Instr.assemble, Instr.mnemonic, Instr.operandBytes]⟩

theorem movRegReg (rs : Reg) (rd : Reg) : Statement (.movRegReg rs rd) :=
  ⟨rfl, fun rest => by simp [Instr.ofBytes, Instr.assemble, Instr.mnemonic, Instr.operandBytes]⟩

theorem movRegMem (rs : Reg) (addr : Word) : Statement (.movRegMem rs addr) :=
  ⟨rfl, fun rest => by simp [Instr.ofBytes, Instr.assemble, Instr.mnemonic, Instr.operandBytes]⟩

theorem movMemReg (addr : Word) (rd : Reg) : Statement (.movMemReg addr rd) :=
  ⟨rfl, fun rest => by simp [Instr.ofBytes, Instr.assemble, Instr.mnemonic, Instr.operandBytes]⟩

theorem addRegReg (ra : Reg) (rb : Reg) : Statement (.addRegReg ra rb) :=
  ⟨rfl, fun rest => by simp [Instr.ofBytes, Instr.assemble, Instr.mnemonic, Instr.operandBytes]⟩

theorem jneLit (lit : Word) (t : Word) : Statement (.jneLit lit t) :=
  ⟨rfl, fun rest => by simp [Instr.ofBytes, Instr.assemble, Instr.mnemonic, Instr.operandBytes]⟩

theorem subLitReg (lit : Word) (r : Reg) : Statement (.subLitReg lit r) :=
  ⟨rfl, fun rest => by simp [Instr.ofBytes, Instr.assemble, Instr.mnemonic, Instr.operandBytes]⟩

theorem pshLit (lit : Word) : Statement (.pshLit lit) :=
  ⟨rfl, fun rest => by simp [Instr.ofBytes, Instr.assemble, Instr.mnemonic, Instr.operandBytes]⟩

theorem pshReg (r : Reg) : Statement (.pshReg r) :=
  ⟨rfl, fun rest => by simp [Instr.ofBytes, Instr.assemble, Instr.mnemonic, Instr.operandBytes]⟩

theorem pop (rd : Reg) : Statement (.pop rd) :=
  ⟨rfl, fun rest => by simp [Instr.ofBytes, Instr.assemble, Instr.mnemonic, Instr.operandBytes]⟩

theorem movLitMem (lit : Word) (addr : Word) : Statement (.movLitMem lit addr) :=
  ⟨rfl, fun rest => by simp [Instr.ofBytes, Instr.assemble, Instr.mnemonic, Instr.operandBytes]⟩

theorem movRegPtrReg (rp : Reg) (rd : Reg) : Statement (.movRegPtrReg rp rd) :=
  ⟨rfl, fun rest => by simp [Instr.ofBytes, Instr.assemble, Instr.mnemonic, Instr.operandBytes]⟩

theorem movLitOffReg (base : Word) (ri : Reg) (rd : Reg) : Statement (.movLitOffReg base ri rd) :=
  ⟨rfl, fun rest => by simp [Instr.ofBytes, Instr.assemble, Instr.mnemonic, Instr.operandBytes]⟩

theorem subRegLit (r : Reg) (lit : Word) : Statement (.subRegLit r lit) :=
  ⟨rfl, fun rest => by simp [Instr.ofBytes, Instr.assemble, Instr.mnemonic, Instr.operandBytes]⟩

theorem subRegReg (ra : Reg) (rb : Reg) : Statement (.subRegReg ra rb) :=
  ⟨rfl, fun rest => by simp [Instr.ofBytes, Instr.assemble, Instr.mnemonic, Instr.operandBytes]⟩

theorem mulLitReg (lit : Word) (r : Reg) : Statement (.mulLitReg lit r) :=
  ⟨rfl, fun rest => by simp [Instr.ofBytes, Instr.assemble, Instr.mnemonic, Instr.operandBytes]⟩

theorem mulRegReg (ra : Reg) (rb : Reg) : Statement (.mulRegReg ra rb) :=
  ⟨rfl, fun rest => by simp [Instr.ofBytes, Instr.assemble, Instr.mnemonic, Instr.operandBytes]⟩

theorem lsfRegLit (r : Reg) (lit8 : Byte) : Statement (.lsfRegLit r lit8) :=
  ⟨rfl, fun rest => by simp [Instr.ofBytes, Instr.assemble, Instr.mnemonic, Instr.operandBytes]⟩

theorem lsfRegReg (ra : Reg) (rb : Reg) : Statement (.lsfRegReg ra rb) :=
  ⟨rfl, fun rest => by simp [Instr.ofBytes, Instr.assemble, Instr.mnemonic, Instr.operandBytes]⟩

theorem rsfRegLit (r : Reg) (lit8 : Byte) : Statement (.rsfRegLit r lit8) :=
  ⟨rfl, fun rest => by simp [Instr.ofBytes, Instr.assemble, Instr.mnemonic, Instr.operandBytes]⟩

theorem rsfRegReg (ra : Reg) (rb : Reg) : Statement (.rsfRegReg ra rb) :=
  ⟨rfl, fun rest => by simp [Instr.ofBytes, Instr.assemble, Instr.mnemonic, Instr.operandBytes]⟩

theorem andRegLit (r : Reg) (lit : Word) : Statement (.andRegLit r lit) :=
  ⟨rfl, fun rest => by simp [Instr.ofBytes, Instr.assemble, Instr.mnemonic, Instr.operandBytes]⟩

theorem andRegReg (ra : Reg) (rb : Reg) : Statement (.andRegReg ra rb) :=
  ⟨rfl, fun rest => by simp [Instr.ofBytes, Instr.assemble, Instr.mnemonic, Instr.operandBytes]⟩

theorem orRegLit (r : Reg) (lit : Word) : Statement (.orRegLit r lit) :=
  ⟨rfl, fun rest => by simp [Instr.ofBytes, Instr.assemble, Instr.mnemonic, Instr.operandBytes]⟩

theorem orRegReg (ra : Reg) (rb : Reg) : Statement (.orRegReg ra rb) :=
  ⟨rfl, fun rest => by simp [Instr.ofBytes, Instr.assemble, Instr.mnemonic, Instr.operandBytes]⟩

theorem xorRegLit (r : Reg) (lit : Word) : Statement (.xorRegLit r lit) :=
  ⟨rfl, fun rest => by simp [Instr.ofBytes, Instr.assemble, Instr.mnemonic, Instr.operandBytes]⟩

theorem xorRegReg (ra : Reg) (rb : Reg) : Statement (.xorRegReg ra rb) :=
  ⟨rfl, fun rest => by simp [Instr.ofBytes, Instr.assemble, Instr.mnemonic, Instr.operandBytes]⟩

theorem not (r : Reg) : Statement (.not r) :=
  ⟨rfl, fun rest => by simp [Instr.ofBytes, Instr.assemble, Instr.mnemonic, Instr.operandBytes]⟩

theorem incReg (r : Reg) : Statement (.incReg r) :=
  ⟨rfl, fun rest => by simp [Instr.ofBytes, Instr.assemble, Instr.mnemonic, Instr.operandBytes]⟩

theorem decReg (r : Reg) : Statement (.decReg r) :=
  ⟨rfl, fun rest => by simp [Instr.ofBytes, Instr.assemble, Instr.mnemonic, Instr.operandBytes]⟩

theorem jeqReg (r : Reg) (t : Word) : Statement (.jeqReg r t) :=
  ⟨rfl, fun rest => by simp [Instr.ofBytes, Instr.assemble, Instr.mnemonic, Instr.operandBytes]⟩

theorem addLitReg (lit : Word) (r : Reg) : Statement (.addLitReg lit r) :=
  ⟨rfl, fun rest => by simp [Instr.ofBytes, Instr.assemble, Instr.mnemonic, Instr.operandBytes]⟩

theorem jneReg (r : Reg) (t : Word) : Statement (.jneReg r t) :=
  ⟨rfl, fun rest => by simp [Instr.ofBytes, Instr.assemble, Instr.mnemonic, Instr.operandBytes]⟩

theorem jeqLit (lit : Word) (t : Word) : Statement (.jeqLit lit t) :=
  ⟨rfl, fun rest => by simp [Instr.ofBytes, Instr.assemble, Instr.mnemonic, Instr.operandBytes]⟩

theorem jltReg (r : Reg) (t : Word) : Statement (.jltReg r t) :=
  ⟨rfl, fun rest => by simp [Instr.ofBytes, Instr.assemble, Instr.mnemonic, Instr.operandBytes]⟩

theorem jltLit (lit : Word) (t : Word) : Statement (.jltLit lit t) :=
  ⟨rfl, fun rest => by simp [Instr.ofBytes, Instr.assemble, Instr.mnemonic, Instr.operandBytes]⟩

theorem jgtReg (r : Reg) (t : Word) : Statement (.jgtReg r t) :=
  ⟨rfl, fun rest => by simp [Instr.ofBytes, Instr.assemble, Instr.mnemonic, Instr.operandBytes]⟩

theorem jgtLit (lit : Word) (t : Word) : Statement (.jgtLit lit t) :=
  ⟨rfl, fun rest => by simp [Instr.ofBytes, Instr.assemble, Instr.mnemonic, Instr.operandBytes]⟩

theorem jleReg (r : Reg) (t : Word) : Statement (.jleReg r t) :=
  ⟨rfl, fun rest => by simp [Instr.ofBytes, Instr.assemble, Instr.mnemonic, Instr.operandBytes]⟩

theorem jleLit (lit : Word) (t : Word) : Statement (.jleLit lit t) :=
  ⟨rfl, fun rest => by simp [Instr.ofBytes, Instr.assemble, Instr.mnemonic, Instr.operandBytes]⟩

theorem jgeReg (r : Reg) (t : Word) : Statement (.jgeReg r t) :=
  ⟨rfl, fun rest => by simp [Instr.ofBytes, Instr.assemble, Instr.mnemonic, Instr.operandBytes]⟩

theorem jgeLit (lit : Word) (t : Word) : Statement (.jgeLit lit t) :=
  ⟨rfl, fun rest => by simp [Instr.ofBytes, Instr.assemble, Instr.mnemonic, Instr.operandBytes]⟩

theorem addRegLit (r : Reg) (lit : Word) : Statement (.addRegLit r lit) :=
  ⟨rfl, fun rest => by simp [Instr.ofBytes, Instr.assemble, Instr.mnemonic, Instr.operandBytes]⟩

theorem mulRegLit (r : Reg) (lit : Word) : Statement (.mulRegLit r lit) :=
  ⟨rfl, fun rest => by simp [Instr.ofBytes, Instr.assemble, Instr.mnemonic, Instr.operandBytes]⟩

theorem calLit (t : Word) : Statement (.calLit t) :=
  ⟨rfl, fun rest => by simp [Instr.ofBytes, Instr.assemble, Instr.mnemonic, Instr.operandBytes]⟩

theorem calReg (r : Reg) : Statement (.calReg r) :=
  ⟨rfl, fun rest => by simp [Instr.ofBytes, Instr.assemble, Instr.mnemonic, Instr.operandBytes]⟩

theorem ret : Statement .ret :=
  ⟨rfl, fun _ => rfl⟩

theorem retInt : Statement .retInt :=
  ⟨rfl, fun _ => rfl⟩

theorem int (value : Word) : Statement (.int value) :=
  ⟨rfl, fun rest => by simp [Instr.ofBytes, Instr.assemble, Instr.mnemonic, Instr.operandBytes]⟩

theorem hlt : Statement .hlt :=
  ⟨rfl, fun _ => rfl⟩

end Sys2Proof.Laws.OperandBytes
end

