-- ==== Sys2Proof/Laws/StackFaults.lean ====
section
/-! SUPPORT. Where the sequences of pushes and pops fault, and the state at the point of the raise (60_exceptions.md
R213): the first slot outside memory decides it. -/

namespace Sys2Proof.Machine

/-! ## Pushes -/

/-- A sequence of register pushes whose first slot outside memory is slot `k` has done `k` pushes. -/
theorem pushRegs_faults (rs : List Reg) (s : State) (hsp : Reg.sp ∉ rs) (k : Nat) (hk : k < rs.length)
    (h : ∀ j, j < k → slotInBounds s (s.reg .sp - BitVec.ofNat 16 (2 * j)))
    (hn : ¬ slotInBounds s (s.reg .sp - BitVec.ofNat 16 (2 * k))) :
    pushRegs rs s = .raised ((pushedAll ((rs.take k).map s.reg) s).raise
      (.outOfBounds (s.reg .sp - BitVec.ofNat 16 (2 * k)).toNat 2)) := by
  induction rs generalizing s k with
  | nil => simp at hk
  | cons r rs ih =>
    simp only [List.mem_cons, not_or] at hsp
    cases k with
    | zero =>
      rw [pushRegs, push_outside (by simpa using hn), Access.bind_raised]
      simp [pushedAll_nil]
    | succ k =>
      have h0 : slotInBounds s (s.reg .sp) := by
        have := h 0 (by omega)
        simpa using this
      rw [pushRegs, push_inside h0, Access.bind_ok, ih _ hsp.2 k (by simpa using hk)]
      · have := pushedRegs_cons (r := r) (rs := rs.take k) (s := s) (fun hm => hsp.2 (List.mem_of_mem_take hm))
        rw [this, List.take_succ_cons, pushed_reg, if_pos rfl, slot_sub]
      · intro j hj
        have := h (j+1) (by omega)
        rw [pushed_reg, if_pos rfl, slot_sub]; exact this
      · rw [pushed_reg, if_pos rfl, slot_sub]; exact hn

/-- A frame save whose first slot outside memory is slot `k` has done `k` pushes. -/
theorem pushState_faults (s : State) (k : Nat) (hk : k < 10)
    (h : ∀ j, j < k → slotInBounds s (s.reg .sp - BitVec.ofNat 16 (2 * j)))
    (hn : ¬ slotInBounds s (s.reg .sp - BitVec.ofNat 16 (2 * k))) :
    pushState s = .raised ((pushedAll ((frameWords s).take k) s).raise
      (.outOfBounds (s.reg .sp - BitVec.ofNat 16 (2 * k)).toNat 2)) := by
  by_cases h9 : k < 9
  · rw [pushState, pushRegs_faults frameRegs s (by decide) k h9 h hn, Access.bind_raised]
    have : (frameWords s).take k = (frameRegs.take k).map s.reg := by
      rw [frameWords, List.take_append_of_le_length (by simp [frameRegs]; omega), List.map_take]
    rw [this]
  · have : k = 9 := by omega
    subst this
    rw [pushState, pushRegs_inside frameRegs s (by decide) h, Access.bind_ok, push_outside, Access.bind_raised]
    · rfl
    · exact hn

/-- A context save outside a handler whose first slot outside memory is slot `k` has done `k` pushes. -/
theorem saveContext_faults (s : State) (hn : s.inHandler = false) (k : Nat) (hk : k < 11)
    (h : ∀ j, j < k → slotInBounds s (s.reg .sp - BitVec.ofNat 16 (2 * j)))
    (hb : ¬ slotInBounds s (s.reg .sp - BitVec.ofNat 16 (2 * k))) :
    saveContext s = .raised ((pushedAll ((0 :: frameWords (pushed 0 s)).take k) s).raise
      (.outOfBounds (s.reg .sp - BitVec.ofNat 16 (2 * k)).toNat 2)) := by
  cases k with
  | zero =>
    simp only [saveContext, hn, Bool.false_eq_true, if_false]
    rw [push_outside (by simpa using hb)]; simp [pushedAll_nil]
  | succ k =>
    have h0 : slotInBounds s (s.reg .sp) := by
      have := h 0 (by omega)
      simpa using this
    simp only [saveContext, hn, Bool.false_eq_true, if_false]
    rw [push_inside h0, Access.bind_ok, pushState_faults _ k (by omega)]
    · rw [pushedAll_cons, List.take_succ_cons, pushed_reg, if_pos rfl, slot_sub]
    · intro j hj
      have := h (j+1) (by omega)
      rw [pushed_reg, if_pos rfl, slot_sub]; exact this
    · rw [pushed_reg, if_pos rfl, slot_sub]; exact hb

/-! ## Pops -/

/-- The fault of the pop that reads at `a`, from state `s`: the pop had moved `sp` to `a`, and no memory, `acc`, `im`,
`fp` or `inHandler` had changed. -/
def FaultsAtPop {α : Type} (a : Word) (s : State) (x : Access α) : Prop :=
  ∃ final, x = .raised (.outOfBounds a.toNat 2 final) ∧ final.reg .sp = a ∧ final.mem = s.mem ∧
    final.reg .acc = s.reg .acc ∧ final.reg .im = s.reg .im ∧ final.reg .fp = s.reg .fp ∧
    final.inHandler = s.inHandler ∧ final.config = s.config

theorem FaultsAtPop.bind {α β : Type} {a : Word} {s : State} {x : Access α} {k : α → State → Access β}
    (h : FaultsAtPop a s x) : FaultsAtPop a s (x.bind k) := by
  obtain ⟨final, rfl, h⟩ := h
  exact ⟨final, rfl, h⟩

theorem FaultsAtPop.of_update {α : Type} {a : Word} {s t : State} {x : Access α} (hm : t.mem = s.mem)
    (h1 : t.reg .acc = s.reg .acc) (h2 : t.reg .im = s.reg .im) (h3 : t.reg .fp = s.reg .fp)
    (h4 : t.inHandler = s.inHandler) (h5 : t.config = s.config) (h : FaultsAtPop a t x) : FaultsAtPop a s x := by
  obtain ⟨final, e, g0, g1, g2, g3, g4, g5, g6⟩ := h
  exact ⟨final, e, g0, g1.trans hm, g2.trans h1, g3.trans h2, g4.trans h3, g5.trans h4, g6.trans h5⟩

theorem pop_faults {s : State} (h : ¬ slotInBounds s (s.reg .sp + 2)) : FaultsAtPop (s.reg .sp + 2) s (pop s) := by
  rw [pop_outside h]
  exact ⟨_, rfl, by simp, rfl, by simp, by simp, by simp, rfl, rfl⟩

/-- A sequence of pops into registers whose first slot outside memory is slot `k` faults there. -/
theorem popRegs_faults (rs : List Reg) (s : State) (hr : ∀ r ∈ rs, r ≠ .sp ∧ r ≠ .acc ∧ r ≠ .im ∧ r ≠ .fp) (k : Nat)
    (hk : k < rs.length) (h : ∀ j, j < k → slotInBounds s (s.reg .sp + BitVec.ofNat 16 (2 * (j + 1))))
    (hn : ¬ slotInBounds s (s.reg .sp + BitVec.ofNat 16 (2 * (k + 1)))) :
    FaultsAtPop (s.reg .sp + BitVec.ofNat 16 (2 * (k + 1))) s (popRegs rs s) := by
  induction rs generalizing s k with
  | nil => simp at hk
  | cons r rs ih =>
    obtain ⟨r1, r2, r3, r4⟩ := hr r (by simp)
    cases k with
    | zero =>
      rw [popRegs]
      exact FaultsAtPop.bind (pop_faults hn)
    | succ k =>
      rw [popRegs, pop_inside (h 0 (by omega)), Access.bind_ok]
      have e : ∀ j, ((popped s).setReg r (wordAt s (s.reg .sp + 2).toNat)).reg .sp + BitVec.ofNat 16 (2 * (j + 1)) =
          s.reg .sp + BitVec.ofNat 16 (2 * (j + 1 + 1)) := by
        intro j
        rw [State.reg_setReg, if_neg (Ne.symm r1), popped_reg, if_pos rfl, slot_add]
      rw [← e]
      refine FaultsAtPop.of_update (t := (popped s).setReg r (wordAt s (s.reg .sp + 2).toNat)) rfl ?_ ?_ ?_ rfl rfl
        (ih _ (fun q hq => hr q (List.mem_cons_of_mem _ hq)) k (by simpa using hk) (fun j hj => ?_) ?_)
      · simp [Ne.symm r2]
      · simp [Ne.symm r3]
      · simp [Ne.symm r4]
      · rw [e]; exact h (j + 1) (by omega)
      · rw [e]; exact hn

/-- Discarding `n` words of which the first outside memory is word `k` faults there. -/
theorem popDiscard_faults (n : Nat) (s : State) (k : Nat) (hk : k < n)
    (h : ∀ j, j < k → slotInBounds s (s.reg .sp + BitVec.ofNat 16 (2 * (j + 1))))
    (hn : ¬ slotInBounds s (s.reg .sp + BitVec.ofNat 16 (2 * (k + 1)))) :
    FaultsAtPop (s.reg .sp + BitVec.ofNat 16 (2 * (k + 1))) s (popDiscard n s) := by
  induction n generalizing s k with
  | zero => omega
  | succ n ih =>
    cases k with
    | zero =>
      rw [popDiscard]
      exact FaultsAtPop.bind (pop_faults hn)
    | succ k =>
      rw [popDiscard, pop_inside (h 0 (by omega)), Access.bind_ok]
      have e : ∀ j, (popped s).reg .sp + BitVec.ofNat 16 (2 * (j + 1)) =
          s.reg .sp + BitVec.ofNat 16 (2 * (j + 1 + 1)) := by
        intro j
        rw [popped_reg, if_pos rfl, slot_add]
      rw [← e]
      refine FaultsAtPop.of_update (t := popped s) rfl (by simp) (by simp) (by simp) rfl rfl
        (ih _ k (by omega) (fun j hj => ?_) ?_)
      · rw [e]; exact h (j + 1) (by omega)
      · rw [e]; exact hn

theorem slotInBounds_congr {s t : State} (h : t.config = s.config) (a : Word) : slotInBounds t a ↔ slotInBounds s a := by
  unfold slotInBounds; rw [h]

/-- The state inside `popState()` after the frame size is popped. -/
def sized (s : State) : State :=
  (popped (s.setReg .sp (s.reg .fp))).setSfs (frameSlot s 0 - s.config.readings.popStateSfsAdjust)

theorem sized_slot (s : State) (j : Nat) :
    (sized s).reg .sp + BitVec.ofNat 16 (2 * (j + 1)) = s.reg .fp + BitVec.ofNat 16 (2 * (j + 1 + 1)) := by
  rw [sized, State.reg_setSfs, popped_reg, if_pos rfl, State.reg_setReg, if_pos rfl, slot_add]

/-- `popState()` after the frame size, which is in bounds. -/
theorem popState_sized {s : State} (h : slotInBounds s (s.reg .fp + 2)) :
    popState s = (popRegs frameRegs.reverse (sized s)).bind fun _ t => (pop t).bind fun argCount t =>
      (popDiscard argCount.toNat t).bind fun _ t => .ok () (t.setReg .fp (s.reg .fp + frameSlot s 0)) := by
  have h0 : slotInBounds (s.setReg .sp (s.reg .fp)) ((s.setReg .sp (s.reg .fp)).reg .sp + 2) := by
    simpa [slotInBounds] using h
  have e0 : wordAt (s.setReg .sp (s.reg .fp)) ((s.setReg .sp (s.reg .fp)).reg .sp + 2).toNat = frameSlot s 0 := by
    simp [frameSlot, wordAt]
  simp only [popState, pop_inside h0, Access.bind_ok, e0]
  rfl

/-- `popState()` after the nine saved registers, which are in bounds too. -/
theorem popState_unframed {s : State} (h : ∀ k, k < 10 → slotInBounds s (s.reg .fp + BitVec.ofNat 16 (2 * (k + 1)))) :
    popState s = (pop (unframed s)).bind fun argCount t =>
      (popDiscard argCount.toNat t).bind fun _ t => .ok () (t.setReg .fp (s.reg .fp + frameSlot s 0)) := by
  rw [popState_sized (h 0 (by omega)), popRegs_inside _ _ (by decide), Access.bind_ok]
  · rfl
  · intro k hk
    rw [sized_slot]
    exact h (k + 1) (by simp [frameRegs] at hk; omega)

theorem unframed_slot (s : State) (j : Nat) :
    (unframed s).reg .sp + BitVec.ofNat 16 (2 * (j + 1)) = s.reg .fp + BitVec.ofNat 16 (2 * (10 + j + 1)) := by
  rw [unframed_sp, show 2 * (10 + j + 1) = 20 + 2 * (j + 1) by omega, BitVec.ofNat_add]
  bv_omega

theorem frameArgs_eq (s : State) : wordAt (unframed s) ((unframed s).reg .sp + 2).toNat = frameSlot s 10 := by
  have := unframed_slot s 0
  simp only [Nat.zero_add, Nat.mul_one, Nat.add_zero] at this
  rw [show (2 : Word) = BitVec.ofNat 16 2 from rfl, this]
  simp [frameSlot, wordAt]

/-- A frame restore whose first slot outside memory is slot `k` above `fp` faults there (60_exceptions.md R213). -/
theorem popState_faults (s : State) (k : Nat) (hk : k < 11 + frameArgs s)
    (h : ∀ j, j < k → slotInBounds s (s.reg .fp + BitVec.ofNat 16 (2 * (j + 1))))
    (hn : ¬ slotInBounds s (s.reg .fp + BitVec.ofNat 16 (2 * (k + 1)))) :
    FaultsAtPop (s.reg .fp + BitVec.ofNat 16 (2 * (k + 1))) s (popState s) := by
  rcases Nat.eq_zero_or_pos k with rfl | hpos
  · refine FaultsAtPop.of_update (t := s.setReg .sp (s.reg .fp)) rfl (by simp) (by simp) (by simp) rfl rfl ?_
    have := pop_faults (s := s.setReg .sp (s.reg .fp)) (by simpa [slotInBounds] using hn)
    simp only [State.reg_setReg, if_true] at this
    exact FaultsAtPop.bind this
  by_cases h9 : k < 10
  · rw [popState_sized (h 0 hpos)]
    refine FaultsAtPop.bind ?_
    obtain ⟨j, rfl⟩ : ∃ j, k = j + 1 := ⟨k - 1, by omega⟩
    rw [← sized_slot] at hn ⊢
    refine FaultsAtPop.of_update (t := sized s) rfl (by simp [sized]) (by simp [sized]) (by simp [sized]) rfl rfl
      (popRegs_faults frameRegs.reverse _ (by decide) j (by simp [frameRegs]; omega) (fun i hi => ?_) hn)
    rw [sized_slot]
    exact h (i + 1) (by omega)
  have other : ∀ q, q = .acc ∨ q = .im ∨ q = .fp → (unframed s).reg q = s.reg q := unframed_other s
  rw [popState_unframed fun j hj => h j (by omega)]
  refine FaultsAtPop.of_update (t := unframed s) (by simp) (other _ (by simp)) (other _ (by simp)) (other _ (by simp))
    (by simp) (by simp) ?_
  obtain ⟨j, rfl⟩ : ∃ j, k = 10 + j := ⟨k - 10, by omega⟩
  rw [← unframed_slot] at hn ⊢
  have h' : ∀ i, i < j → slotInBounds (unframed s) ((unframed s).reg .sp + BitVec.ofNat 16 (2 * (i + 1))) := by
    intro i hi
    rw [unframed_slot, slotInBounds_congr (unframed_config s)]
    exact h (10 + i) (by omega)
  rw [← slotInBounds_congr (unframed_config s)] at hn
  cases j with
  | zero => exact FaultsAtPop.bind (pop_faults hn)
  | succ j =>
    rw [pop_inside (h' 0 (by omega)), Access.bind_ok, frameArgs_eq]
    have e : ∀ i, (popped (unframed s)).reg .sp + BitVec.ofNat 16 (2 * (i + 1)) =
        (unframed s).reg .sp + BitVec.ofNat 16 (2 * (i + 1 + 1)) := by
      intro i
      rw [popped_reg, if_pos rfl, slot_add]
    rw [← e] at hn ⊢
    refine FaultsAtPop.bind (FaultsAtPop.of_update (t := popped (unframed s)) (popped_mem _) (by simp) (by simp) (by simp)
      (popped_inHandler _) (popped_config _)
      (popDiscard_faults _ _ j ?_ (fun i hi => ?_) ((slotInBounds_congr (popped_config _) _).not.2 hn)))
    · have : frameArgs s = (frameSlot s 10).toNat := rfl
      omega
    · rw [e, slotInBounds_congr (popped_config _)]
      exact h' (i + 1) (by omega)

end Sys2Proof.Machine
end

