-- ==== Sys2Proof/Tests/Slice0.lean ====
section
/-! SUPPORT. Tests of the model: the checks of WellFormed, one decoded word of every constructor,
  single steps from the
spec's own vectors (95_test_vectors.md) and worked examples, the ports,
  and for every obligation with hypotheses a state
that meets them. -/

open Sys2Proof Sys2Proof.Machine

namespace Sys2Proof.Tests

/-- The reset state of configuration `c` with `code` at `addr`, `ip` there, and the registers and bytes a vector
names. -/
def startWith (c : Config) (addr : Word) (code : List Byte) (regs : List (Reg × Word)) (data : List (Nat × List Byte))
  :
    State :=
  let s := placeBytes code addr ((State.resetWith c).setReg .ip addr)
  let s := regs.foldl (fun s p => s.setReg p.1 p.2) s
  data.foldl (fun s p => s.setMem (s.mem.writeBytes p.1 p.2)) s

/-- The state an outcome leaves: the next state, or the state at the point of the raise. -/
def left (o : Host.Outcome State Fault Refusal) (s : State) : State :=
  match o with
  | .next t => t
  | .fault f => f.final
  | .refused _ => s

/-- The state one `STEP` leaves. -/
def stepped (s : State) : State := left (step s) s

/-- The response, some registers, and the `n` bytes at `a`. -/
def look (t : State) (rs : List Reg) (a n : Nat) : Response × List Word × List Byte :=
  (t.response, rs.map t.reg, (List.range n).map fun k => t.mem.byteAt (a + k))

/-- The hidden state. -/
def hidden (t : State) : Bool × Word := (t.inHandler, t.sfs)

/-- Why an outcome is a refusal. -/
def refusal (o : Host.Outcome State Fault Refusal) : Option Refusal :=
  match o with
  | .next _ => none
  | .fault _ => none
  | .refused r => some r

/-- The default configuration with another `MEM_SIZE`. -/
def memConfig (n : Nat) : Config := { Config.default with memSize := n }

/-- The default configuration with another `IVT_BASE`. -/
def ivtConfig (base : Word) : Config := { Config.default with ivtBase := base }

/-- The default configuration with other readings. -/
def readConfig (r : Readings) : Config := { Config.default with readings := r }

/-! ## WellFormed: each check refuses an ill-formed term -/

/-- An opcode map in which MOV_REG_REG has MOV_LIT_REG's byte (00_scope.md R11). -/
def clashingMap : OpcodeMap := OpcodeMap.default.map fun row => if row.2 = .movRegReg then (0x10, row.2) else row

/-- An opcode map without HLT. -/
def shortMap : OpcodeMap := OpcodeMap.default.filter fun row => row.2 != .hlt

theorem test_memSizeLegal_refuses_zero : (memConfig 0).memSizeLegal = false := by decide

theorem test_memSizeLegal_refuses_65537 : (memConfig 65537).memSizeLegal = false := by decide

theorem test_injective_refuses_clash : clashingMap.injective = false := by decide

theorem test_total_refuses_missing_row : shortMap.total = false := by decide

theorem test_legal_refuses_clash : clashingMap.legal = false ∧ clashingMap.total = true := by decide

theorem test_legal_refuses_missing_row : shortMap.legal = false ∧ shortMap.injective = true := by decide

theorem test_config_legal_refuses : (memConfig 0).legal = false ∧
    ({ Config.default with opcodeMap := clashingMap } : Config).legal = false := by decide

theorem test_default_legal : Config.default.legal = true ∧ (memConfig 1).legal = true := by decide

theorem test_configure_refuses : refusal (configure (memConfig 65537)) = some .illegalMemSize ∧
    refusal (configure { Config.default with opcodeMap := shortMap }) = some .illegalOpcodeMap := by decide

/-! ## Decoding: one word of every constructor, as the spec writes it (the rules' examples, 95_test_vectors.md) -/


theorem test_decode_movLitReg : -- R100
    decode OpcodeMap.default [0x10, 0x12, 0x34, 0x02] = .ok (.movLitReg 0x1234 .r1, []) := by decide

theorem test_decode_movRegReg : -- R101
    decode OpcodeMap.default [0x11, 0x02, 0x03] = .ok (.movRegReg .r1 .r2, []) := by decide

theorem test_decode_movRegMem : -- R102
    decode OpcodeMap.default [0x12, 0x04, 0x30, 0x00] = .ok (.movRegMem .r3 0x3000, []) := by decide

theorem test_decode_movMemReg : -- R103
    decode OpcodeMap.default [0x13, 0x20, 0x02, 0x07] = .ok (.movMemReg 0x2002 .r6, []) := by decide

theorem test_decode_movLitMem : -- R104
    decode OpcodeMap.default [0x1B, 0x02, 0x00, 0x10, 0x06] = .ok (.movLitMem 0x0200 0x1006, []) := by decide

theorem test_decode_movRegPtrReg : -- R105
    decode OpcodeMap.default [0x1C, 0x05, 0x06] = .ok (.movRegPtrReg .r4 .r5, []) := by decide

theorem test_decode_movLitOffReg : -- R106
    decode OpcodeMap.default [0x1D, 0x20, 0x00, 0x03, 0x04] = .ok (.movLitOffReg 0x2000 .r2 .r3, []) := by decide

theorem test_decode_addRegReg : -- R121
    decode OpcodeMap.default [0x14, 0x03, 0x04] = .ok (.addRegReg .r2 .r3, []) := by decide

theorem test_decode_addLitReg : -- R122
    decode OpcodeMap.default [0x3F, 0x00, 0x01, 0x02] = .ok (.addLitReg 0x0001 .r1, []) := by decide

theorem test_decode_addRegLit : -- R123
    decode OpcodeMap.default [0x50, 0x02, 0x00, 0x03] = .ok (.addRegLit .r1 0x0003, []) := by decide

theorem test_decode_subRegReg : -- R124
    decode OpcodeMap.default [0x1F, 0x02, 0x03] = .ok (.subRegReg .r1 .r2, []) := by decide

theorem test_decode_subLitReg : -- R125
    decode OpcodeMap.default [0x16, 0x00, 0x05, 0x02] = .ok (.subLitReg 0x0005 .r1, []) := by decide

theorem test_decode_subRegLit : -- R126
    decode OpcodeMap.default [0x1E, 0x02, 0x00, 0x05] = .ok (.subRegLit .r1 0x0005, []) := by decide

theorem test_decode_mulRegReg : -- R127
    decode OpcodeMap.default [0x21, 0x02, 0x03] = .ok (.mulRegReg .r1 .r2, []) := by decide

theorem test_decode_mulLitReg : -- R128
    decode OpcodeMap.default [0x20, 0x00, 0x07, 0x02] = .ok (.mulLitReg 0x0007 .r1, []) := by decide

theorem test_decode_mulRegLit : -- R129
    decode OpcodeMap.default [0x51, 0x02, 0x00, 0x02] = .ok (.mulRegLit .r1 0x0002, []) := by decide

theorem test_decode_incReg : -- R130
    decode OpcodeMap.default [0x35, 0x02] = .ok (.incReg .r1, []) := by decide

theorem test_decode_decReg : -- R131
    decode OpcodeMap.default [0x36, 0x02] = .ok (.decReg .r1, []) := by decide

theorem test_decode_lsfRegLit : -- R141
    decode OpcodeMap.default [0x26, 0x02, 0x01] = .ok (.lsfRegLit .r1 0x01, []) := by decide

theorem test_decode_lsfRegReg : -- R142
    decode OpcodeMap.default [0x27, 0x02, 0x03] = .ok (.lsfRegReg .r1 .r2, []) := by decide

theorem test_decode_rsfRegLit : -- R143
    decode OpcodeMap.default [0x2A, 0x02, 0x0F] = .ok (.rsfRegLit .r1 0x0F, []) := by decide

theorem test_decode_rsfRegReg : -- R144
    decode OpcodeMap.default [0x2B, 0x02, 0x03] = .ok (.rsfRegReg .r1 .r2, []) := by decide

theorem test_decode_andRegLit : -- R145
    decode OpcodeMap.default [0x2E, 0x02, 0x3C, 0x3C] = .ok (.andRegLit .r1 0x3C3C, []) := by decide

theorem test_decode_andRegReg : -- R146
    decode OpcodeMap.default [0x2F, 0x02, 0x03] = .ok (.andRegReg .r1 .r2, []) := by decide

theorem test_decode_orRegLit : -- R147
    decode OpcodeMap.default [0x30, 0x02, 0x3C, 0x3C] = .ok (.orRegLit .r1 0x3C3C, []) := by decide

theorem test_decode_orRegReg : -- R148
    decode OpcodeMap.default [0x31, 0x02, 0x03] = .ok (.orRegReg .r1 .r2, []) := by decide

theorem test_decode_xorRegLit : -- R149
    decode OpcodeMap.default [0x32, 0x02, 0xFF, 0xFF] = .ok (.xorRegLit .r1 0xFFFF, []) := by decide

theorem test_decode_xorRegReg : -- R150
    decode OpcodeMap.default [0x33, 0x04, 0x06] = .ok (.xorRegReg .r3 .r5, []) := by decide

theorem test_decode_not : -- R151
    decode OpcodeMap.default [0x34, 0x02] = .ok (.not .r1, []) := by decide

theorem test_decode_jneLit : -- R161
    decode OpcodeMap.default [0x15, 0x00, 0x05, 0x00, 0x04] = .ok (.jneLit 0x0005 0x0004, []) := by decide

theorem test_decode_jneReg : -- R162
    decode OpcodeMap.default [0x40, 0x02, 0x01, 0x00] = .ok (.jneReg .r1 0x0100, []) := by decide

theorem test_decode_jeqLit : -- R163
    decode OpcodeMap.default [0x41, 0x00, 0x05, 0x02, 0x00] = .ok (.jeqLit 0x0005 0x0200, []) := by decide

theorem test_decode_jeqReg : -- R164
    decode OpcodeMap.default [0x3E, 0x01, 0x00, 0x40] = .ok (.jeqReg .acc 0x0040, []) := by decide

theorem test_decode_jltLit : -- R165
    decode OpcodeMap.default [0x43, 0x00, 0x03, 0x02, 0x00] = .ok (.jltLit 0x0003 0x0200, []) := by decide

theorem test_decode_jltReg : -- R166
    decode OpcodeMap.default [0x42, 0x02, 0x02, 0x00] = .ok (.jltReg .r1 0x0200, []) := by decide

theorem test_decode_jgtLit : -- R167
    decode OpcodeMap.default [0x45, 0x00, 0x07, 0x02, 0x00] = .ok (.jgtLit 0x0007 0x0200, []) := by decide

theorem test_decode_jgtReg : -- R168
    decode OpcodeMap.default [0x44, 0x02, 0x02, 0x00] = .ok (.jgtReg .r1 0x0200, []) := by decide

theorem test_decode_jleLit : -- R169
    decode OpcodeMap.default [0x47, 0x00, 0x05, 0x02, 0x00] = .ok (.jleLit 0x0005 0x0200, []) := by decide

theorem test_decode_jleReg : -- R170
    decode OpcodeMap.default [0x46, 0x02, 0x02, 0x00] = .ok (.jleReg .r1 0x0200, []) := by decide

theorem test_decode_jgeLit : -- R171
    decode OpcodeMap.default [0x49, 0x00, 0x04, 0x02, 0x00] = .ok (.jgeLit 0x0004 0x0200, []) := by decide

theorem test_decode_jgeReg : -- R172
    decode OpcodeMap.default [0x48, 0x02, 0x02, 0x00] = .ok (.jgeReg .r1 0x0200, []) := by decide

theorem test_decode_pshLit : -- R186
    decode OpcodeMap.default [0x17, 0x33, 0x33] = .ok (.pshLit 0x3333, []) := by decide

theorem test_decode_pshReg : -- R187
    decode OpcodeMap.default [0x18, 0x01] = .ok (.pshReg .acc, []) := by decide

theorem test_decode_pop : -- V79
    decode OpcodeMap.default [0x1A, 0x0A] = .ok (.pop .sp, []) := by decide

theorem test_decode_calLit : -- R189
    decode OpcodeMap.default [0x5E, 0x01, 0x00] = .ok (.calLit 0x0100, []) := by decide

theorem test_decode_calReg : -- R190
    decode OpcodeMap.default [0x5F, 0x06] = .ok (.calReg .r5, []) := by decide

theorem test_decode_ret : -- R191
    decode OpcodeMap.default [0x60] = .ok (.ret, []) := by decide

theorem test_decode_retInt : -- R201
    decode OpcodeMap.default [0xFC] = .ok (.retInt, []) := by decide

theorem test_decode_int : -- R200
    decode OpcodeMap.default [0xFD, 0x00, 0x12] = .ok (.int 0x0012, []) := by decide

theorem test_decode_hlt : -- R202
    decode OpcodeMap.default [0xFF] = .ok (.hlt, []) := by decide


/-! ## One step, as 95_test_vectors.md and the rules' examples give it -/


theorem test_step_illegal_opcode : -- V1
    look (stepped (startWith Config.default 0x0000 [0x00] [] [])) [.ip] 0 0 =
      (.fault (.illegalInstruction 0x00 0x0000), [0x0001], []) := by decide

theorem test_step_selector_wraps : -- V4
    look (stepped (startWith Config.default 0x0000 [0x10, 0xAB, 0xCD, 0xFF] [] [])) [.r7, .ip] 0 0 =
      (.running, [0xABCD, 0x0004], []) := by decide

theorem test_step_word_field_past_end : -- V6
    look (stepped (startWith Config.default 0xFFFE [0x10, 0x12] [] [])) [.ip, .r1] 0 0 =
      (.fault (.outOfBounds 0xFFFF 2), [0xFFFF, 0x0000], []) := by decide

theorem test_step_movRegReg_from_ip : -- V13
    look (stepped (startWith Config.default 0x0000 [0x11, 0x00, 0x02] [] [])) [.r1] 0 0 =
      (.running, [0x0003], []) := by decide

theorem test_step_movRegReg : -- R101
    look (stepped (startWith Config.default 0x0000 [0x11, 0x02, 0x03] [(.r1, 0xBEEF)] [])) [.r2, .r1, .ip] 0 0 =
      (.running, [0xBEEF, 0xBEEF, 0x0003], []) := by decide

theorem test_step_movRegMem_last_word : -- V14
    look (stepped (startWith Config.default 0x0000 [0x12, 0x02, 0xFF, 0xFE] [(.r1, 0x1234)] [])) [.ip] 0xFFFE 2 =
      (.running, [0x0004], [0x12, 0x34]) := by decide

theorem test_step_movRegMem_past_end : -- V15
    look (stepped (startWith Config.default 0x0000 [0x12, 0x02, 0xFF, 0xFF] [(.r1, 0x1234)] [])) [.ip] 0xFFFE 2 =
      (.fault (.outOfBounds 0xFFFF 2), [0x0004], [0x00, 0x00]) := by decide

theorem test_step_movMemReg_past_end : -- V16
    look (stepped (startWith Config.default 0x0000 [0x13, 0xFF, 0xFF, 0x02] [] [])) [.ip, .r1] 0 0 =
      (.fault (.outOfBounds 0xFFFF 2), [0x0004, 0x0000], []) := by decide

theorem test_step_movMemReg : -- V17
    look (stepped (startWith Config.default 0x0000 [0x13, 0x20, 0x02, 0x07] [] [(0x2002, [0xAB, 0xCD])])) [.r6] 0 0 =
      (.running, [0xABCD], []) := by decide

theorem test_step_movLitMem : -- V18
    look (stepped (startWith Config.default 0x0000 [0x1B, 0x12, 0x34, 0x00, 0x10] [] [])) [.ip] 0x0010 2 =
      (.running, [0x0005], [0x12, 0x34]) := by decide

theorem test_step_movLitMem_past_end : -- L1.2c
    look (stepped (startWith Config.default 0x0000 [0x1B, 0x12, 0x34, 0xFF, 0xFF] [] [])) [.ip] 0xFFFF 1 =
      (.fault (.outOfBounds 0xFFFF 2), [0x0005], [0x00]) := by decide

theorem test_step_movRegPtrReg_same_register : -- V19
    look (stepped (startWith Config.default 0x0000 [0x1C, 0x02, 0x02] [] [])) [.r1] 0 0 =
      (.running, [0x1C02], []) := by decide

theorem test_step_movRegPtrReg : -- V20
    look (stepped (startWith Config.default 0x0000 [0x1C, 0x05, 0x06] [(.r4, 0x2002)] [(0x2002, [0xAB, 0xCD])])) [.r5]
      0 0 =
      (.running, [0xABCD], []) := by decide

theorem test_step_movLitOffReg_exact_sum : -- V21
    look (stepped (startWith Config.default 0x0000 [0x1D, 0xFF, 0xFF, 0x02, 0x03] [(.r1, 0x0001)] [])) [.ip, .r2]
      0 0 =
      (.fault (.outOfBounds 0x10000 2), [0x0005, 0x0000], []) := by decide

theorem test_step_movLitOffReg : -- V23
    look (stepped (startWith Config.default 0x0000 [0x1D, 0x20, 0x00, 0x03, 0x04] [(.r2, 0x0002)] [(0x2002, [0xAB,
      0xCD])])) [.r3] 0 0 =
      (.running, [0xABCD], []) := by decide

theorem test_step_addRegReg_wraps : -- V24
    look (stepped (startWith Config.default 0x0000 [0x14, 0x02, 0x03] [(.r1, 0xFFFF), (.r2, 0x0001)] [])) [.acc] 0 0 =
      (.running, [0x0000], []) := by decide

theorem test_step_addRegReg : -- R121
    look (stepped (startWith Config.default 0x0000 [0x14, 0x03, 0x04] [(.r2, 0x2222), (.r3, 0x3333)] [])) [.acc] 0 0 =
      (.running, [0x5555], []) := by decide

theorem test_step_addLitReg : -- V26
    look (stepped (startWith Config.default 0x0000 [0x3F, 0x00, 0x01, 0x02] [(.r1, 0x1234)] [])) [.acc, .r1] 0 0 =
      (.running, [0x1235, 0x1234], []) := by decide

theorem test_step_addRegLit : -- V27
    look (stepped (startWith Config.default 0x0000 [0x50, 0x02, 0x00, 0x03] [(.r1, 0xFFFE)] [])) [.acc] 0 0 =
      (.running, [0x0001], []) := by decide

theorem test_step_subRegReg : -- V28
    look (stepped (startWith Config.default 0x0000 [0x1F, 0x02, 0x03] [(.r1, 0x0010), (.r2, 0x0005)] [])) [.acc] 0 0 =
      (.running, [0x000B], []) := by decide

theorem test_step_subRegReg_wraps : -- V29
    look (stepped (startWith Config.default 0x0000 [0x1F, 0x02, 0x03] [(.r1, 0x0000), (.r2, 0x0001)] [])) [.acc] 0 0 =
      (.running, [0xFFFF], []) := by decide

theorem test_step_subLitReg : -- V31
    look (stepped (startWith Config.default 0x0000 [0x16, 0x00, 0x05, 0x02] [(.r1, 0x0010)] [])) [.acc, .r1] 0 0 =
      (.running, [0x000B, 0x0010], []) := by decide

theorem test_step_subRegLit : -- V32
    look (stepped (startWith Config.default 0x0000 [0x1E, 0x02, 0x00, 0x05] [(.r1, 0x0010)] [])) [.acc, .r1] 0 0 =
      (.running, [0xFFF5, 0x0010], []) := by decide

theorem test_step_mulRegReg_low_half : -- V33
    look (stepped (startWith Config.default 0x0000 [0x21, 0x02, 0x03] [(.r1, 0xFFFF), (.r2, 0xFFFF)] [])) [.acc] 0 0 =
      (.running, [0x0001], []) := by decide

theorem test_step_mulRegReg : -- R127
    look (stepped (startWith Config.default 0x0000 [0x21, 0x02, 0x03] [(.r1, 0x1234), (.r2, 0x0010)] [])) [.acc] 0 0 =
      (.running, [0x2340], []) := by decide

theorem test_step_mulLitReg : -- R128
    look (stepped (startWith Config.default 0x0000 [0x20, 0x00, 0x07, 0x02] [(.r1, 0x0003)] [])) [.acc] 0 0 =
      (.running, [0x0015], []) := by decide

theorem test_step_mulRegLit : -- V35
    look (stepped (startWith Config.default 0x0000 [0x51, 0x02, 0x01, 0x00] [(.r1, 0x0123)] [])) [.acc] 0 0 =
      (.running, [0x2300], []) := by decide

theorem test_step_incReg_wraps : -- V37
    look (stepped (startWith Config.default 0x0000 [0x35, 0x02] [(.r1, 0xFFFF), (.acc, 0x0007)] [])) [.r1, .acc] 0 0 =
      (.running, [0x0000, 0x0007], []) := by decide

theorem test_step_incReg_ip : -- V38
    look (stepped (startWith Config.default 0x0000 [0x35, 0x00] [] [])) [.ip] 0 0 =
      (.running, [0x0003], []) := by decide

theorem test_step_decReg_acc : -- V40
    look (stepped (startWith Config.default 0x0000 [0x36, 0x01] [] [])) [.acc] 0 0 =
      (.running, [0xFFFF], []) := by decide

theorem test_step_decReg : -- R131
    look (stepped (startWith Config.default 0x0000 [0x36, 0x02] [(.r1, 0x0000)] [])) [.r1, .acc] 0 0 =
      (.running, [0xFFFF, 0x0000], []) := by decide

theorem test_step_lsfRegLit_sixteen : -- V41
    look (stepped (startWith Config.default 0x0000 [0x26, 0x02, 0x10] [(.r1, 0xFFFF)] [])) [.r1] 0 0 =
      (.running, [0x0000], []) := by decide

theorem test_step_lsfRegLit_fifteen : -- V42
    look (stepped (startWith Config.default 0x0000 [0x26, 0x02, 0x0F] [(.r1, 0x0003)] [])) [.r1, .acc] 0 0 =
      (.running, [0x8000, 0x0000], []) := by decide

theorem test_step_lsfRegReg_256 : -- V45
    look (stepped (startWith Config.default 0x0000 [0x27, 0x02, 0x03] [(.r1, 0x0001), (.r2, 0x0100)] [])) [.r1] 0 0 =
      (.running, [0x0000], []) := by decide

theorem test_step_lsfRegReg : -- R142
    look (stepped (startWith Config.default 0x0000 [0x27, 0x02, 0x03] [(.r1, 0x0001), (.r2, 0x000F)] [])) [.r1] 0 0 =
      (.running, [0x8000], []) := by decide

theorem test_step_rsfRegLit_255 : -- V46
    look (stepped (startWith Config.default 0x0000 [0x2A, 0x02, 0xFF] [(.r1, 0xFFFF)] [])) [.r1] 0 0 =
      (.running, [0x0000], []) := by decide

theorem test_step_rsfRegLit_logical : -- V47
    look (stepped (startWith Config.default 0x0000 [0x2A, 0x02, 0x0F] [(.r1, 0x8000)] [])) [.r1] 0 0 =
      (.running, [0x0001], []) := by decide

theorem test_step_rsfRegReg_same_register : -- V48
    look (stepped (startWith Config.default 0x0000 [0x2B, 0x02, 0x02] [(.r1, 0x0004)] [])) [.r1] 0 0 =
      (.running, [0x0000], []) := by decide

theorem test_step_rsfRegReg : -- V49
    look (stepped (startWith Config.default 0x0000 [0x2B, 0x02, 0x03] [(.r1, 0xF000), (.r2, 0x0004)] [])) [.r1] 0 0 =
      (.running, [0x0F00], []) := by decide

theorem test_step_andRegLit : -- R145
    look (stepped (startWith Config.default 0x0000 [0x2E, 0x02, 0x3C, 0x3C] [(.r1, 0xF0F0)] [])) [.acc, .r1] 0 0 =
      (.running, [0x3030, 0xF0F0], []) := by decide

theorem test_step_andRegReg : -- V51
    look (stepped (startWith Config.default 0x0000 [0x2F, 0x02, 0x03] [(.r1, 0xF0F0), (.r2, 0x3C3C)] [])) [.acc] 0 0 =
      (.running, [0x3030], []) := by decide

theorem test_step_orRegLit : -- V52
    look (stepped (startWith Config.default 0x0000 [0x30, 0x02, 0x3C, 0x3C] [(.r1, 0xF0F0)] [])) [.acc] 0 0 =
      (.running, [0xFCFC], []) := by decide

theorem test_step_orRegReg_same_register : -- V53
    look (stepped (startWith Config.default 0x0000 [0x31, 0x02, 0x02] [(.r1, 0x1234)] [])) [.acc] 0 0 =
      (.running, [0x1234], []) := by decide

theorem test_step_xorRegLit : -- V54
    look (stepped (startWith Config.default 0x0000 [0x32, 0x02, 0xFF, 0xFF] [(.r1, 0x1234)] [])) [.acc] 0 0 =
      (.running, [0xEDCB], []) := by decide

theorem test_step_xorRegReg : -- V55
    look (stepped (startWith Config.default 0x0000 [0x33, 0x04, 0x06] [(.r3, 0xABCD), (.r5, 0xABCD), (.acc, 0x0001)]
      [])) [.acc] 0 0 =
      (.running, [0x0000], []) := by decide

theorem test_step_not : -- V56
    look (stepped (startWith Config.default 0x0000 [0x34, 0x02] [] [])) [.acc, .r1] 0 0 =
      (.running, [0xFFFF, 0x0000], []) := by decide

theorem test_step_not_acc : -- V57
    look (stepped (startWith Config.default 0x0000 [0x34, 0x01] [(.acc, 0x00FF)] [])) [.acc] 0 0 =
      (.running, [0xFF00], []) := by decide

theorem test_step_jneLit_not_taken : -- V58
    look (stepped (startWith Config.default 0x0000 [0x15, 0x00, 0x05, 0x00, 0x40] [(.acc, 0x0005)] [])) [.ip] 0 0 =
      (.running, [0x0005], []) := by decide

theorem test_step_jneLit_taken : -- V59
    look (stepped (startWith Config.default 0x0000 [0x15, 0x00, 0x05, 0x00, 0x40] [(.acc, 0x0003)] [])) [.ip] 0 0 =
      (.running, [0x0040], []) := by decide

theorem test_step_jneReg_ip : -- V60
    look (stepped (startWith Config.default 0x0000 [0x40, 0x00, 0x12, 0x34] [(.acc, 0x0004)] [])) [.ip] 0 0 =
      (.running, [0x0004], []) := by decide

theorem test_step_jneReg_taken : -- R162
    look (stepped (startWith Config.default 0x0000 [0x40, 0x02, 0x01, 0x00] [(.r1, 0x0001), (.acc, 0x0002)] [])) [.ip]
      0 0 =
      (.running, [0x0100], []) := by decide

theorem test_step_jeqLit_taken : -- V61
    look (stepped (startWith Config.default 0x0000 [0x41, 0x00, 0x00, 0x00, 0x40] [] [])) [.ip] 0 0 =
      (.running, [0x0040], []) := by decide

theorem test_step_jeqReg_not_taken : -- V62
    look (stepped (startWith Config.default 0x0000 [0x3E, 0x02, 0x00, 0x40] [(.acc, 0x0001), (.r1, 0x0002)] [])) [.ip]
      0 0 =
      (.running, [0x0004], []) := by decide

theorem test_step_jeqReg_acc : -- V63
    look (stepped (startWith Config.default 0x0000 [0x3E, 0x01, 0x00, 0x40] [(.acc, 0x1234)] [])) [.ip] 0 0 =
      (.running, [0x0040], []) := by decide

theorem test_step_jltLit_taken : -- V64
    look (stepped (startWith Config.default 0x0000 [0x43, 0x00, 0x01, 0x00, 0x40] [(.acc, 0x8000)] [])) [.ip] 0 0 =
      (.running, [0x0040], []) := by decide

theorem test_step_jltLit_unsigned : -- V65
    look (stepped (startWith Config.default 0x0000 [0x43, 0xFF, 0xFF, 0x00, 0x40] [(.acc, 0x0001)] [])) [.ip] 0 0 =
      (.running, [0x0005], []) := by decide

theorem test_step_jltReg_equal : -- V66
    look (stepped (startWith Config.default 0x0000 [0x42, 0x02, 0x00, 0x40] [(.acc, 0x0001), (.r1, 0x0001)] [])) [.ip]
      0 0 =
      (.running, [0x0004], []) := by decide

theorem test_step_jltReg_taken : -- R166
    look (stepped (startWith Config.default 0x0000 [0x42, 0x02, 0x02, 0x00] [(.r1, 0x0002), (.acc, 0x0005)] [])) [.ip]
      0 0 =
      (.running, [0x0200], []) := by decide

theorem test_step_jgtLit_taken : -- V67
    look (stepped (startWith Config.default 0x0000 [0x45, 0xFF, 0xFF, 0x00, 0x40] [(.acc, 0x0001)] [])) [.ip] 0 0 =
      (.running, [0x0040], []) := by decide

theorem test_step_jgtReg_taken : -- V68
    look (stepped (startWith Config.default 0x0000 [0x44, 0x02, 0x00, 0x40] [(.acc, 0x0001), (.r1, 0x0002)] [])) [.ip]
      0 0 =
      (.running, [0x0040], []) := by decide

theorem test_step_jgtReg_not_taken : -- R168
    look (stepped (startWith Config.default 0x0000 [0x44, 0x02, 0x02, 0x00] [(.r1, 0x0002), (.acc, 0x0005)] [])) [.ip]
      0 0 =
      (.running, [0x0004], []) := by decide

theorem test_step_jleLit_equal : -- V69
    look (stepped (startWith Config.default 0x0000 [0x47, 0x00, 0x00, 0x00, 0x40] [] [])) [.ip] 0 0 =
      (.running, [0x0040], []) := by decide

theorem test_step_jleReg_taken : -- V70
    look (stepped (startWith Config.default 0x0000 [0x46, 0x02, 0x00, 0x40] [(.acc, 0x0001), (.r1, 0x0000)] [])) [.ip]
      0 0 =
      (.running, [0x0040], []) := by decide

theorem test_step_jleReg_not_taken : -- R170
    look (stepped (startWith Config.default 0x0000 [0x46, 0x02, 0x02, 0x00] [(.r1, 0x0006), (.acc, 0x0005)] [])) [.ip]
      0 0 =
      (.running, [0x0004], []) := by decide

theorem test_step_jgeLit_not_taken : -- V71
    look (stepped (startWith Config.default 0x0000 [0x49, 0x00, 0x04, 0x02, 0x00] [(.acc, 0x0005)] [])) [.ip] 0 0 =
      (.running, [0x0005], []) := by decide

theorem test_step_jgeReg_unsigned : -- V72
    look (stepped (startWith Config.default 0x0000 [0x48, 0x02, 0x00, 0x40] [(.acc, 0x8000), (.r1, 0x7FFF)] [])) [.ip]
      0 0 =
      (.running, [0x0004], []) := by decide

theorem test_step_jgeReg_equal : -- R172
    look (stepped (startWith Config.default 0x0000 [0x48, 0x02, 0x02, 0x00] [(.r1, 0x0005), (.acc, 0x0005)] [])) [.ip]
      0 0 =
      (.running, [0x0200], []) := by decide

theorem test_step_pshLit : -- V74
    look (stepped (startWith Config.default 0x0000 [0x17, 0x12, 0x34] [] [])) [.sp, .ip] 0xFFFD 2 =
      (.running, [0xFFFB, 0x0003], [0x12, 0x34]) ∧
    hidden (stepped (startWith Config.default 0x0000 [0x17, 0x12, 0x34] [] [])) = (false, 0x0002) := by decide

theorem test_step_pshLit_past_end : -- V75
    look (stepped (startWith Config.default 0x0000 [0x17, 0x12, 0x34] [(.sp, 0xFFFF)] [])) [.sp, .ip] 0 0 =
      (.fault (.outOfBounds 0xFFFF 2), [0xFFFF, 0x0003], []) ∧
    hidden (stepped (startWith Config.default 0x0000 [0x17, 0x12, 0x34] [(.sp, 0xFFFF)] [])) = (false, 0x0000) :=
      by decide

theorem test_step_pshReg_sp : -- V76
    look (stepped (startWith Config.default 0x0000 [0x18, 0x0A] [] [])) [.sp] 0xFFFD 2 =
      (.running, [0xFFFB], [0xFF, 0xFD]) := by decide

theorem test_step_pop_empty : -- V77
    look (stepped (startWith Config.default 0x0000 [0x1A, 0x02] [] [])) [.sp, .ip, .r1] 0 0 =
      (.fault (.outOfBounds 0xFFFF 2), [0xFFFF, 0x0002, 0x0000], []) ∧
    hidden (stepped (startWith Config.default 0x0000 [0x1A, 0x02] [] [])) = (false, 0xFFFE) := by decide

theorem test_step_pop_into_sp : -- V79
    look (stepped (startWith Config.default 0x0000 [0x1A, 0x0A] [(.sp, 0xFFFB)] [(0xFFFD, [0x12, 0x34])])) [.sp] 0 0 =
      (.running, [0x1234], []) := by decide

theorem test_step_calLit : -- V80 with sfs 0, so a frame size of 0x14
    look (stepped (startWith Config.default 0x000D [0x5E, 0x01, 0x00] [(.sp, 0xFFF7), (.r1, 0x1111), (.r8, 0x8888)]
      [])) [.sp, .fp, .ip] 0xFFE5 6 =
      (.running, [0xFFE3, 0xFFE3, 0x0100], [0x00, 0x14, 0x00, 0x10, 0x88, 0x88]) ∧
    hidden (stepped (startWith Config.default 0x000D [0x5E, 0x01, 0x00] [(.sp, 0xFFF7), (.r1, 0x1111), (.r8, 0x8888)]
      [])) = (false, 0x0000) := by decide

theorem test_step_calLit_fourth_push_faults : -- V82
    look (stepped (startWith Config.default 0x0100 [0x5E, 0x02, 0x00] [(.sp, 0x0005), (.r1, 0x1111), (.r3, 0x3333)]
      [])) [.sp, .fp, .ip] 0x0001 6 =
      (.fault (.outOfBounds 0xFFFF 2), [0xFFFF, 0xFFFD, 0x0103], [0x33, 0x33, 0x00, 0x00, 0x11, 0x11]) ∧
    hidden (stepped (startWith Config.default 0x0100 [0x5E, 0x02, 0x00] [(.sp, 0x0005), (.r1, 0x1111), (.r3, 0x3333)]
      [])) = (false, 0x0006) := by decide

theorem test_step_calReg_sp : -- V81
    look (stepped (startWith Config.default 0x0000 [0x5F, 0x0A] [] [])) [.sp, .fp, .ip] 0xFFEB 4 =
      (.running, [0xFFE9, 0xFFE9, 0xFFFD], [0x00, 0x14, 0x00, 0x02]) := by decide

theorem test_step_ret_top_level : -- V83
    look (stepped (startWith Config.default 0x0000 [0x60] [] [])) [.sp, .ip] 0 0 =
      (.fault (.outOfBounds 0xFFFF 2), [0xFFFF, 0x0001], []) ∧
    hidden (stepped (startWith Config.default 0x0000 [0x60] [] [])) = (false, 0xFFFE) := by decide

theorem test_step_ret : -- R183, R185
    look (stepped (startWith Config.default 0x0000 [0x60] [(.sp, 0x2000), (.fp, 0x2000), (.acc, 0x7777)] [(0x2002,
      [0x00, 0x18, 0x01, 0x23, 0x88, 0x88, 0x77, 0x77, 0x66, 0x66, 0x55, 0x55, 0x44, 0x44, 0x33, 0x33, 0x22, 0x22,
        0x11, 0x11, 0x00, 0x01, 0xAA, 0xAA])])) [.ip, .r8, .r1, .sp, .fp, .acc] 0 0 =
      (.running, [0x0123, 0x8888, 0x1111, 0x2018, 0x2018, 0x7777], []) ∧
    hidden (stepped (startWith Config.default 0x0000 [0x60] [(.sp, 0x2000), (.fp, 0x2000), (.acc, 0x7777)] [(0x2002,
      [0x00, 0x18, 0x01, 0x23, 0x88, 0x88, 0x77, 0x77, 0x66, 0x66, 0x55, 0x55, 0x44, 0x44, 0x33, 0x33, 0x22, 0x22,
        0x11, 0x11, 0x00, 0x01, 0xAA, 0xAA])])) = (false, 0x0000) := by decide

theorem test_step_int : -- V85
    look (stepped (startWith Config.default 0x0000 [0xFD, 0x00, 0x12] [] [(0x1006, [0x02, 0x00])])) [.sp, .fp, .ip]
      0xFFE9 4 =
      (.running, [0xFFE7, 0xFFE7, 0x0200], [0x00, 0x16, 0x00, 0x03]) ∧
    hidden (stepped (startWith Config.default 0x0000 [0xFD, 0x00, 0x12] [] [(0x1006, [0x02, 0x00])])) = (true, 0x0000)
      := by decide

theorem test_step_int_masked : -- V87
    look (stepped (startWith Config.default 0x0000 [0xFD, 0x00, 0x0F] [(.im, 0x8000)] [])) [.ip, .sp] 0 0 =
      (.running, [0x0003, 0xFFFD], []) ∧
    hidden (stepped (startWith Config.default 0x0000 [0xFD, 0x00, 0x0F] [(.im, 0x8000)] [])) = (false, 0x0000) :=
      by decide

theorem test_step_retInt_top_level : -- V91
    look (stepped (startWith Config.default 0x0000 [0xFC] [] [])) [.sp, .ip] 0 0 =
      (.fault (.outOfBounds 0xFFFF 2), [0xFFFF, 0x0001], []) ∧
    hidden (stepped (startWith Config.default 0x0000 [0xFC] [] [])) = (false, 0xFFFE) := by decide

theorem test_step_hlt : -- V92
    look (stepped (startWith Config.default 0x0000 [0xFF] [] [])) [.ip] 0 0 =
      (.halted, [0x0001], []) := by decide

theorem test_step_hlt_wraps : -- V8
    look (stepped (startWith Config.default 0xFFFF [0xFF] [] [])) [.ip] 0 0 =
      (.halted, [0x0000], []) := by decide

/-! ## Configurations, ports and placed instructions -/

theorem test_small_memory_push : -- V84
    look (stepped (startWith (memConfig 256) 0 [0x17, 0x00, 0x01] [] [])) [.sp] 0 0 =
      (.fault (.outOfBounds 0xFFFD 2), [0xFFFD], []) := by decide

theorem test_vector_entry_past_end : -- V89
    look (stepped (startWith (ivtConfig 0xFFF0) 0 [0xFD, 0x00, 0x08] [] [])) [.ip, .sp] 0 0 =
      (.fault (.outOfBounds 0x10000 2), [0x0003, 0xFFFD], []) := by decide

theorem test_shift_mod32 : -- V45, the alternative
    look (stepped (startWith (readConfig { Readings.spec with shiftMod32 := true }) 0 [0x27, 0x02, 0x03]
      [(.r1, 0x0001), (.r2, 0x0100)] [])) [.r1] 0 0 = (.running, [0x0001], []) := by decide

theorem test_jump_operand_on_right : -- V65, the alternative
    look (stepped (startWith (readConfig { Readings.spec with jumpOperandOnLeft := false }) 0
      [0x43, 0xFF, 0xFF, 0x00, 0x40] [(.acc, 0x0001)] [])) [.ip] 0 0 = (.running, [0x0040], []) := by decide

theorem test_exec_port : -- V9
    look (left (execOpcode 0x35 (startWith Config.default 0 [0x02] [] [])) State.reset) [.r1, .ip] 0 0 =
      (.running, [0x0001, 0x0001], []) := by decide

theorem test_exec_port_illegal : -- V10
    look (left (execOpcode 0x00 (State.reset.setReg .ip 0x0040)) State.reset) [.ip] 0 0 =
      (.fault (.illegalInstruction 0x00 0x0040), [0x0040], []) := by decide

theorem test_irq_delivered : -- V93
    look (left (irq 0x0005 (startWith Config.default 0x0004 [] [] [(0x100A, [0x03, 0x00])])) State.reset)
      [.ip, .sp, .fp] 0xFFEB 2 = (.delivered, [0x0300, 0xFFE7, 0xFFE7], [0x00, 0x04]) := by decide

theorem test_irq_masked : -- L1.5b
    look (left (irq 0x0012 (startWith Config.default 0x0040 [] [(.im, 0xFFF7)] [])) State.reset) [.ip, .sp] 0xFFFD 2 =
      (.masked, [0x0040, 0xFFFD], [0x00, 0x00]) := by decide

theorem test_load_then_refused : -- 00_scope.md R9, D13
    (left (load 0xFFFF [0xAB] State.reset) State.reset).mem = [(0xFFFF, 0xAB)] ∧
    refusal (load 0 [0xAB] State.reset.start) = some .loadAfterStart := by decide

theorem test_refused_after_fault : -- 60_exceptions.md R213
    refusal (step (stepped State.reset)) = some .runEnded ∧
    refusal (irq 0 (stepped State.reset)) = some .runEnded := by decide

theorem test_debug_window : -- 00_scope.md R12
    debugMem 0xFFFD 3 (startWith Config.default 0 [] [] [(0xFFFE, [0x12, 0x34])]) = [0x00, 0x12, 0x34] := by decide

theorem test_decodeTableWord : -- 10 12 34 02 and FF, numbered from the first byte
    decodeTableWord 32 0x02341210 = some (.movLitReg 0x1234 .r1) ∧ decodeTableWord 8 0xFF = some .hlt ∧
    decodeTableWord 8 0x19 = none := by decide

theorem test_withFetchWord :
    look (stepped (State.reset.withFetchWord 32 0x02341210)) [.r1, .ip] 0 0 = (.running, [0x1234, 0x0004], []) := by
  decide

/-! ## Witnesses: for every obligation with hypotheses, a state and operands that meet them together -/

theorem witness_DecodeEncodeAgree : OpcodeMap.default.legal = true := by decide

theorem witness_OpcodeAloneFixesLength : OpcodeMap.default.legal = true ∧ mnemonicOf OpcodeMap.default 0x00 = none ∧
    mnemonicOf OpcodeMap.default 0x10 = some .movLitReg ∧
    [(0x12 : Byte), 0x34].length + 1 < Mnemonic.movLitReg.length ∧
    Mnemonic.movLitReg.length ≤ [(0x12 : Byte), 0x34, 0x02].length + 1 := by decide

theorem witness_IllegalOpcodeBytesAreTheListed206 : mnemonicOf OpcodeMap.default 0xFF = some .hlt := by decide

theorem witness_ConfigureBuildsTheResetState : (memConfig 1).legal = true ∧ (memConfig 65536).legal = true :=
  by decide

theorem witness_IllegalConfigurationIsRejected :
    ¬ (1 ≤ (memConfig 0).memSize ∧ (memConfig 0).memSize ≤ 65536) ∧
    ¬ (1 ≤ (memConfig 65537).memSize ∧ (memConfig 65537).memSize ≤ 65536) ∧
    ¬ (clashingMap.map Prod.fst).Nodup ∧ shortMap.map Prod.snd ≠ Mnemonic.all ∧
    1 ≤ (memConfig 1).memSize ∧ (memConfig 65536).memSize ≤ 65536 := by decide

theorem witness_ResetSatisfiesInvariants : (memConfig 1).legal = true := by decide

theorem witness_MemoryAccessesInAndOutOfBounds :
    65535 + 1 - 1 < State.reset.config.memSize ∧ State.reset.config.memSize ≤ 65536 + 1 - 1 ∧
    65534 + 2 - 1 < State.reset.config.memSize ∧ State.reset.config.memSize ≤ 65535 + 2 - 1 := by decide

theorem witness_WordsAndBytesAgreeBigEndian : 65534 + 1 < State.reset.config.memSize := by decide

theorem witness_StoresAreSeenByFetch : ∃ t, exec (.movLitMem 0x1234 0x0010) State.reset = .next t ∧
    (t.setReg .ip 0x0010).mem = t.mem ∧ (t.setReg .ip 0x0010).config = t.config ∧
    (t.setReg .ip 0x0010).reg .ip = 0x0010 := ⟨_, rfl, rfl, rfl, rfl⟩

theorem witness_FetchReadsAndAdvances :
    ((State.reset.setReg .ip 0xFFFF).reg .ip).toNat < State.reset.config.memSize ∧
    (State.resetWith (memConfig 256)).config.memSize ≤
      (((State.resetWith (memConfig 256)).setReg .ip 0x0100).reg .ip).toNat ∧
    ((State.reset.setReg .ip 0xFFFE).reg .ip).toNat + 1 < State.reset.config.memSize ∧
    State.reset.config.memSize ≤ ((State.reset.setReg .ip 0xFFFF).reg .ip).toNat + 1 := by decide

/-- PSH_LIT with its opcode at 0xFFFF and its word at 0x0000 (V7). -/
theorem witness_StepRunsTheDecodedInstruction :
    let s := startWith Config.default 0xFFFF [0x17] [] []
    s.phase ≠ .ended ∧ s.config.memSize ≤ 65536 ∧ (s.reg .ip).toNat < s.config.memSize ∧
    codeAt s (s.reg .ip) [0x17, 0x00, 0x00] ∧
    decode s.config.opcodeMap [0x17, 0x00, 0x00] = .ok (.pshLit 0x0000, []) ∧
    fieldsReadable s (s.reg .ip + 1) (Instr.pshLit 0x0000).mnemonic.format.fields :=
  ⟨by decide, by decide, by decide, ⟨by decide, by decide, by decide, trivial⟩, by decide, by decide, trivial⟩

theorem witness_IllegalOpcodeRaises : State.reset.phase ≠ .ended ∧
    (State.reset.reg .ip).toNat < State.reset.config.memSize ∧
    mnemonicOf State.reset.config.opcodeMap (State.reset.mem.byteAt (State.reset.reg .ip).toNat) = none ∧
    mnemonicOf State.reset.config.opcodeMap 0xFE = none := by decide

theorem witness_FetchPastTheEndRaises :
    let s := (State.resetWith (memConfig 256)).setReg .ip 0x0100
    s.phase ≠ .ended ∧ s.config.memSize ≤ (s.reg .ip).toNat := by decide

/-- For every mnemonic with an operand: its opcode byte in the last byte of a memory of one byte. -/
theorem witness_OperandFetchFaults (m : Mnemonic) (h : m.format.fields ≠ []) :
    let s := startWith (memConfig 1) 0 [opcodeOf OpcodeMap.default m] [] []
    s.phase ≠ .ended ∧ (s.reg .ip).toNat < s.config.memSize ∧
    mnemonicOf s.config.opcodeMap (s.mem.byteAt (s.reg .ip).toNat) = some m ∧
    ¬ fieldsReadable s (s.reg .ip + 1) m.format.fields := by
  cases m <;> first
    | exact absurd rfl h
    | exact ⟨by decide, by decide, by decide, fun hf => absurd hf.1 (by decide)⟩

theorem witness_StepRespondsHaltedExactlyForHlt :
    (∃ s' t, fetchInstr (startWith Config.default 0 [0xFF] [] []).start = .ok .hlt s' ∧
      step (startWith Config.default 0 [0xFF] [] []) = .next t) ∧
    (∃ s' t, fetchInstr (startWith Config.default 0 [0x34, 0x02] [] []).start = .ok (.not .r1) s' ∧
      step (startWith Config.default 0 [0x34, 0x02] [] []) = .next t) := ⟨⟨_, _, rfl, rfl⟩, _, _, rfl, rfl⟩

theorem witness_FaultEndsTheRun :
    (∃ f, transact .step State.reset = .fault f) ∧ (∃ f, transact (.load 0xFFFF [1, 2]) State.reset = .fault f) ∧
    (∃ f, transact (.irq 0) (State.resetWith (memConfig 256)) = .fault f) ∧
    (∃ f, transact (.exec 0x00) State.reset = .fault f) := ⟨⟨_, rfl⟩, ⟨_, rfl⟩, ⟨_, rfl⟩, _, rfl⟩

theorem witness_StepKeepsStateInvariant : (startWith Config.default 0 [0x17, 0x12, 0x34] [] []).wf = true ∧
    ∃ t, step (startWith Config.default 0 [0x17, 0x12, 0x34] [] []) = .next t := ⟨by decide, _, rfl⟩

theorem witness_TransactionsKeepStateInvariant : State.reset.wf = true ∧
    ∃ t, transactAll [.load 0x0000 [0xFF, 0x02], .step, .exec 0x35, .irq 0x0003] State.reset = .next t :=
  ⟨by decide, _, rfl⟩

theorem witness_FrameInvariantIsKept : FrameInv State.reset ∧ resultReg (.pshLit 0x0001) ≠ some .sp ∧
    resultReg (.pshLit 0x0001) ≠ some .fp ∧ ∃ t, exec (.pshLit 0x0001) State.reset = .next t :=
  ⟨rfl, by decide, by decide, _, rfl⟩

theorem witness_AccAndMaskChangeOnlyAsResult : resultReg (.pop .r1) ≠ some .acc ∧ resultReg (.pop .r1) ≠ some .im ∧
    ∃ t, exec (.pop .r1) (State.reset.setReg .sp 0xFFFB) = .next t := ⟨by decide, by decide, _, rfl⟩

/-- A frame of one argument above `fp` = 0x2000, as 44_stack_call.md R185 lays it out. -/
def frameState (c : Config) : State :=
  startWith c 0 [] [(.sp, 0x2000), (.fp, 0x2000)]
    [(0x2002, [0x00, 0x18, 0x01, 0x23]), (0x2016, [0x00, 0x01, 0xAA, 0xAA])]

theorem witness_InHandlerChangesOnlyByIntAndRetInt :
    (∃ t, exec .retInt (frameState Config.default) = .next t) ∧ (∃ t, exec (.int 0x0003) State.reset = .next t) ∧
    (∃ t, exec .ret (frameState Config.default) = .next t) := ⟨⟨_, rfl⟩, ⟨_, rfl⟩, _, rfl⟩

theorem witness_OnlyStoringInstructionsChangeMemory : storesMemory .ret = false ∧
    ∃ t, exec .ret (frameState Config.default) = .next t := ⟨rfl, _, rfl⟩

theorem witness_FrameCounterChangesOnlyByStack : ∃ t, exec (.movLitMem 0x1234 0x0010) State.reset = .next t := ⟨_,
  rfl⟩

/-- The last word address is inside memory and the next address is not, for an absolute, an indirect and an indexed
operand. -/
theorem witness_LoadsReadTheAddressedWord :
    (0xFFFE : Word).toNat + 1 < State.reset.config.memSize ∧ State.reset.config.memSize ≤ (0xFFFF : Word).toNat + 1 ∧
    ((State.reset.setReg .r1 0xFFFE).reg .r1).toNat + 1 < State.reset.config.memSize ∧
    State.reset.config.memSize ≤ ((State.reset.setReg .r1 0xFFFF).reg .r1).toNat + 1 ∧
    State.reset.config.readings.eaWrap16 = false ∧
    (0xFFF0 : Word).toNat + ((State.reset.setReg .r1 0x000E).reg .r1).toNat + 1 < State.reset.config.memSize ∧
    State.reset.config.memSize ≤ (0xFFFF : Word).toNat + ((State.reset.setReg .r1 0x0001).reg .r1).toNat + 1 := by
  decide

theorem witness_StoresWriteTheAddressedWord :
    (0xFFFE : Word).toNat + 1 < State.reset.config.memSize ∧ State.reset.config.memSize ≤ (0xFFFF : Word).toNat + 1 :=
      by
  decide

theorem witness_ShiftInPlace : State.reset.config.readings.shiftMod32 = false := by decide

theorem witness_JumpsComparingLiteral : State.reset.config.readings.jumpOperandOnLeft = true := by decide

theorem witness_JumpsComparingRegister : State.reset.config.readings.jumpOperandOnLeft = true := by decide

/-- `EA_WRAP16` takes 0xFFFF + 1 to address 0, and 0xFFFF + 0 is still out of bounds; a RET and a RET_INT with
`POPSTATE_SFS_ADJUST` = 0 complete. -/
theorem witness_AlternativeReadingsAreTheNamedOnes :
    (readConfig { Readings.spec with jumpOperandOnLeft := false }).readings.jumpOperandOnLeft = false ∧
    (readConfig { Readings.spec with shiftMod32 := true }).readings.shiftMod32 = true ∧
    (readConfig { Readings.spec with eaWrap16 := true }).readings.eaWrap16 = true ∧
    ((0xFFFF : Word) + (State.reset.setReg .r1 0x0001).reg .r1).toNat + 1 < State.reset.config.memSize ∧
    State.reset.config.memSize ≤ ((0xFFFF : Word) + State.reset.reg .r1).toNat + 1 ∧
    (∃ t, exec .ret (frameState (readConfig { Readings.spec with popStateSfsAdjust := 0 })) = .next t) ∧
    ∃ t, exec .retInt (frameState (readConfig { Readings.spec with popStateSfsAdjust := 0 })) = .next t :=
  ⟨by decide, by decide, by decide, by decide, by decide, ⟨_, rfl⟩, _, rfl⟩

/-- Inside and outside memory at the reset `sp`, for a push and for a pop. -/
theorem witness_PushAndPopPrimitives : slotInBounds State.reset (State.reset.reg .sp) ∧
    ¬ slotInBounds State.reset ((State.reset.setReg .sp 0xFFFF).reg .sp) ∧
    slotInBounds State.reset ((State.reset.setReg .sp 0xFFFB).reg .sp + 2) ∧
    ¬ slotInBounds State.reset (State.reset.reg .sp + 2) := by
  unfold slotInBounds
  decide

theorem witness_PushInstructions : slotInBounds State.reset (State.reset.reg .sp) ∧
    ¬ slotInBounds State.reset ((State.reset.setReg .sp 0xFFFF).reg .sp) := by
  unfold slotInBounds
  decide

theorem witness_PopInstruction : slotInBounds State.reset ((State.reset.setReg .sp 0xFFFB).reg .sp + 2) ∧
    ¬ slotInBounds State.reset (State.reset.reg .sp + 2) := by
  unfold slotInBounds
  decide

/-- Ten pushes fit from the reset `sp`, and from 0x0012, where the last writes address 0. -/
theorem witness_CallsSaveTheFrame : roomForPushes State.reset 10 ∧
    roomForPushes (State.reset.setReg .sp 0x0012) 10 := by
  unfold roomForPushes slotInBounds
  decide

/-- The first push fails from 0xFFFF, the fourth from 0x0005 (V82), the tenth from 0x0011. -/
theorem witness_FaultingCallLeavesEarlierPushes :
    (roomForPushes (State.reset.setReg .sp 0xFFFF) 0 ∧ ¬ slotInBounds State.reset (slotBelow 0xFFFF 0)) ∧
    (roomForPushes (State.reset.setReg .sp 0x0005) 3 ∧ ¬ slotInBounds State.reset (slotBelow 0x0005 3)) ∧
    (roomForPushes (State.reset.setReg .sp 0x0011) 9 ∧ ¬ slotInBounds State.reset (slotBelow 0x0011 9)) := by
  unfold roomForPushes slotInBounds
  decide

/-- Every slot of a one-argument frame in memory; the first slot outside at reset; the last slot alone outside. -/
theorem witness_ReturnsRestoreTheFrame :
    ((frameState Config.default).config.readings.popStateSfsAdjust = 2 ∧
      1 = (wordAt (frameState Config.default) (slotAbove 0x2000 10).toNat).toNat ∧
      roomForPops (frameState Config.default) ((frameState Config.default).reg .fp) (11 + 1)) ∧
    ¬ slotInBounds State.reset (slotAbove (State.reset.reg .fp) 0) ∧
    (let s := startWith Config.default 0 [] [(.fp, 0xFFE7)] [(0xFFFD, [0x00, 0x01])]
     1 = (wordAt s (slotAbove 0xFFE7 10).toNat).toNat ∧ roomForPops s (s.reg .fp) 11 ∧
      ¬ slotInBounds s (slotAbove (s.reg .fp) 11)) := by
  unfold roomForPops slotInBounds
  decide

theorem test_one_argument_call :
    ∃ s1 t, pushSeq ([0x00AA] ++ [BitVec.ofNat 16 [(0x00AA : Word)].length]) State.reset = .ok () s1 ∧
      exec (.calLit 0x0100) (s1.setReg .ip 0x0010) = .next t := ⟨_, _, rfl, rfl⟩

/-- One argument pushed, a call, and a callee that changes `acc`. -/
theorem witness_CallReturnInvariance :
    State.reset.config.readings.popStateSfsAdjust = 2 ∧ FrameInv State.reset ∧
    ∃ s1 t, pushSeq ([0x00AA] ++ [BitVec.ofNat 16 [(0x00AA : Word)].length]) State.reset = .ok () s1 ∧
      exec (.calLit 0x0100) (s1.setReg .ip 0x0010) = .next t ∧ (t.setReg .acc 7).config = t.config ∧
      (t.setReg .acc 7).reg .fp = t.reg .fp ∧
      ∀ k, k < 11 + 1 → wordAt (t.setReg .acc 7) (slotAbove (t.reg .fp) k).toNat =
        wordAt t (slotAbove (t.reg .fp) k).toNat := by
  obtain ⟨s1, t, h1, h2⟩ := test_one_argument_call
  exact ⟨by decide, rfl, s1, t, h1, h2, rfl, rfl, fun _ _ => rfl⟩

theorem witness_MaskedInterruptChangesNothing : State.reset.phase ≠ .ended ∧
    ((State.reset.setReg .im 0xFFF7).reg .im).getLsbD ((0x0012 : Word).toNat % 15) = false ∧
    ((State.reset.setReg .im 0xBFFF).reg .im).getLsbD ((0x000E : Word).toNat % 15) = false := by decide

/-- With `IVT_BASE` = 0xFFF0, vector 7 is the last entry inside memory (V90); with `EA_WRAP16`, vector 8 of that table
stands at address 0. -/
theorem witness_IntSavesContextAndVectors :
    let s := State.resetWith (ivtConfig 0xFFF0)
    VectorEntryAt s.config 0x0007 0xFFFE ∧ s.inHandler = false ∧
    (s.reg .im).getLsbD ((0x0007 : Word).toNat % 15) = true ∧ 0xFFFE + 1 < s.config.memSize ∧ roomForPushes s 11 ∧
    VectorEntryAt { ivtConfig 0xFFF0 with readings := { Readings.spec with eaWrap16 := true } } 0x0008 0x0000 := by
  unfold roomForPushes slotInBounds VectorEntryAt
  decide

theorem witness_NestedIntOnlyRedirects :
    let s := State.reset.setInHandler true
    VectorEntryAt s.config 0xFFFF 0x1000 ∧ s.inHandler = true ∧
    (s.reg .im).getLsbD ((0xFFFF : Word).toNat % 15) = true ∧ 0x1000 + 1 < s.config.memSize := by
  unfold VectorEntryAt
  decide

/-- Vector 8 of a table at 0xFFF0 is outside memory (V89); from `sp` = 0xFFFF the first push of the save fails, and from
0x0013 the eleventh. -/
theorem witness_IntFaultsBeforeOrDuringTheSave :
    (VectorEntryAt (ivtConfig 0xFFF0) 0x0008 0x10000 ∧ (ivtConfig 0xFFF0).memSize ≤ 0x10000 + 1) ∧
    VectorEntryAt State.reset.config 0x0008 0x1010 ∧ State.reset.inHandler = false ∧
    (State.reset.reg .im).getLsbD ((0x0008 : Word).toNat % 15) = true ∧ 0x1010 + 1 < State.reset.config.memSize ∧
    (roomForPushes (State.reset.setReg .sp 0xFFFF) 0 ∧ ¬ slotInBounds State.reset (slotBelow 0xFFFF 0)) ∧
    (roomForPushes (State.reset.setReg .sp 0x0013) 10 ∧ ¬ slotInBounds State.reset (slotBelow 0x0013 10)) := by
  unfold roomForPushes slotInBounds VectorEntryAt
  decide

theorem witness_IrqDeliversAsIntDoes : State.reset.phase ≠ .ended ∧
    (∃ t, exec (.int 0x0003) State.reset.start = .next t) ∧
    (∃ f, exec (.int 0x0008) (State.resetWith (ivtConfig 0xFFF0)).start = .fault f) := ⟨by decide, ⟨_, rfl⟩, _, rfl⟩

theorem test_int_delivers : ∃ t, exec (.int 0x0003) State.reset = .next t := ⟨_, rfl⟩

/-- An interrupt by INT and by `IRQ`, and a handler that changes `acc`. -/
theorem witness_InterruptRoundTrip : State.reset.config.readings.popStateSfsAdjust = 2 ∧ FrameInv State.reset ∧
    State.reset.inHandler = false ∧ (State.reset.reg .im).getLsbD ((0x0003 : Word).toNat % 15) = true ∧
    (∃ t, irq 0x0003 State.reset = .next t) ∧
    ∃ t, exec (.int 0x0003) State.reset = .next t ∧ (t.setReg .acc 7).config = t.config ∧
      (t.setReg .acc 7).reg .fp = t.reg .fp ∧
      ∀ k, k < 11 → wordAt (t.setReg .acc 7) (slotAbove (t.reg .fp) k).toNat =
        wordAt t (slotAbove (t.reg .fp) k).toNat := by
  obtain ⟨t, h⟩ := test_int_delivers
  exact ⟨by decide, rfl, by decide, by decide, ⟨_, rfl⟩, t, h, rfl, rfl, fun _ _ => rfl⟩

theorem witness_LoadWritesBeforeExecutionOnly : State.reset.phase = .loading ∧
    0xFFFF + [(0xAB : Byte)].length ≤ State.reset.config.memSize ∧
    ∃ t, transact (.irq 0x0003) State.reset = .next t := ⟨rfl, by decide, _, rfl⟩

theorem witness_LoadPastTheEndFails : State.reset.phase = .loading ∧
    State.reset.config.memSize < 0xFFFF + [(0xAB : Byte), 0xCD].length := by decide

/-- INC_REG of the selector byte at `ip` (V9), a `STEP` of HLT, and JNE_REG whose register selector is the last byte of
memory. -/
theorem witness_ExecPortRunsAsIfFetched :
    (let s := startWith Config.default 0 [0x02] [] []
     s.phase ≠ .ended ∧ s.config.memSize ≤ 65536 ∧ codeAt s (s.reg .ip) [0x02] ∧
      decode s.config.opcodeMap [0x35, 0x02] = .ok (.incReg .r1, []) ∧
      fieldsReadable s (s.reg .ip) (Instr.incReg .r1).mnemonic.format.fields) ∧
    (let s := startWith Config.default 0xFFFF [0xFF] [] []
     s.phase ≠ .ended ∧ (s.reg .ip).toNat < s.config.memSize ∧ s.mem.byteAt (s.reg .ip).toNat = 0xFF ∧
      (mnemonicOf s.config.opcodeMap 0xFF).isSome = true) ∧
    (let s := (State.resetWith (memConfig 256)).setReg .ip 0x00FF
     s.phase ≠ .ended ∧ mnemonicOf s.config.opcodeMap 0x40 = some .jneReg ∧ fieldsReadable s 0x00FF [.sel] ∧
      ¬ fieldsReadable s (s.reg .ip) Mnemonic.jneReg.format.fields) := by
  refine ⟨⟨by decide, by decide, ⟨by decide, trivial⟩, by decide, by decide, trivial⟩, by decide, ?_⟩
  refine ⟨by decide, by decide, ⟨by decide, trivial⟩, ?_⟩
  simp only [Mnemonic.format, Format.fields, fieldsReadable]
  decide

theorem witness_DebugReadsRegistersAndMemory : 0xFFFF + 1 ≤ State.reset.config.memSize := by decide

end Sys2Proof.Tests
end

section
/-! The ports of the block (00_scope.md R5 to R12): what a transaction keeps, when it is refused, and the statements
about `CONFIG`, `LOAD`, `EXEC`, `DEBUG` and sequences of transactions. -/

namespace Sys2Proof.Machine

/-! ## What an instruction and a transaction keep -/

/-- What every instruction run from `s` keeps. Completed: the configuration, the phase and the state invariant; the
response is left out, since HLT and `IRQ` write it. Faulted: as in `Keeps`. An instruction is never refused. -/
def OutcomeKeeps (s : State) (o : Host.Outcome State Fault Refusal) : Prop :=
  match o with
  | .next t => t.config = s.config ∧ t.phase = s.phase ∧ (s.wf = true → t.wf = true)
  | .fault f =>
    f.final.config = s.config ∧ f.final.phase = .ended ∧ f.final.response = .fault f.info ∧
    (s.wf = true → f.final.wf = true) ∧ f.info.code ≠ 3
  | .refused _ => False

/-- Whether a state is well formed depends on the configuration and memory alone. -/
theorem State.wf_congr {s t : State} (hc : t.config = s.config) (hm : t.mem = s.mem) : t.wf = s.wf := by
  simp only [State.wf, State.memInside, hc, hm]

/-- An instruction that leaves the configuration, the phase and memory alone keeps everything. -/
theorem OutcomeKeeps.update {s t : State} (hc : t.config = s.config) (hp : t.phase = s.phase) (hm : t.mem = s.mem) :
    OutcomeKeeps s (.next t) :=
  ⟨hc, hp, fun h => (State.wf_congr hc hm).trans h⟩

/-- An instruction keeps what its pseudocode keeps. -/
theorem Keeps.outcome {s : State} {x : Access Unit} (h : Keeps s x) : OutcomeKeeps s x.outcome := by
  cases x with
  | ok u t =>
    obtain ⟨⟨hc, hp, _⟩, hw⟩ := h
    exact ⟨hc, hp, hw⟩
  | raised f => exact h

/-- What follows a primitive that keeps everything may run from the state the primitive leaves. -/
theorem OutcomeKeeps.after {s t : State} {o : Host.Outcome State Fault Refusal} (hc : t.config = s.config)
    (hp : t.phase = s.phase) (hw : s.wf = true → t.wf = true) (h : OutcomeKeeps t o) : OutcomeKeeps s o := by
  cases o with
  | next u =>
    obtain ⟨hc', hp', hw'⟩ := h
    exact ⟨hc'.trans hc, hp'.trans hp, hw' ∘ hw⟩
  | fault f =>
    obtain ⟨hc', hp', hr', hw', hk'⟩ := h
    exact ⟨hc'.trans hc, hp', hr', hw' ∘ hw, hk'⟩
  | refused r => exact h

/-- A jump, taken or not, keeps everything. -/
theorem jumpIf_keeps (op : Comparison) (v t : Word) (s : State) : OutcomeKeeps s (.next (jumpIf op v t s)) := by
  unfold jumpIf
  split
  · exact .update rfl rfl rfl
  · exact .update rfl rfl rfl

/-- Every instruction keeps the configuration, the phase and the state invariant (00_scope.md R11, 10_state.md R35). -/
theorem exec_keeps (i : Instr) (s : State) : OutcomeKeeps s (exec i s) := by
  cases i with
  | movLitReg lit rd => exact (moveToReg_keeps (.literal lit) rd s).outcome
  | movRegReg rs rd => exact (moveToReg_keeps (.register rs) rd s).outcome
  | movMemReg | movRegPtrReg | movLitOffReg => exact (moveToReg_keeps _ _ s).outcome
  | movRegMem | movLitMem => exact (memWrite16_keeps _ _ s).outcome
  | addRegReg | addLitReg | addRegLit | subRegReg | subLitReg | subRegLit | mulRegReg | mulLitReg | mulRegLit
  | incReg | decReg | lsfRegLit | lsfRegReg | rsfRegLit | rsfRegReg | andRegLit | andRegReg | orRegLit | orRegReg
  | xorRegLit | xorRegReg | not => exact .update rfl rfl rfl
  | jneLit | jneReg | jeqLit | jeqReg | jltLit | jltReg | jgtLit | jgtReg | jleLit | jleReg | jgeLit | jgeReg =>
    exact jumpIf_keeps _ _ _ s
  | pshLit | pshReg => exact (push_keeps _ s).outcome
  | pop => exact Keeps.outcome ((pop_keeps s).bind fun _ _ _ => .update () rfl rfl rfl rfl)
  | calLit | calReg => exact Keeps.outcome ((pushState_keeps s).bind fun _ _ _ => .update () rfl rfl rfl rfl)
  | ret => exact (popState_keeps s).outcome
  | retInt => exact (returnFromInterrupt_keeps s).outcome
  | int value => exact Keeps.outcome ((deliver_keeps value s).bind fun _ t _ => .refl t ())
  | hlt => exact .update rfl rfl rfl

/-- The execute half of a transaction keeps what its fetch half keeps. -/
theorem Keeps.runFetched {s : State} {x : Access Instr} (h : Keeps s x) : OutcomeKeeps s (runFetched x) := by
  cases x with
  | ok i t =>
    obtain ⟨⟨hc, hp, _⟩, hw⟩ := h
    exact .after hc hp hw (exec_keeps i t)
  | raised f => exact h

/-- `STEP` before the end of the run. -/
theorem step_of_not_ended {s : State} (h : s.phase ≠ .ended) : step s = runFetched (fetchInstr s.start) := by
  unfold step
  cases hp : s.phase with
  | loading | running => rfl
  | ended => exact absurd hp h

/-- `EXEC` before the end of the run. -/
theorem execOpcode_of_not_ended {s : State} (op : Byte) (h : s.phase ≠ .ended) :
    execOpcode op s = runFetched (decodeOpcode op (s.reg .ip) s.start) := by
  unfold execOpcode
  cases hp : s.phase with
  | loading | running => rfl
  | ended => exact absurd hp h

/-- `IRQ` before the end of the run. -/
theorem irq_of_not_ended {s : State} (value : Word) (h : s.phase ≠ .ended) :
    irq value s = ((deliver value s.start).bind fun d t => .ok () (t.setResponse d.response)).outcome := by
  unfold irq
  cases hp : s.phase with
  | loading | running => rfl
  | ended => exact absurd hp h

/-- Every transaction is refused once a fault has ended the run (60_exceptions.md R213). -/
theorem transact_of_ended {s : State} (tr : Transaction) (h : s.phase = .ended) :
    transact tr s = .refused .runEnded := by
  cases tr with
  | load addr bytes => simp only [transact, load, h]
  | step => simp only [transact, step, h]
  | irq value => simp only [transact, irq, h]
  | exec op => simp only [transact, execOpcode, h]

/-- `IRQ` keeps everything from the state in which execution has begun: beside the delivery, it writes the response alone. -/
theorem irq_keeps {s : State} (value : Word) (h : s.phase ≠ .ended) : OutcomeKeeps s.start (irq value s) := by
  rw [irq_of_not_ended value h]
  have hd := deliver_keeps value s.start
  cases hx : deliver value s.start with
  | ok d t =>
    rw [hx] at hd
    obtain ⟨⟨hc, hp, _⟩, hw⟩ := hd
    exact .after hc hp hw (.update rfl rfl rfl)
  | raised f =>
    rw [hx] at hd
    exact hd

/-- `STEP`, `IRQ` and `EXEC` keep everything from the state in which execution has begun. -/
theorem transact_keeps {s : State} (tr : Transaction) (hl : ∀ addr bytes, tr ≠ .load addr bytes)
    (h : s.phase ≠ .ended) : OutcomeKeeps s.start (transact tr s) := by
  cases tr with
  | load addr bytes => exact absurd rfl (hl addr bytes)
  | step =>
    rw [transact, step_of_not_ended h]
    exact (fetchInstr_keeps s.start).runFetched
  | irq value => exact irq_keeps value h
  | exec op =>
    rw [transact, execOpcode_of_not_ended op h]
    exact (decodeOpcode_keeps op (s.reg .ip) s.start).runFetched

/-- A `STEP`, `IRQ` or `EXEC` that completes leaves the engine running, with its configuration and state invariant. -/
theorem transact_eq_next {s t : State} {tr : Transaction} (hl : ∀ addr bytes, tr ≠ .load addr bytes)
    (h : transact tr s = .next t) : t.config = s.config ∧ t.phase = .running ∧ (s.wf = true → t.wf = true) := by
  have hp : s.phase ≠ .ended := fun he => by simp [transact_of_ended tr he] at h
  have hk := transact_keeps tr hl hp
  rw [h] at hk
  exact hk

/-! ## LOAD (00_scope.md R9) -/

theorem load_inside {s : State} {addr : Nat} {bytes : List Byte} (hp : s.phase = .loading)
    (h : addr + bytes.length ≤ s.config.memSize) :
    load addr bytes s = .next (s.setMem (s.mem.writeBytes addr bytes)) := by
  simp only [load, hp, if_pos h]

theorem load_outside {s : State} {addr : Nat} {bytes : List Byte} (hp : s.phase = .loading)
    (h : s.config.memSize < addr + bytes.length) :
    load addr bytes s = .fault (s.raise (.outOfBounds (addr + bytes.length - 1) 1)) := by
  simp only [load, hp, if_neg (Nat.not_le.2 h)]

theorem load_of_running {s : State} (addr : Nat) (bytes : List Byte) (hp : s.phase = .running) :
    load addr bytes s = .refused .loadAfterStart := by
  simp only [load, hp]

/-- A `LOAD` that completes was in bounds before execution, and wrote its bytes. -/
theorem load_eq_next {s t : State} {addr : Nat} {bytes : List Byte} (h : load addr bytes s = .next t) :
    s.phase = .loading ∧ addr + bytes.length ≤ s.config.memSize ∧ t = s.setMem (s.mem.writeBytes addr bytes) := by
  cases hp : s.phase with
  | loading =>
    by_cases hb : addr + bytes.length ≤ s.config.memSize
    · rw [load_inside hp hb] at h
      exact ⟨rfl, hb, by injection h with h; exact h.symm⟩
    · simp [load_outside hp (Nat.lt_of_not_le hb)] at h
  | running => simp [load_of_running addr bytes hp] at h
  | ended => simp [load, hp] at h

/-- A `LOAD` in bounds keeps the state invariant. -/
theorem State.wf_writeBytes {s : State} {addr : Nat} {bytes : List Byte} (h : addr + bytes.length ≤ s.config.memSize)
    (hw : s.wf = true) : (s.setMem (s.mem.writeBytes addr bytes)).wf = true := by
  obtain ⟨hc, hm, hi⟩ := (State.wf_iff s).1 hw
  exact (State.wf_iff _).2 ⟨hc, Memory.wf_writeBytes addr bytes hm, Memory.below_writeBytes h hi⟩

/-! ## Sequences of transactions -/

/-- One transaction that completes keeps the state invariant and the configuration. -/
theorem transact_keeps_wf {s t : State} {tr : Transaction} (hw : s.wf = true) (h : transact tr s = .next t) :
    t.wf = true ∧ t.config = s.config := by
  cases tr with
  | load addr bytes =>
    obtain ⟨_, hb, rfl⟩ := load_eq_next h
    exact ⟨State.wf_writeBytes hb hw, rfl⟩
  | step | irq | exec =>
    obtain ⟨hc, _, hk⟩ := transact_eq_next (by simp) h
    exact ⟨hk hw, hc⟩

/-- A sequence that completes is one whose first transaction completes and whose rest completes after it. -/
theorem transactAll_cons_eq_next {tr : Transaction} {ts : List Transaction} {s t : State}
    (h : transactAll (tr :: ts) s = .next t) : ∃ u, transact tr s = .next u ∧ transactAll ts u = .next t := by
  unfold transactAll at h
  cases hu : transact tr s with
  | next u => exact ⟨u, rfl, by rwa [hu] at h⟩
  | fault f => simp [hu] at h
  | refused r => simp [hu] at h

/-- Settles O21, by induction on the sequence: each transaction keeps both. -/
theorem transactionsKeepStateInvariant : Obligations.TransactionsKeepStateInvariant := by
  intro ts
  induction ts with
  | nil =>
    intro s t hw h
    injection h with h
    exact h ▸ ⟨hw, rfl⟩
  | cons tr ts ih =>
    intro s t hw h
    obtain ⟨u, hu, ht⟩ := transactAll_cons_eq_next h
    obtain ⟨hwu, hcu⟩ := transact_keeps_wf hw hu
    obtain ⟨hwt, hct⟩ := ih u t hwu ht
    exact ⟨hwt, hct.trans hcu⟩

/-- Settles O53. After a `STEP`, `IRQ` or `EXEC` the phase is `running`, and that refuses a `LOAD`. -/
theorem loadWritesBeforeExecutionOnly : Obligations.LoadWritesBeforeExecutionOnly := by
  constructor
  · intro s addr bytes hp hb
    refine ⟨_, load_inside hp hb, fun k hk => ?_, fun a ha => ?_, fun _ _ => rfl, ⟨rfl, rfl⟩, rfl, rfl, rfl⟩
    · rw [State.setMem_mem, Memory.byteAt_writeBytes, if_pos (by omega), Nat.add_sub_cancel_left]
    · rw [State.setMem_mem, Memory.byteAt_writeBytes, if_neg (by omega)]
  · intro s t tr addr bytes hl h
    obtain ⟨_, hrun, _⟩ := transact_eq_next hl h
    exact load_of_running addr bytes hrun

/-- Settles O54. The bound is checked before any byte is written. -/
theorem loadPastTheEndFails : Obligations.LoadPastTheEndFails := by
  intro s addr bytes hp hb
  exact ⟨_, load_outside hp hb, fun _ => rfl, fun _ _ => rfl, ⟨rfl, rfl⟩, rfl⟩

/-! ## EXEC (00_scope.md R10) -/

/-- Bytes that decode with nothing left over are an opcode byte in the map and exactly its operand bytes. -/
theorem decode_eq_ok_nil {map : OpcodeMap} {op : Byte} {bytes : List Byte} {i : Instr}
    (h : decode map (op :: bytes) = .ok (i, [])) :
    mnemonicOf map op = some i.mnemonic ∧ bytes.length = i.mnemonic.operandBytes ∧
      i = Instr.ofBytes i.mnemonic bytes := by
  unfold decode at h
  cases hm : mnemonicOf map op with
  | none => simp [hm] at h
  | some m =>
    simp only [hm] at h
    split at h
    · cases h
    · rename_i hlen
      injection h with h
      injection h with hi hrest
      have hle := List.drop_eq_nil_iff.1 hrest
      obtain rfl : i.mnemonic = m := by rw [← hi, Instr.mnemonic_ofBytes]
      exact ⟨rfl, by omega, hi.symm⟩

/-- Whether code stands in memory depends on memory alone. -/
theorem codeAt_congr {s t : State} (h : t.mem = s.mem) (a : Word) (bs : List Byte) : codeAt t a bs ↔ codeAt s a bs := by
  rw [codeAt_iff, codeAt_iff, h]

/-- Operands that stand in memory at `ip` are fetched whole, and `ip` moves past them (30_encoding.md R85). -/
theorem decodeOpcode_inside {s : State} {op : Byte} {bytes : List Byte} {i : Instr} (addr : Word)
    (hw : s.config.memSize ≤ 65536) (hcode : codeAt s (s.reg .ip) bytes)
    (hdec : decode s.config.opcodeMap (op :: bytes) = .ok (i, []))
    (hread : fieldsReadable s (s.reg .ip) i.mnemonic.format.fields) :
    decodeOpcode op addr s =
      .ok i (s.setReg .ip (s.reg .ip + BitVec.ofNat 16 i.mnemonic.operandBytes)) := by
  obtain ⟨hm, hlen, hi⟩ := decode_eq_ok_nil hdec
  have hbytes : bytesAt s.mem (s.reg .ip) i.mnemonic.operandBytes = bytes := hlen ▸ (codeAt_iff _ _ _).1 hcode
  have hfetch : fetchFields i.mnemonic.format.fields s =
      .ok bytes (s.setReg .ip (s.reg .ip + BitVec.ofNat 16 i.mnemonic.operandBytes)) :=
    hbytes ▸ fetchFields_inside _ hw hread
  simp only [decodeOpcode, hm, hfetch, Access.bind_ok, ← hi]

/-- Operands that do not all lie in memory fault at the first field that does not (30_encoding.md R86). -/
theorem decodeOpcode_outside {s : State} {op : Byte} {m : Mnemonic} (addr : Word)
    (hm : mnemonicOf s.config.opcodeMap op = some m) (hread : ¬ fieldsReadable s (s.reg .ip) m.format.fields) :
    FaultsAtFirstUnreadable s (s.reg .ip) m.format.fields (runFetched (decodeOpcode op addr s)) := by
  obtain ⟨before, f, after, a, hfields, hbefore, rfl, hout, hfetch⟩ := fetchFields_outside _ hread
  have hrun : runFetched (decodeOpcode op addr s) =
      .fault ((s.setReg .ip (s.reg .ip + BitVec.ofNat 16 (widthOf before))).raise
        (.outOfBounds (s.reg .ip + BitVec.ofNat 16 (widthOf before)).toNat f.width)) := by
    simp only [decodeOpcode, hm, hfetch, Access.bind_raised, runFetched]
  refine ⟨before, f, after, _, hfields, hbefore, hout, hrun, by simp, fun r hr => ?_, fun _ => rfl, ⟨rfl, rfl⟩, rfl⟩
  simp [List.ne_of_not_mem_cons hr]

/-- Where the transaction starts from makes no difference to the fault of an operand fetch. -/
theorem FaultsAtFirstUnreadable.of_start {s : State} {a : Word} {fields : List Field}
    {o : Host.Outcome State Fault Refusal} (h : FaultsAtFirstUnreadable s.start a fields o) :
    FaultsAtFirstUnreadable s a fields o := by
  obtain ⟨before, f, after, final, hfields, hbefore, hout, hfault, hip, hregs, hmem, hhid, hcfg⟩ := h
  exact ⟨before, f, after, final, hfields, (fieldsReadable_congr s.start_config before a).1 hbefore, hout, hfault, hip,
    hregs, hmem, hhid, hcfg⟩

/-- An opcode byte in the map leaves no trace of the address it was fetched from (60_exceptions.md R214). -/
theorem decodeOpcode_addr {s : State} {op : Byte} (h : (mnemonicOf s.config.opcodeMap op).isSome = true)
    (a b : Word) : decodeOpcode op a s = decodeOpcode op b s := by
  obtain ⟨m, hm⟩ := Option.isSome_iff_exists.1 h
  simp only [decodeOpcode, hm]

/-- `STEP` in memory is the opcode fetch, then what `EXEC` does from the address after it. -/
theorem step_eq_execOpcode {s : State} (hp : s.phase ≠ .ended) (hip : (s.reg .ip).toNat < s.config.memSize)
    (hop : (mnemonicOf s.config.opcodeMap (s.mem.byteAt (s.reg .ip).toNat)).isSome = true) :
    step s = execOpcode (s.mem.byteAt (s.reg .ip).toNat) (s.setReg .ip (s.reg .ip + 1)) := by
  rw [step_of_not_ended hp, execOpcode_of_not_ended _ (by simpa using hp), fetchInstr,
    fetch8_inside (s := s.start) hip]
  exact congrArg runFetched (decodeOpcode_addr (s := (s.setReg .ip (s.reg .ip + 1)).start) hop _ _)

/-- Settles O55. `EXEC` and `STEP` share the operand fetch and the execute half; the three parts are the fetch inside
memory, the agreement of the two, and the fetch past the end. -/
theorem execPortRunsAsIfFetched : Obligations.ExecPortRunsAsIfFetched := by
  refine ⟨fun s op bytes i hp hw hcode hdec hread => ?_, fun s op hp hip hb hop => ?_, fun s op m hp hm hread => ?_⟩
  · have hcode' := (codeAt_congr s.start_mem _ _).2 hcode
    have hread' := (fieldsReadable_congr s.start_config _ _).2 hread
    rw [execOpcode_of_not_ended op hp, decodeOpcode_inside (s := s.start) _ hw hcode' hdec hread']
    rfl
  · subst hb
    exact step_eq_execOpcode hp hip hop
  · rw [execOpcode_of_not_ended op hp]
    have hread' := (fieldsReadable_congr s.start_config m.format.fields (s.reg .ip)).not.2 hread
    exact (decodeOpcode_outside (s := s.start) _ hm hread').of_start

/-! ## CONFIG and DEBUG (00_scope.md R5, R11, R12) -/

theorem memSizeLegal_iff (c : Config) : c.memSizeLegal = true ↔ 1 ≤ c.memSize ∧ c.memSize ≤ 65536 := by
  simp [Config.memSizeLegal]

theorem configure_of_illegal_memSize {c : Config} (h : ¬ (1 ≤ c.memSize ∧ c.memSize ≤ 65536)) :
    configure c = .refused .illegalMemSize := by
  rw [configure, if_neg ((memSizeLegal_iff c).not.2 h)]

theorem configure_of_illegal_map {c : Config} (h : 1 ≤ c.memSize ∧ c.memSize ≤ 65536)
    (hm : ¬ c.opcodeMap.legal = true) : configure c = .refused .illegalOpcodeMap := by
  rw [configure, if_pos ((memSizeLegal_iff c).2 h), if_neg hm]

/-- Settles O7. A map is illegal when it is not injective, and when it does not have the 50 mnemonics. -/
theorem illegalConfigurationIsRejected : Obligations.IllegalConfigurationIsRejected := by
  refine fun c => ⟨configure_of_illegal_memSize, fun hlo hhi hinj => ?_, fun hlo hhi htot => ?_⟩
  · refine configure_of_illegal_map ⟨hlo, hhi⟩ fun hl => ?_
    exact hinj ((OpcodeMap.legal_iff _).1 hl).2
  · refine configure_of_illegal_map ⟨hlo, hhi⟩ fun hl => ?_
    exact htot ((OpcodeMap.legal_iff _).1 hl).1

/-- A window that lies in memory is shown whole. -/
theorem debugMem_inside {s : State} {addr n : Nat} (h : addr + n ≤ s.config.memSize) :
    debugMem addr n s = (List.range n).map fun k => s.mem.byteAt (addr + k) := by
  have hall : ∀ k ∈ List.range n, inBounds s.config (addr + k) 1 = true := fun k hk => by
    have hk := List.mem_range.1 hk
    simp only [inBounds, decide_eq_true_eq]
    omega
  rw [debugMem, List.filter_eq_self.2 hall]

/-- Settles O56. No byte is dropped from a window that lies in memory. -/
theorem debugReadsRegistersAndMemory : Obligations.DebugReadsRegistersAndMemory := by
  refine fun s => ⟨fun _ => rfl, fun addr n h => ?_⟩
  rw [debugMem_inside h]
  refine ⟨by simp, fun k hk => ?_⟩
  simp [List.getD_eq_getElem?_getD, List.getElem?_range hk]

end Sys2Proof.Machine
end

section
/-! The state elements (10_state.md R20 to R37): what each instruction that completes does to the state, said once by
the kind of instruction, and the statements about reset, register writes, the state invariant, and what changes `acc`,
`im`, `inHandler` and `sfs`. -/

namespace Sys2Proof.Machine

/-! ## What an instruction that completes leaves -/

/-- The instructions whose rule pushes, pops, saves or restores a frame: the stack instructions, calls, returns and INT
(10_state.md R31). -/
def usesStack : Instr → Bool
  | .pshLit _ | .pshReg _ | .pop _ | .calLit _ | .calReg _ | .ret | .retInt | .int _ => true
  | _ => false

/-- The states an instruction that completes in `s` can leave, by the kind of instruction. -/
inductive CompletesIn (s : State) : Instr → State → Prop where
  /-- One register is written: the instruction's result. -/
  | result {i : Instr} {rd : Reg} (hstack : usesStack i = false) (hres : resultReg i = some rd) (v : Word) :
    CompletesIn s i (s.setReg rd v)
  /-- A conditional jump. -/
  | jump {i : Instr} (hstack : usesStack i = false) (op : Comparison) (v target : Word) :
    CompletesIn s i (jumpIf op v target s)
  /-- One of the two MOV stores. -/
  | store {i : Instr} (hstack : usesStack i = false) (hstore : storesMemory i = true) (a : Nat) (v : Word) :
    CompletesIn s i (s.setMem (s.mem.writeWord a v))
  | hlt : CompletesIn s .hlt (s.setResponse .halted)
  | pshLit (lit : Word) : CompletesIn s (.pshLit lit) (pushed lit s)
  | pshReg (r : Reg) : CompletesIn s (.pshReg r) (pushed (s.reg r) s)
  | pop (rd : Reg) : CompletesIn s (.pop rd) ((popped s).setReg rd (wordAt s (s.reg .sp + 2).toNat))
  | calLit (target : Word) : CompletesIn s (.calLit target) ((framed s).setReg .ip target)
  | calReg (r : Reg) : CompletesIn s (.calReg r) ((framed s).setReg .ip (s.reg r))
  | ret : CompletesIn s .ret (restored s)
  | retInt : CompletesIn s .retInt (restored (s.setInHandler false))
  | intMasked (value : Word) (hmask : (s.reg .im).getLsbD (vectorOf value) = false) : CompletesIn s (.int value) s
  | intDelivered (value : Word) (hmask : (s.reg .im).getLsbD (vectorOf value) = true) :
    CompletesIn s (.int value) (((savedContext s).setInHandler true).setReg .ip
      (wordAt s (vectorAddress s.config (vectorOf value))))

/-- Reading a source operand changes nothing. -/
theorem readSource_ok {src : Source} {s t : State} {v : Word} (h : readSource src s = .ok v t) : t = s := by
  cases src with
  | literal | register =>
    injection h with _ h
    exact h.symm
  | absolute | indirect | indexed =>
    obtain ⟨_, _, rfl⟩ := memRead16_ok h
    rfl

/-- A move that completes has written its destination register alone. -/
theorem moveToReg_ok {src : Source} {rd : Reg} {s t : State} {u : Unit} (h : moveToReg src rd s = .ok u t) :
    ∃ v, t = s.setReg rd v := by
  obtain ⟨v, s', hread, hset⟩ := Access.bind_eq_ok h
  obtain rfl := readSource_ok hread
  injection hset with _ hset
  exact ⟨v, hset.symm⟩

/-- A move is an instruction that writes one register. -/
theorem CompletesIn.of_moveToReg {i : Instr} {src : Source} {rd : Reg} {s t : State} (hstack : usesStack i = false)
    (hres : resultReg i = some rd) (h : (moveToReg src rd s).outcome = .next t) : CompletesIn s i t := by
  obtain ⟨v, rfl⟩ := moveToReg_ok (Access.outcome_eq_next h)
  exact .result hstack hres v

/-- A MOV store that completes has written one word of memory. -/
theorem CompletesIn.of_memWrite16 {i : Instr} {a : Nat} {v : Word} {s t : State} (hstack : usesStack i = false)
    (hstore : storesMemory i = true) (h : (memWrite16 a v s).outcome = .next t) : CompletesIn s i t := by
  obtain ⟨_, rfl⟩ := memWrite16_ok (Access.outcome_eq_next h)
  exact .store hstack hstore a v

/-- A call that completes has saved a frame and then written `ip` (44_stack_call.md R189, R190). -/
theorem call_ok {target : Word} {s t : State}
    (h : ((pushState s).bind fun _ s => .ok () (s.setReg .ip target)).outcome = .next t) :
    t = (framed s).setReg .ip target := by
  obtain ⟨_, _, hpush, hset⟩ := Access.bind_eq_ok (Access.outcome_eq_next h)
  obtain ⟨_, rfl⟩ := pushState_ok hpush
  injection hset with _ hset
  exact hset.symm

/-- A POP that completes has popped a word and then written its destination (44_stack_call.md R188). -/
theorem execPop_ok {rd : Reg} {s t : State} (h : execPop rd s = .next t) :
    t = (popped s).setReg rd (wordAt s (s.reg .sp + 2).toNat) := by
  obtain ⟨_, _, hpop, hset⟩ := Access.bind_eq_ok (Access.outcome_eq_next h)
  obtain ⟨_, rfl, rfl⟩ := pop_ok hpop
  injection hset with _ hset
  exact hset.symm

/-- An INT that completes was masked and changed nothing, or was delivered (45_interrupt_system.md R200). -/
theorem CompletesIn.of_execInt {value : Word} {s t : State} (h : execInt value s = .next t) :
    CompletesIn s (.int value) t := by
  obtain ⟨d, s', hdeliver, hend⟩ := Access.bind_eq_ok (Access.outcome_eq_next h)
  injection hend with _ hend
  subst hend
  rcases deliver_ok hdeliver with ⟨hmask, _, rfl⟩ | ⟨hmask, _, _, _, rfl⟩
  · exact .intMasked value hmask
  · exact .intDelivered value hmask

/-- Everything an instruction that completes can have done. -/
theorem exec_eq_next {i : Instr} {s t : State} (h : exec i s = .next t) : CompletesIn s i t := by
  cases i with
  | movLitReg lit rd => exact .of_moveToReg (src := .literal lit) (rd := rd) rfl rfl h
  | movRegReg rs rd => exact .of_moveToReg (src := .register rs) (rd := rd) rfl rfl h
  | movMemReg | movRegPtrReg | movLitOffReg => exact .of_moveToReg rfl rfl h
  | movRegMem | movLitMem => exact .of_memWrite16 rfl rfl h
  | addRegReg | addLitReg | addRegLit | subRegReg | subLitReg | subRegLit | mulRegReg | mulLitReg | mulRegLit
  | incReg | decReg | lsfRegLit | lsfRegReg | rsfRegLit | rsfRegReg | andRegLit | andRegReg | orRegLit | orRegReg
  | xorRegLit | xorRegReg | not =>
    obtain rfl := Host.Outcome.next.inj h
    exact .result rfl rfl _
  | jneLit | jneReg | jeqLit | jeqReg | jltLit | jltReg | jgtLit | jgtReg | jleLit | jleReg | jgeLit | jgeReg =>
    obtain rfl := Host.Outcome.next.inj h
    exact .jump rfl _ _ _
  | pshLit lit =>
    obtain ⟨_, rfl⟩ := push_ok (Access.outcome_eq_next h)
    exact .pshLit lit
  | pshReg r =>
    obtain ⟨_, rfl⟩ := push_ok (Access.outcome_eq_next h)
    exact .pshReg r
  | pop rd =>
    obtain rfl := execPop_ok h
    exact .pop rd
  | calLit target =>
    obtain rfl := call_ok h
    exact .calLit target
  | calReg r =>
    obtain rfl := call_ok h
    exact .calReg r
  | ret =>
    obtain ⟨_, rfl⟩ := popState_ok (Access.outcome_eq_next h)
    exact .ret
  | retInt =>
    obtain ⟨_, rfl⟩ := popState_ok (Access.outcome_eq_next h)
    exact .retInt
  | int value => exact .of_execInt h
  | hlt =>
    obtain rfl := Host.Outcome.next.inj h
    exact .hlt

/-! ## What a jump and a context save leave unchanged -/

theorem jumpIf_reg_other {op : Comparison} {v target : Word} {s : State} {q : Reg} (h : q ≠ .ip) :
    (jumpIf op v target s).reg q = s.reg q := by
  unfold jumpIf
  split
  · rw [State.reg_setReg, if_neg h]
  · rfl

@[simp] theorem jumpIf_inHandler (op : Comparison) (v target : Word) (s : State) :
    (jumpIf op v target s).inHandler = s.inHandler := by
  unfold jumpIf
  split <;> rfl

@[simp] theorem jumpIf_sfs (op : Comparison) (v target : Word) (s : State) :
    (jumpIf op v target s).sfs = s.sfs := by
  unfold jumpIf
  split <;> rfl

theorem savedContext_reg_other {s : State} {q : Reg} (hfp : q ≠ .fp) (hsp : q ≠ .sp) :
    (savedContext s).reg q = s.reg q := by
  unfold savedContext
  split
  · rfl
  · simp [hfp, hsp]

/-! ## The statements -/

/-- Settles O20: a `STEP` is one of the transactions, each of which keeps both. -/
theorem stepKeepsStateInvariant : Obligations.StepKeepsStateInvariant := fun _ _ hwf hstep =>
  transact_keeps_wf (tr := .step) hwf hstep

/-- Settles O23, by what each kind of instruction leaves. No frame holds `acc` or `im`, so the returns do not restore
them. -/
theorem accAndMaskChangeOnlyAsResult : Obligations.AccAndMaskChangeOnlyAsResult := by
  intro i s t r hr hres h
  have hip : r ≠ .ip := by rcases hr with rfl | rfl <;> decide
  have hsp : r ≠ .sp := by rcases hr with rfl | rfl <;> decide
  have hfp : r ≠ .fp := by rcases hr with rfl | rfl <;> decide
  cases exec_eq_next h with
  | result _ hrd v =>
    have hne : r ≠ _ := fun e => hres (e ▸ hrd)
    rw [State.reg_setReg, if_neg hne]
  | jump => exact jumpIf_reg_other hip
  | store | hlt | intMasked => rfl
  | pshLit | pshReg => rw [pushed_reg, if_neg hsp]
  | pop rd =>
    have hne : r ≠ rd := fun e => hres (e ▸ rfl)
    rw [State.reg_setReg, if_neg hne, popped_reg, if_neg hsp]
  | calLit | calReg => simp [hip, hsp, hfp]
  | ret => exact restored_other s r hr
  | retInt => exact restored_other (s.setInHandler false) r hr
  | intDelivered =>
    rw [State.reg_setReg, if_neg hip, State.reg_setInHandler, savedContext_reg_other hfp hsp]

/-- INT leaves `inHandler` set when it was, or when its vector is enabled (60_exceptions.md R220). -/
theorem execInt_inHandler {value : Word} {s t : State} (h : exec (.int value) s = .next t) :
    t.inHandler = (s.inHandler || (s.reg .im).getLsbD (vectorOf value)) := by
  cases exec_eq_next h with
  | result hstack | jump hstack | store hstack => cases hstack
  | intMasked _ hmask => rw [hmask, Bool.or_false]
  | intDelivered _ hmask => rw [hmask, Bool.or_true]; rfl

/-- RET_INT leaves `inHandler` cleared (60_exceptions.md R220). -/
theorem execRetInt_inHandler {s t : State} (h : exec .retInt s = .next t) : t.inHandler = false := by
  cases exec_eq_next h with
  | result hstack | jump hstack | store hstack => cases hstack
  | retInt => exact restored_inHandler _

/-- Every instruction but INT and RET_INT leaves `inHandler` as it was. RET does too: a frame does not hold it. -/
theorem exec_inHandler_other {i : Instr} {s t : State} (hret : i ≠ .retInt) (hint : ∀ v, i ≠ .int v)
    (h : exec i s = .next t) : t.inHandler = s.inHandler := by
  cases exec_eq_next h with
  | result | store | hlt | pshLit | pshReg | pop | calLit | calReg => rfl
  | jump => exact jumpIf_inHandler _ _ _ _
  | ret => exact restored_inHandler s
  | retInt => exact absurd rfl hret
  | intMasked v | intDelivered v => exact absurd rfl (hint v)

/-- Settles O24, one lemma for INT, one for RET_INT and one for all the others. -/
theorem inHandlerChangesOnlyByIntAndRetInt : Obligations.InHandlerChangesOnlyByIntAndRetInt := by
  refine fun i s t h => ⟨fun hi => ?_, fun v hi => ?_, fun hret hint => exec_inHandler_other hret hint h⟩
  · subst hi
    exact execRetInt_inHandler h
  · subst hi
    exact execInt_inHandler h

/-- Settles O26, by what each kind of instruction leaves: those that write `sfs` are the excluded ones. -/
theorem frameCounterChangesOnlyByStack : Obligations.FrameCounterChangesOnlyByStack := by
  intro i s t hpshLit hpshReg hpop hcalLit hcalReg hret hretInt hint h
  cases exec_eq_next h with
  | result | store | hlt => rfl
  | jump => exact jumpIf_sfs _ _ _ _
  | pshLit lit => exact absurd rfl (hpshLit lit)
  | pshReg r => exact absurd rfl (hpshReg r)
  | pop rd => exact absurd rfl (hpop rd)
  | calLit target => exact absurd rfl (hcalLit target)
  | calReg r => exact absurd rfl (hcalReg r)
  | ret => exact absurd rfl hret
  | retInt => exact absurd rfl hretInt
  | intMasked v | intDelivered v => exact absurd rfl (hint v)

/-- `CONFIG` with a legal configuration builds the state after reset (00_scope.md R5, R11). -/
theorem configure_of_legal {c : Config} (h : c.legal = true) : configure c = .next (State.resetWith c) := by
  obtain ⟨hsize, hmap⟩ : c.memSizeLegal = true ∧ c.opcodeMap.legal = true := by simpa [Config.legal] using h
  rw [configure, if_pos hsize, if_pos hmap]

theorem defaultConfig_legal : Config.default.legal = true := by decide

/-- Settles O6: every element of the state after reset has its value by definition. -/
theorem configureBuildsTheResetState : Obligations.ConfigureBuildsTheResetState :=
  ⟨fun c hc => ⟨State.resetWith c, configure_of_legal hc, rfl, rfl, rfl, rfl, rfl, rfl, rfl, rfl, rfl, rfl, rfl,
      rfl, rfl, rfl, rfl, rfl, fun _ => rfl⟩,
    configure_of_legal defaultConfig_legal⟩

/-- An exact integer stored in 16 bits is its residue modulo 2^16 (10_state.md R22). -/
theorem toNat_ofInt16 (v : Int) : ((BitVec.ofInt 16 v).toNat : Int) = v % 0x10000 := by
  simp only [BitVec.toNat_ofInt]
  exact Int.toNat_of_nonneg (Int.emod_nonneg v (by decide))

/-- Settles O9, by what a register write leaves in every register. -/
theorem registerWriteStoresModulo : Obligations.RegisterWriteStoresModulo := by
  refine fun s r v => ⟨?_, fun q hq => ?_, fun _ => rfl, ⟨rfl, rfl⟩, rfl, rfl, rfl⟩
  · simp only [State.reg_writeExact, if_true, toNat_ofInt16]
  · rw [State.reg_writeExact, if_neg (List.ne_of_not_mem_cons hq)]

end Sys2Proof.Machine
end

section
/-! Main memory (20_memory.md R51 to R65): the numbers that the bytes of a word stand for, byte writes and word writes,
and the statements about the four memory operations, the byte order, stored words seen by the fetch, and which
instructions change memory. -/

namespace Sys2Proof.Machine

/-! ## The bytes of a word as numbers (20_memory.md R56) -/

theorem toNat_highByte (v : Word) : (highByte v).toNat = v.toNat / 256 := by
  have := v.isLt
  rw [highByte, BitVec.extractLsb'_toNat, Nat.shiftRight_eq_div_pow]
  omega

theorem toNat_lowByte (v : Word) : (lowByte v).toNat = v.toNat % 256 := by
  rw [lowByte, BitVec.extractLsb'_toNat, Nat.shiftRight_zero]

/-- A word is its high byte times 256 plus its low byte. -/
theorem toNat_joinBytes (hi lo : Byte) : (joinBytes hi lo).toNat = 256 * hi.toNat + lo.toNat := by
  have hhi := toNat_highByte (joinBytes hi lo)
  have hlo := toNat_lowByte (joinBytes hi lo)
  rw [highByte_joinBytes] at hhi
  rw [lowByte_joinBytes] at hlo
  omega

/-! ## Byte writes and word writes (20_memory.md R53) -/

theorem memWrite8_inside {a : Nat} {v : Byte} {s : State} (h : a < s.config.memSize) :
    memWrite8 a v s = .ok () (s.setMem (s.mem.writeByte a v)) := by
  rw [memWrite8, inBounds, Nat.add_sub_cancel, if_pos (decide_eq_true h)]

theorem memWrite8_outside {a : Nat} {v : Byte} {s : State} (h : s.config.memSize ≤ a) :
    memWrite8 a v s = .raised (s.raise (.outOfBounds a 1)) := by
  rw [memWrite8, inBounds, Nat.add_sub_cancel, if_neg (by simpa using h)]

/-- Two byte writes in order, in bounds, are the write of the word they make up (20_memory.md R57). -/
theorem memWrite8_memWrite8_inside {a : Nat} {hi lo : Byte} {s : State} (h : a + 1 < s.config.memSize) :
    ((memWrite8 a hi s).bind fun _ u => memWrite8 (a + 1) lo u) = memWrite16 a (joinBytes hi lo) s := by
  rw [memWrite8_inside (Nat.lt_of_succ_lt h), Access.bind_ok, memWrite8_inside (by simpa using h),
    memWrite16_inside h, Memory.writeWord, highByte_joinBytes, lowByte_joinBytes]
  rfl

theorem Memory.byteAt_writeWord_high (m : Memory) (a : Nat) (v : Word) : (m.writeWord a v).byteAt a = highByte v := by
  rw [Memory.byteAt_writeWord, if_neg (Nat.ne_of_lt a.lt_succ_self), if_pos rfl]

theorem Memory.byteAt_writeWord_low (m : Memory) (a : Nat) (v : Word) :
    (m.writeWord a v).byteAt (a + 1) = lowByte v := by
  rw [Memory.byteAt_writeWord, if_pos rfl]

/-- A word read where a word was written is the word written. -/
theorem wordAt_of_mem_writeWord {m : Memory} {a : Nat} {v : Word} {t : State} (h : t.mem = m.writeWord a v) :
    wordAt t a = v := by
  rw [wordAt, h, Memory.byteAt_writeWord_high, Memory.byteAt_writeWord_low, joinBytes_high_low]

/-- What the three reads of a word that was written see: the layout is big-endian (20_memory.md R57). -/
theorem reads_of_mem_writeWord {m : Memory} {a : Nat} {v : Word} {t : State} (hmem : t.mem = m.writeWord a v)
    (h : a + 1 < t.config.memSize) :
    memRead8 a t = .ok (highByte v) t ∧ memRead8 (a + 1) t = .ok (lowByte v) t ∧ memRead16 a t = .ok v t := by
  refine ⟨?_, ?_, ?_⟩
  · rw [memRead8_inside (Nat.lt_of_succ_lt h), hmem, Memory.byteAt_writeWord_high]
  · rw [memRead8_inside h, hmem, Memory.byteAt_writeWord_low]
  · rw [memRead16_inside h, wordAt_of_mem_writeWord hmem]

theorem sameMemoryOutsideWord_writeWord (s : State) (a : Nat) (v : Word) :
    SameMemoryOutsideWord a s (s.setMem (s.mem.writeWord a v)) := by
  intro b hhigh hlow
  rw [State.setMem_mem, Memory.byteAt_writeWord, if_neg hlow, if_neg hhigh]

/-! ## The statements -/

/-- Settles O10, by what each access does in bounds and out of bounds. -/
theorem memoryAccessesInAndOutOfBounds : Obligations.MemoryAccessesInAndOutOfBounds := by
  refine fun s a => ⟨fun h => ⟨memRead8_inside h, fun b => ?byteWrite⟩,
    fun h => ⟨memRead8_outside h, fun _ => memWrite8_outside h⟩,
    fun h => ⟨⟨wordAt s a, memRead16_inside h, toNat_joinBytes _ _⟩, fun v => ?wordWrite⟩,
    fun h => ⟨memRead16_outside h, fun _ => memWrite16_outside h⟩⟩
  case byteWrite =>
    refine ⟨s.setMem (s.mem.writeByte a b), memWrite8_inside h, ?_, fun c hc => ?_, fun _ _ => rfl, ⟨rfl, rfl⟩,
      rfl, rfl, rfl⟩
    · rw [State.setMem_mem, Memory.byteAt_writeByte, if_pos rfl]
    · rw [State.setMem_mem, Memory.byteAt_writeByte, if_neg hc]
  case wordWrite =>
    refine ⟨s.setMem (s.mem.writeWord a v), memWrite16_inside h, ?_, ?_, sameMemoryOutsideWord_writeWord s a v,
      fun _ _ => rfl, ⟨rfl, rfl⟩, rfl, rfl, rfl⟩
    · rw [State.setMem_mem, Memory.byteAt_writeWord_high, toNat_highByte]
    · rw [State.setMem_mem, Memory.byteAt_writeWord_low, toNat_lowByte]

/-- Settles O11: both halves are about the state a word write leaves, since two byte writes in order are one. -/
theorem wordsAndBytesAgreeBigEndian : Obligations.WordsAndBytesAgreeBigEndian := by
  refine fun s a h => ⟨fun v => ?word, fun hi lo => ?bytes⟩
  case word =>
    obtain ⟨hhigh, hlow, hword⟩ := reads_of_mem_writeWord (t := s.setMem (s.mem.writeWord a v)) rfl h
    refine ⟨s.setMem (s.mem.writeWord a v), memWrite16_inside h, hhigh, hlow, hword, ?_⟩
    calc ((memWrite8 a (highByte v) s).bind fun _ u => memWrite8 (a + 1) (lowByte v) u)
        = memWrite16 a (joinBytes (highByte v) (lowByte v)) s := memWrite8_memWrite8_inside h
      _ = .ok () (s.setMem (s.mem.writeWord a v)) := by rw [joinBytes_high_low, memWrite16_inside h]
  case bytes =>
    obtain ⟨_, _, hword⟩ := reads_of_mem_writeWord (t := s.setMem (s.mem.writeWord a (joinBytes hi lo))) rfl h
    exact ⟨_, (memWrite8_memWrite8_inside h).trans (memWrite16_inside h), hword⟩

theorem jumpIf_mem (op : Comparison) (v target : Word) (s : State) : (jumpIf op v target s).mem = s.mem := by
  unfold jumpIf
  split <;> rfl

/-- An instruction that completes and is not among those that store leaves the memory as it was. A return pops alone. -/
theorem exec_mem_of_not_storesMemory {i : Instr} {s t : State} (hstore : storesMemory i = false)
    (h : exec i s = .next t) : t.mem = s.mem := by
  cases exec_eq_next h with
  | result | hlt | pop => rfl
  | jump => exact jumpIf_mem _ _ _ _
  | store _ hstores => exact absurd hstores (by simp [hstore])
  | pshLit | pshReg | calLit | calReg | intMasked | intDelivered => cases hstore
  | ret => exact restored_mem s
  | retInt => exact restored_mem (s.setInHandler false)

/-- Settles O25: the list of cells itself is unchanged, so every byte reads as before. -/
theorem onlyStoringInstructionsChangeMemory : Obligations.OnlyStoringInstructionsChangeMemory := by
  intro i s t hstore h a
  rw [exec_mem_of_not_storesMemory hstore h]

/-- Settles O12: a store that completes was in bounds, so the fetch at its address is too, and reads what it wrote. -/
theorem storesAreSeenByFetch : Obligations.StoresAreSeenByFetch := by
  intro s t u lit addr hexec hmem hconfig hip
  obtain ⟨hbound, rfl⟩ := memWrite16_ok (Access.outcome_eq_next hexec)
  subst hip
  have hinside : (u.reg .ip).toNat + 1 < u.config.memSize := by rw [hconfig]; exact hbound
  constructor
  · rw [fetch16_inside hinside, wordAt_of_mem_writeWord hmem]
  · rw [fetch8_inside (Nat.lt_of_succ_lt hinside), hmem, State.setMem_mem, Memory.byteAt_writeWord_high]
    rfl

end Sys2Proof.Machine
end

section
/-! The instruction encoding (30_encoding.md R70 to R82): what the decoder answers by the opcode byte, the round trip
with the encoder, the lengths, the selectors and the default opcode map. -/

namespace Sys2Proof

/-! ## The decoder, by the opcode byte (R82, R83, R86) -/

theorem decode_of_illegal {map : OpcodeMap} {op : Byte} (bytes : List Byte) (hop : mnemonicOf map op = none) :
    decode map (op :: bytes) = .error (.illegalOpcode op) := by
  simp only [decode, hop]

theorem decode_of_truncated {map : OpcodeMap} {op : Byte} {m : Mnemonic} {bytes : List Byte}
    (hop : mnemonicOf map op = some m) (hlen : bytes.length < m.operandBytes) :
    decode map (op :: bytes) = .error (.truncated m) := by
  simp only [decode, hop, if_pos hlen]

theorem decode_of_complete {map : OpcodeMap} {op : Byte} {m : Mnemonic} {bytes : List Byte}
    (hop : mnemonicOf map op = some m) (hlen : m.operandBytes ≤ bytes.length) :
    decode map (op :: bytes) = .ok (Instr.ofBytes m bytes, bytes.drop m.operandBytes) := by
  simp only [decode, hop, if_neg (Nat.not_lt.2 hlen)]

/-! ## The round trip (R75, R76, R78, R81) -/

/-- The lemma of each instruction about its operand bytes, for all of them. -/
theorem Instr.operandBytes_statement : ∀ i : Instr, Laws.OperandBytes.Statement i
  | .movLitReg .. => Laws.OperandBytes.movLitReg ..
  | .movRegReg .. => Laws.OperandBytes.movRegReg ..
  | .movRegMem .. => Laws.OperandBytes.movRegMem ..
  | .movMemReg .. => Laws.OperandBytes.movMemReg ..
  | .movLitMem .. => Laws.OperandBytes.movLitMem ..
  | .movRegPtrReg .. => Laws.OperandBytes.movRegPtrReg ..
  | .movLitOffReg .. => Laws.OperandBytes.movLitOffReg ..
  | .addRegReg .. => Laws.OperandBytes.addRegReg ..
  | .addLitReg .. => Laws.OperandBytes.addLitReg ..
  | .addRegLit .. => Laws.OperandBytes.addRegLit ..
  | .subRegReg .. => Laws.OperandBytes.subRegReg ..
  | .subLitReg .. => Laws.OperandBytes.subLitReg ..
  | .subRegLit .. => Laws.OperandBytes.subRegLit ..
  | .mulRegReg .. => Laws.OperandBytes.mulRegReg ..
  | .mulLitReg .. => Laws.OperandBytes.mulLitReg ..
  | .mulRegLit .. => Laws.OperandBytes.mulRegLit ..
  | .incReg .. => Laws.OperandBytes.incReg ..
  | .decReg .. => Laws.OperandBytes.decReg ..
  | .lsfRegLit .. => Laws.OperandBytes.lsfRegLit ..
  | .lsfRegReg .. => Laws.OperandBytes.lsfRegReg ..
  | .rsfRegLit .. => Laws.OperandBytes.rsfRegLit ..
  | .rsfRegReg .. => Laws.OperandBytes.rsfRegReg ..
  | .andRegLit .. => Laws.OperandBytes.andRegLit ..
  | .andRegReg .. => Laws.OperandBytes.andRegReg ..
  | .orRegLit .. => Laws.OperandBytes.orRegLit ..
  | .orRegReg .. => Laws.OperandBytes.orRegReg ..
  | .xorRegLit .. => Laws.OperandBytes.xorRegLit ..
  | .xorRegReg .. => Laws.OperandBytes.xorRegReg ..
  | .not .. => Laws.OperandBytes.not ..
  | .jneLit .. => Laws.OperandBytes.jneLit ..
  | .jneReg .. => Laws.OperandBytes.jneReg ..
  | .jeqLit .. => Laws.OperandBytes.jeqLit ..
  | .jeqReg .. => Laws.OperandBytes.jeqReg ..
  | .jltLit .. => Laws.OperandBytes.jltLit ..
  | .jltReg .. => Laws.OperandBytes.jltReg ..
  | .jgtLit .. => Laws.OperandBytes.jgtLit ..
  | .jgtReg .. => Laws.OperandBytes.jgtReg ..
  | .jleLit .. => Laws.OperandBytes.jleLit ..
  | .jleReg .. => Laws.OperandBytes.jleReg ..
  | .jgeLit .. => Laws.OperandBytes.jgeLit ..
  | .jgeReg .. => Laws.OperandBytes.jgeReg ..
  | .pshLit .. => Laws.OperandBytes.pshLit ..
  | .pshReg .. => Laws.OperandBytes.pshReg ..
  | .pop .. => Laws.OperandBytes.pop ..
  | .calLit .. => Laws.OperandBytes.calLit ..
  | .calReg .. => Laws.OperandBytes.calReg ..
  | .ret => Laws.OperandBytes.ret
  | .retInt => Laws.OperandBytes.retInt
  | .int .. => Laws.OperandBytes.int ..
  | .hlt => Laws.OperandBytes.hlt

/-- An instruction has as many operand bytes as its opcode says (R70, R83). -/
@[simp] theorem Instr.length_operandBytes (i : Instr) : i.operandBytes.length = i.mnemonic.operandBytes :=
  i.operandBytes_statement.1

/-- Operand bytes read back as the instruction they were written for, whatever follows them (R75, R78). -/
@[simp] theorem Instr.ofBytes_operandBytes (i : Instr) (rest : List Byte) :
    Instr.ofBytes i.mnemonic (i.operandBytes ++ rest) = i :=
  i.operandBytes_statement.2 rest

/-- A legal map finds every mnemonic by its opcode byte (R81). -/
theorem mnemonicOf_opcodeOf_of_legal {map : OpcodeMap} (hmap : map.legal = true) (m : Mnemonic) :
    mnemonicOf map (opcodeOf map m) = some m := by
  obtain ⟨hrows, hinj⟩ := (OpcodeMap.legal_iff map).1 hmap
  exact mnemonicOf_opcodeOf hinj (hrows ▸ m.mem_all)

theorem decode_encode {map : OpcodeMap} (hmap : map.legal = true) (i : Instr) (rest : List Byte) :
    decode map (encode map i ++ rest) = .ok (i, rest) := by
  have hlen : i.mnemonic.operandBytes ≤ (i.operandBytes ++ rest).length := by simp
  calc decode map (encode map i ++ rest)
      = .ok (Instr.ofBytes i.mnemonic (i.operandBytes ++ rest),
          (i.operandBytes ++ rest).drop i.mnemonic.operandBytes) :=
        decode_of_complete (mnemonicOf_opcodeOf_of_legal hmap i.mnemonic) hlen
    _ = .ok (i, rest) := by rw [Instr.ofBytes_operandBytes, ← Instr.length_operandBytes, List.drop_left]

/-- Settles O1: the opcode byte finds the mnemonic, and each instruction's operand bytes assemble to it again. -/
theorem decodeEncodeAgree : Obligations.DecodeEncodeAgree := fun _ i rest hmap => decode_encode hmap i rest

/-- Settles O5: each word is what the encoder writes for the instruction it stands for. -/
theorem sampleWordsDecode : Obligations.SampleWordsDecode := by
  have decodes (i : Instr) : decode OpcodeMap.default (encode OpcodeMap.default i) = .ok (i, []) := by
    simpa using decode_encode (map := OpcodeMap.default) (by decide) i []
  exact ⟨decodes (.movLitReg 0x1234 .r1), decodes (.movLitOffReg 0x2000 .r2 .r3), decodes (.subRegLit .r1 0x0005),
    decodes (.lsfRegLit .r1 0x0F), decodes (.jneLit 0x0005 0x0004), decodes (.calLit 0x0100), decodes (.int 0x0012),
    decodes .hlt⟩

/-! ## Lengths (R70, R83) -/

/-- No format has more than four operand bytes (R75). -/
theorem Mnemonic.operandBytes_le_four (m : Mnemonic) : m.operandBytes ≤ 4 := by
  unfold Mnemonic.operandBytes
  cases m.format <;> decide

/-- An encoded instruction is as long as its opcode says, in every map. -/
theorem length_encode (map : OpcodeMap) (i : Instr) : (encode map i).length = i.mnemonic.length := by
  rw [encode, List.length_cons, Instr.length_operandBytes, Mnemonic.length, Nat.add_comm]

/-- Settles O2, by the three answers of the decoder: no opcode, too few operand bytes, and enough of them. -/
theorem opcodeAloneFixesLength : Obligations.OpcodeAloneFixesLength := by
  intro map op bytes _
  cases hop : mnemonicOf map op with
  | none => exact decode_of_illegal bytes hop
  | some m =>
    have hfour := m.operandBytes_le_four
    have hlength : m.length = 1 + m.operandBytes := rfl
    refine ⟨by omega, by omega, fun hshort => decode_of_truncated hop (by omega), fun henough => ?_⟩
    refine ⟨Instr.ofBytes m bytes, Instr.mnemonic_ofBytes m bytes, ?_, ?_⟩
    · rw [length_encode, Instr.mnemonic_ofBytes]
    · rw [decode_of_complete hop (by omega), hlength, Nat.add_sub_cancel_left]

/-! ## Selectors (R74, R78) -/

theorem Reg.toNat_selector (r : Reg) : r.selector.toNat = r.index := by
  cases r <;> rfl

/-- Settles O4, by the index of the register a byte names, and the rule's examples. -/
theorem selectorNamesRegisterModuloThirteen : Obligations.SelectorNamesRegisterModuloThirteen :=
  ⟨Reg.index_ofSelector, fun r => ⟨r.toNat_selector, r.ofSelector_selector⟩, rfl, rfl, rfl, rfl, rfl, rfl⟩

/-! ## The default opcode map (R80, R82) -/

/-- A byte is illegal exactly when no row of the map has it. -/
theorem mnemonicOf_eq_none_iff (map : OpcodeMap) (op : Byte) :
    mnemonicOf map op = none ↔ op ∉ map.map Prod.fst := by
  induction map with
  | nil => simp [mnemonicOf]
  | cons row rows ih =>
    obtain ⟨b, m⟩ := row
    by_cases hb : b = op
    · simp [mnemonicOf, hb]
    · simp [mnemonicOf, hb, ih, Ne.symm hb]

/-- The numbers of the bytes that select a mnemonic are the numbers of the map's bytes. -/
theorem mnemonicOf_isSome_iff_mem (map : OpcodeMap) (n : Nat) :
    (n < 256 ∧ (mnemonicOf map (BitVec.ofNat 8 n)).isSome = true) ↔ n ∈ (map.map Prod.fst).map BitVec.toNat := by
  rw [Option.isSome_iff_ne_none, Ne, mnemonicOf_eq_none_iff, not_not, List.mem_map (f := BitVec.toNat)]
  constructor
  · rintro ⟨hn, hmem⟩
    exact ⟨_, hmem, (BitVec.toNat_ofNat n 8).trans (Nat.mod_eq_of_lt hn)⟩
  · rintro ⟨op, hmem, rfl⟩
    exact ⟨op.isLt, by rwa [BitVec.ofNat_toNat, BitVec.setWidth_eq]⟩

/-- An injective map leaves illegal all bytes but one for each of its rows (R81, R82). -/
theorem length_illegal_add_length {map : OpcodeMap} (hinj : (map.map Prod.fst).Nodup) :
    ((List.range 256).filter fun n => mnemonicOf map (BitVec.ofNat 8 n) == none).length + map.length = 256 := by
  have hlegal : ((List.range 256).filter fun n => !(mnemonicOf map (BitVec.ofNat 8 n) == none)).Perm
      ((map.map Prod.fst).map BitVec.toNat) := by
    refine (List.perm_ext_iff_of_nodup (List.nodup_range.filter _) (hinj.map BitVec.toNat_injective)).2 fun n => ?_
    rw [← mnemonicOf_isSome_iff_mem]
    simp [Option.isSome_iff_ne_none]
  have hlength := hlegal.length_eq
  have hsplit := List.length_eq_length_filter_add (l := List.range 256)
    fun n => mnemonicOf map (BitVec.ofNat 8 n) == none
  simp only [List.length_map, List.length_range] at hlength hsplit
  omega

/-- Settles O3: the listed ranges are the gaps between the map's bytes, each mnemonic has one row, and 50 bytes of the
256 are in the map. -/
theorem illegalOpcodeBytesAreTheListed206 : Obligations.IllegalOpcodeBytesAreTheListed206 := by
  refine ⟨fun op => ?gaps, fun op m hop => opcodeOf_of_mnemonicOf (by decide) hop, ?count⟩
  case gaps =>
    have hop := op.isLt
    rw [mnemonicOf_eq_none_iff]
    simp only [OpcodeMap.default, List.map_cons, List.map_nil, List.mem_cons, List.not_mem_nil, or_false,
      ← BitVec.toNat_inj, BitVec.reduceToNat]
    omega
  case count =>
    exact Nat.add_right_cancel (length_illegal_add_length (map := OpcodeMap.default) (by decide))

end Sys2Proof
end

section
/-! Fetching and stepping (30_encoding.md R72, R73, R85, R86): what `fetch8` and `fetch16` do, and a `STEP` as its
opcode fetch, its operand fetch and its execution, with the fault of a fetch past the end and the response. -/

namespace Sys2Proof.Machine

/-! ## The opcode fetch of a STEP -/

theorem State.setReg_setReg (s : State) (r : Reg) (v w : Word) : (s.setReg r v).setReg r w = s.setReg r w := by
  simp only [State.setReg, RegFile.set_set]

theorem onlyRegsChanged_setReg (s : State) (r : Reg) (v : Word) : OnlyRegsChanged [r] s (s.setReg r v) := by
  refine ⟨fun q hq => ?_, fun _ => rfl, ⟨rfl, rfl⟩, rfl, rfl, rfl⟩
  rw [State.reg_setReg, if_neg (List.ne_of_not_mem_cons hq)]

/-- Settles O13, by what each fetch does in bounds and out of bounds. -/
theorem fetchReadsAndAdvances : Obligations.FetchReadsAndAdvances := by
  refine fun s => ⟨fun h => ?byte, fetch8_outside, fun h => ?word, fetch16_outside⟩
  case byte => exact ⟨_, fetch8_inside h, by simp, onlyRegsChanged_setReg s .ip _⟩
  case word => exact ⟨_, fetch16_inside h, by simp, onlyRegsChanged_setReg s .ip _⟩

/-- The state after the opcode fetch of a `STEP`: execution has begun and `ip` is past the opcode byte (R72). -/
def opcodeFetched (s : State) : State := s.start.setReg .ip (s.reg .ip + 1)

@[simp] theorem opcodeFetched_config (s : State) : (opcodeFetched s).config = s.config := rfl
@[simp] theorem opcodeFetched_mem (s : State) : (opcodeFetched s).mem = s.mem := rfl

theorem opcodeFetched_reg_ip (s : State) : (opcodeFetched s).reg .ip = s.reg .ip + 1 := by
  rw [opcodeFetched, State.reg_setReg, if_pos rfl]

theorem opcodeFetched_reg_other {s : State} {q : Reg} (h : q ≠ .ip) : (opcodeFetched s).reg q = s.reg q := by
  rw [opcodeFetched, State.reg_setReg, if_neg h, State.reg_start]

/-- A `STEP` whose opcode byte lies in memory decodes that byte (R85). -/
theorem step_opcode_inside {s : State} (hp : s.phase ≠ .ended) (hip : (s.reg .ip).toNat < s.config.memSize) :
    step s = runFetched (decodeOpcode (s.mem.byteAt (s.reg .ip).toNat) (s.reg .ip) (opcodeFetched s)) := by
  rw [step_of_not_ended hp, fetchInstr, fetch8_inside (s := s.start) hip]
  rfl

/-- A `STEP` whose opcode byte lies past the end of memory faults there (R72, R86). -/
theorem step_opcode_outside {s : State} (hp : s.phase ≠ .ended) (hip : s.config.memSize ≤ (s.reg .ip).toNat) :
    step s = .fault (s.start.raise (.outOfBounds (s.reg .ip).toNat 1)) := by
  rw [step_of_not_ended hp, fetchInstr, fetch8_outside (s := s.start) hip]
  rfl

/-! ## The operand fetch of a STEP -/

/-- The operand fields are readable after the opcode fetch when they are readable from the byte after the opcode. -/
theorem fieldsReadable_opcodeFetched (s : State) (fields : List Field) :
    fieldsReadable (opcodeFetched s) ((opcodeFetched s).reg .ip) fields ↔
      fieldsReadable s (s.reg .ip + 1) fields := by
  rw [opcodeFetched_reg_ip]
  exact fieldsReadable_congr (opcodeFetched_config s) _ _

/-- Settles O14: the opcode fetch, then the operand fetch, each inside memory; their advances of `ip` add up to the
length. -/
theorem stepRunsTheDecodedInstruction : Obligations.StepRunsTheDecodedInstruction := by
  intro s op bytes i hp hw hip hcode hdec hread
  obtain ⟨rfl, hoperands⟩ := hcode
  have hoperands' : codeAt (opcodeFetched s) ((opcodeFetched s).reg .ip) bytes := by
    rw [opcodeFetched_reg_ip]
    exact (codeAt_congr (opcodeFetched_mem s) _ _).2 hoperands
  have hadvance : s.reg .ip + 1 + BitVec.ofNat 16 i.mnemonic.operandBytes =
      s.reg .ip + BitVec.ofNat 16 i.mnemonic.length := by
    rw [Mnemonic.length, BitVec.ofNat_add, BitVec.add_assoc]
    rfl
  rw [step_opcode_inside hp hip,
    decodeOpcode_inside (s := opcodeFetched s) _ hw hoperands' hdec ((fieldsReadable_opcodeFetched s _).2 hread),
    opcodeFetched_reg_ip, hadvance, opcodeFetched, State.setReg_setReg, runFetched]

/-- The fault of an operand fetch, seen from before the opcode fetch: only `ip` differs. -/
theorem FaultsAtFirstUnreadable.of_opcodeFetched {s : State} {a : Word} {fields : List Field}
    {o : Host.Outcome State Fault Refusal} (h : FaultsAtFirstUnreadable (opcodeFetched s) a fields o) :
    FaultsAtFirstUnreadable s a fields o := by
  obtain ⟨before, f, after, final, hfields, hbefore, hout, hfault, hip, hregs, hmem, hhid, hcfg⟩ := h
  have hregs' : SameRegsBut [.ip] s final := fun q hq =>
    (hregs q hq).trans (opcodeFetched_reg_other (List.ne_of_not_mem_cons hq))
  exact ⟨before, f, after, final, hfields, (fieldsReadable_congr (opcodeFetched_config s) before a).1 hbefore, hout,
    hfault, hip, hregs', hmem, hhid, hcfg⟩

/-- Operand fields that do not all lie in memory: `STEP` faults at the first that does not (R86). -/
theorem operandFetchFaults (m : Mnemonic) : OperandFetchFaults m := by
  intro s hp hip hop hread
  rw [step_opcode_inside hp hip, ← opcodeFetched_reg_ip]
  exact (decodeOpcode_outside (s := opcodeFetched s) (s.reg .ip) hop
    ((fieldsReadable_opcodeFetched s _).not.2 hread)).of_opcodeFetched

/-- Settles O16: the opcode byte outside memory, and each mnemonic's operand fields. -/
theorem fetchPastTheEndRaises : Obligations.FetchPastTheEndRaises :=
  ⟨fun _ hp hip => ⟨_, step_opcode_outside hp hip, fun _ _ => rfl, fun _ => rfl, ⟨rfl, rfl⟩, rfl⟩,
    operandFetchFaults⟩

/-! ## The response of a STEP (00_scope.md R7) -/

theorem jumpIf_response (op : Comparison) (v target : Word) (s : State) :
    (jumpIf op v target s).response = s.response := by
  unfold jumpIf
  split <;> rfl

/-- Every instruction but HLT leaves the response as it was. -/
theorem exec_response_other {i : Instr} {s t : State} (hhlt : i ≠ .hlt) (h : exec i s = .next t) :
    t.response = s.response := by
  cases exec_eq_next h with
  | result | store | pshLit | pshReg | pop | calLit | calReg | intMasked => rfl
  | jump => exact jumpIf_response _ _ _ _
  | hlt => exact absurd rfl hhlt
  | ret => exact restored_response s
  | retInt => exact restored_response (s.setInHandler false)
  | intDelivered => exact savedContext_response s

/-- An instruction that completes responds `Halted` if it is HLT, and leaves the response as it was otherwise. -/
theorem exec_response {i : Instr} {s t : State} (h : exec i s = .next t) :
    t.response = if i = .hlt then .halted else s.response := by
  by_cases hhlt : i = .hlt
  · subst hhlt
    obtain rfl := Host.Outcome.next.inj h
    rfl
  · rw [if_neg hhlt]
    exact exec_response_other hhlt h

/-- Settles O17: the fetch leaves the response `Running` that the transaction began with. -/
theorem stepRespondsHaltedExactlyForHlt : Obligations.StepRespondsHaltedExactlyForHlt := by
  intro s s' t i hp hfetch hstep
  have hkeeps := fetchInstr_keeps s.start
  rw [hfetch] at hkeeps
  obtain ⟨⟨-, -, hresponse⟩, -⟩ := hkeeps
  rw [step_of_not_ended hp, hfetch] at hstep
  rw [exec_response hstep, hresponse, State.start_response]

end Sys2Proof.Machine
end

section
/-! The data transfer instructions (40_data_transfer.md R100 to R107): each MOV form as the move or the store that gives
it its meaning, what a move and a store do in bounds and out of bounds, and the statements about the seven forms. -/

namespace Sys2Proof.Machine

/-! ## The meaning of each MOV form (R100 to R106) -/

theorem exec_movLitReg (lit : Word) (rd : Reg) (s : State) :
    exec (.movLitReg lit rd) s = (moveToReg (.literal lit) rd s).outcome := rfl

theorem exec_movRegReg (rs rd : Reg) (s : State) :
    exec (.movRegReg rs rd) s = (moveToReg (.register rs) rd s).outcome := rfl

theorem exec_movRegMem (rs : Reg) (addr : Word) (s : State) :
    exec (.movRegMem rs addr) s = (memWrite16 addr.toNat (s.reg rs) s).outcome := rfl

theorem exec_movMemReg (addr : Word) (rd : Reg) (s : State) :
    exec (.movMemReg addr rd) s = (moveToReg (.absolute addr) rd s).outcome := rfl

theorem exec_movLitMem (lit addr : Word) (s : State) :
    exec (.movLitMem lit addr) s = (memWrite16 addr.toNat lit s).outcome := rfl

theorem exec_movRegPtrReg (rp rd : Reg) (s : State) :
    exec (.movRegPtrReg rp rd) s = (moveToReg (.indirect rp) rd s).outcome := rfl

theorem exec_movLitOffReg (base : Word) (ri rd : Reg) (s : State) :
    exec (.movLitOffReg base ri rd) s = (moveToReg (.indexed base ri) rd s).outcome := rfl

/-! ## Moves into a register -/

/-- A move whose source can be read writes the value read to its destination, and nothing else (R107). -/
theorem moveToReg_completes {src : Source} {s : State} {v : Word} (rd : Reg) (hread : readSource src s = .ok v s) :
    ∃ t, (moveToReg src rd s).outcome = .next t ∧ t.reg rd = v ∧ OnlyRegsChanged [rd] s t := by
  refine ⟨s.setReg rd v, ?_, ?_, onlyRegsChanged_setReg s rd v⟩
  · rw [moveToReg, hread, Access.bind_ok, Access.outcome_ok]
  · rw [State.reg_setReg, if_pos rfl]

/-- A move whose source cannot be read faults as the read does. -/
theorem moveToReg_faults {src : Source} {s : State} {f : Fault} (rd : Reg) (hread : readSource src s = .raised f) :
    (moveToReg src rd s).outcome = .fault f := by
  rw [moveToReg, hread, Access.bind_raised, Access.outcome_raised]

/-- A move from a source in memory at address `a`: the word there into the destination, or the fault of the read. -/
theorem moveToReg_fromMemory {src : Source} {s : State} {a : Nat} (rd : Reg)
    (hsrc : readSource src s = memRead16 a s) :
    (a + 1 < s.config.memSize →
      ∃ t, (moveToReg src rd s).outcome = .next t ∧ t.reg rd = wordAt s a ∧ OnlyRegsChanged [rd] s t) ∧
    (s.config.memSize ≤ a + 1 → (moveToReg src rd s).outcome = .fault (s.raise (.outOfBounds a 2))) :=
  ⟨fun h => moveToReg_completes rd (hsrc.trans (memRead16_inside h)),
    fun h => moveToReg_faults rd (hsrc.trans (memRead16_outside h))⟩

/-- A computed address is the exact sum in the rules' own reading (20_memory.md R55, 92_eei_decisions.md D7). -/
theorem effectiveAddress_exact {c : Config} (sum : Nat) (h : c.readings.eaWrap16 = false) :
    effectiveAddress c sum = sum := by
  simp [effectiveAddress, h]

theorem indexedAddress_exact {s : State} (base : Word) (ri : Reg) (h : s.config.readings.eaWrap16 = false) :
    indexedAddress base ri s = base.toNat + (s.reg ri).toNat :=
  effectiveAddress_exact _ h

/-! ## Stores -/

/-- A store of `v` at address `a`: its two bytes big-endian and nothing else, or the fault with nothing written. -/
theorem memWrite16_stores (s : State) (a : Nat) (v : Word) :
    (a + 1 < s.config.memSize → ∃ t, (memWrite16 a v s).outcome = .next t ∧
      t.mem.byteAt a = highByte v ∧ t.mem.byteAt (a + 1) = lowByte v ∧
      SameMemoryOutsideWord a s t ∧ SameRegsBut [] s t ∧ SameHidden s t ∧ SameEngine s t) ∧
    (s.config.memSize ≤ a + 1 → (memWrite16 a v s).outcome = .fault (s.raise (.outOfBounds a 2))) := by
  refine ⟨fun h => ⟨s.setMem (s.mem.writeWord a v), ?_, Memory.byteAt_writeWord_high s.mem a v,
    Memory.byteAt_writeWord_low s.mem a v, sameMemoryOutsideWord_writeWord s a v, fun _ _ => rfl, ⟨rfl, rfl⟩,
    rfl, rfl, rfl⟩, fun h => ?_⟩
  · rw [memWrite16_inside h, Access.outcome_ok]
  · rw [memWrite16_outside h, Access.outcome_raised]

/-! ## The statements -/

/-- Settles O27: a literal and a register are read in every state, so neither move faults. -/
theorem moveLiteralOrRegister : Obligations.MoveLiteralOrRegister := by
  refine ⟨operandFetchFaults _, operandFetchFaults _, fun s lit rd => ⟨rfl, ?literal⟩,
    fun s rs rd => ⟨rfl, ?register⟩⟩
  case literal =>
    rw [exec_movLitReg]
    exact moveToReg_completes rd rfl
  case register =>
    rw [exec_movRegReg]
    exact moveToReg_completes rd rfl

/-- Settles O28: the three loads differ in the address of their source alone. -/
theorem loadsReadTheAddressedWord : Obligations.LoadsReadTheAddressedWord := by
  refine ⟨operandFetchFaults _, operandFetchFaults _, operandFetchFaults _, fun s addr rd => ⟨rfl, ?absolute⟩,
    fun s rp rd => ⟨rfl, ?indirect⟩, fun s base ri rd hexact => ⟨rfl, ?indexed⟩⟩
  case absolute =>
    rw [exec_movMemReg]
    exact moveToReg_fromMemory rd rfl
  case indirect =>
    rw [exec_movRegPtrReg]
    exact moveToReg_fromMemory rd rfl
  case indexed =>
    have hsrc : readSource (.indexed base ri) s = memRead16 (base.toNat + (s.reg ri).toNat) s := by
      rw [readSource, indexedAddress_exact base ri hexact]
    rw [exec_movLitOffReg]
    exact moveToReg_fromMemory rd hsrc

/-- Settles O29: both stores are the write of a word at a fixed address. -/
theorem storesWriteTheAddressedWord : Obligations.StoresWriteTheAddressedWord := by
  refine ⟨operandFetchFaults _, operandFetchFaults _, fun s rs addr => ⟨rfl, ?register⟩,
    fun s lit addr => ⟨rfl, ?literal⟩⟩
  case register =>
    rw [exec_movRegMem]
    exact memWrite16_stores s addr.toNat (s.reg rs)
  case literal =>
    rw [exec_movLitMem]
    exact memWrite16_stores s addr.toNat lit

end Sys2Proof.Machine
end

section
/-! The arithmetic instructions (41_arithmetic.md R120 to R131): each form as the exact result that it writes, the word
that an exact sum, difference or product leaves in a register, and the statements about the eleven forms. -/

namespace Sys2Proof.Machine

/-! ## The meaning of each form (R121 to R131) -/

theorem exec_addRegReg (ra rb : Reg) (s : State) :
    exec (.addRegReg ra rb) s = .next (s.writeExact .acc (exactSum (s.reg ra) (s.reg rb))) := rfl

theorem exec_addLitReg (lit : Word) (r : Reg) (s : State) :
    exec (.addLitReg lit r) s = .next (s.writeExact .acc (exactSum lit (s.reg r))) := rfl

theorem exec_addRegLit (r : Reg) (lit : Word) (s : State) :
    exec (.addRegLit r lit) s = .next (s.writeExact .acc (exactSum (s.reg r) lit)) := rfl

theorem exec_subRegReg (ra rb : Reg) (s : State) :
    exec (.subRegReg ra rb) s = .next (s.writeExact .acc (exactDifference (s.reg ra) (s.reg rb))) := rfl

theorem exec_subLitReg (lit : Word) (r : Reg) (s : State) :
    exec (.subLitReg lit r) s = .next (s.writeExact .acc (exactDifference (s.reg r) lit)) := rfl

theorem exec_subRegLit (r : Reg) (lit : Word) (s : State) :
    exec (.subRegLit r lit) s = .next (s.writeExact .acc (exactDifference lit (s.reg r))) := rfl

theorem exec_mulRegReg (ra rb : Reg) (s : State) :
    exec (.mulRegReg ra rb) s = .next (s.writeExact .acc (exactProduct (s.reg ra) (s.reg rb))) := rfl

theorem exec_mulLitReg (lit : Word) (r : Reg) (s : State) :
    exec (.mulLitReg lit r) s = .next (s.writeExact .acc (exactProduct lit (s.reg r))) := rfl

theorem exec_mulRegLit (r : Reg) (lit : Word) (s : State) :
    exec (.mulRegLit r lit) s = .next (s.writeExact .acc (exactProduct (s.reg r) lit)) := rfl

theorem exec_incReg (r : Reg) (s : State) :
    exec (.incReg r) s = .next (s.writeExact r (exactSum (s.reg r) 1)) := rfl

theorem exec_decReg (r : Reg) (s : State) :
    exec (.decReg r) s = .next (s.writeExact r (exactDifference (s.reg r) 1)) := rfl

/-! ## Exact results as words (R120) -/

/-- A word read as an unsigned number is written back as itself. -/
theorem ofInt_natCast_toNat (a : Word) : BitVec.ofInt 16 (a.toNat : Int) = a := by
  rw [BitVec.ofInt_natCast, BitVec.ofNat_toNat, BitVec.setWidth_eq]

theorem ofInt_exactSum (a b : Word) : BitVec.ofInt 16 (exactSum a b) = a + b := by
  rw [exactSum, BitVec.ofInt_add, ofInt_natCast_toNat, ofInt_natCast_toNat]

theorem ofInt_exactDifference (a b : Word) : BitVec.ofInt 16 (exactDifference a b) = a - b := by
  have hexact : exactDifference a b + b.toNat = a.toNat := Int.sub_add_cancel ..
  have hword := congrArg (BitVec.ofInt 16) hexact
  rw [BitVec.ofInt_add, ofInt_natCast_toNat, ofInt_natCast_toNat] at hword
  exact BitVec.eq_sub_iff_add_eq.mpr hword

/-! ## Writing an exact result (R120) -/

/-- The write of a sum completes, whether or not it carries: the sum modulo 2^16 in `r` and nothing else changed. -/
theorem writeSum_completes {o : Host.Outcome State Fault Refusal} {s : State} {r : Reg} {a b : Word}
    (h : o = .next (s.writeExact r (exactSum a b))) : ∃ t, o = .next t ∧ t.reg r = a + b ∧ OnlyRegsChanged [r] s t := by
  refine ⟨_, h, ?_, (registerWriteStoresModulo s r _).2⟩
  rw [State.reg_writeExact, if_pos rfl, ofInt_exactSum]

/-- The write of a difference completes, whether or not it borrows: the difference modulo 2^16 in `r` and nothing else
changed. -/
theorem writeDifference_completes {o : Host.Outcome State Fault Refusal} {s : State} {r : Reg} {a b : Word}
    (h : o = .next (s.writeExact r (exactDifference a b))) :
    ∃ t, o = .next t ∧ t.reg r = a - b ∧ OnlyRegsChanged [r] s t := by
  refine ⟨_, h, ?_, (registerWriteStoresModulo s r _).2⟩
  rw [State.reg_writeExact, if_pos rfl, ofInt_exactDifference]

/-- The write of a product completes: its low 16 bits in `r` and nothing else changed. -/
theorem writeProduct_completes {o : Host.Outcome State Fault Refusal} {s : State} {r : Reg} {a b : Word}
    (h : o = .next (s.writeExact r (exactProduct a b))) :
    ∃ t, o = .next t ∧ (t.reg r).toNat = a.toNat * b.toNat % 65536 ∧ OnlyRegsChanged [r] s t := by
  obtain ⟨hvalue, hframe⟩ := registerWriteStoresModulo s r (exactProduct a b)
  rw [exactProduct] at hvalue
  exact ⟨_, h, mod_cast hvalue, hframe⟩

/-! ## The statements -/

/-- Settles O30: each form writes the sum of its operands, in its own order. -/
theorem addIntoAcc : Obligations.AddIntoAcc := by
  refine ⟨operandFetchFaults _, operandFetchFaults _, operandFetchFaults _, fun s ra rb => ⟨rfl, ?registers⟩,
    fun s lit r => ⟨rfl, rfl, ?literalFirst, ?registerFirst⟩⟩
  case registers => exact writeSum_completes (exec_addRegReg ra rb s)
  case literalFirst => exact writeSum_completes (exec_addLitReg lit r s)
  case registerFirst => exact writeSum_completes (exec_addRegLit r lit s)

/-- Settles O31: each form writes a difference; in the two literal forms the operand encoded second is the minuend. -/
theorem subtractIntoAcc : Obligations.SubtractIntoAcc := by
  refine ⟨operandFetchFaults _, operandFetchFaults _, operandFetchFaults _, fun s ra rb => ⟨rfl, ?registers⟩,
    fun s lit r => ⟨rfl, rfl, ?registerMinusLiteral, ?literalMinusRegister⟩⟩
  case registers => exact writeDifference_completes (exec_subRegReg ra rb s)
  case registerMinusLiteral => exact writeDifference_completes (exec_subLitReg lit r s)
  case literalMinusRegister => exact writeDifference_completes (exec_subRegLit r lit s)

/-- Settles O32: each form writes the product of its operands, of which a register holds the low half. -/
theorem multiplyIntoAcc : Obligations.MultiplyIntoAcc := by
  refine ⟨operandFetchFaults _, operandFetchFaults _, operandFetchFaults _, fun s ra rb => ⟨rfl, ?registers⟩,
    fun s lit r => ⟨rfl, rfl, ?literalFirst, ?registerFirst⟩⟩
  case registers => exact writeProduct_completes (exec_mulRegReg ra rb s)
  case literalFirst => exact writeProduct_completes (exec_mulLitReg lit r s)
  case registerFirst => exact writeProduct_completes (exec_mulRegLit r lit s)

/-- Settles O33: both are a sum or a difference with 1, written to the register it was read from. -/
theorem incrementAndDecrementInPlace : Obligations.IncrementAndDecrementInPlace := by
  refine ⟨operandFetchFaults _, operandFetchFaults _, fun s r => ⟨rfl, rfl, ?increment, ?decrement⟩⟩
  case increment => exact writeSum_completes (exec_incReg r s)
  case decrement => exact writeDifference_completes (exec_decReg r s)

end Sys2Proof.Machine
end

section
/-! The shift and logic instructions (42_logic_shift.md R140 to R151): each form as the word that it writes, the shift
law of R140 in numbers, and the statements about the four shifts and the seven logic forms. -/

namespace Sys2Proof.Machine

/-! ## The meaning of each form (R141 to R151) -/

theorem exec_lsfRegLit (r : Reg) (lit8 : Byte) (s : State) :
    exec (.lsfRegLit r lit8) s = .next (s.setReg r (shl (s.reg r) (shiftAmount s.config lit8.toNat))) := rfl

theorem exec_lsfRegReg (ra rb : Reg) (s : State) :
    exec (.lsfRegReg ra rb) s = .next (s.setReg ra (shl (s.reg ra) (shiftAmount s.config (s.reg rb).toNat))) := rfl

theorem exec_rsfRegLit (r : Reg) (lit8 : Byte) (s : State) :
    exec (.rsfRegLit r lit8) s = .next (s.setReg r (shr (s.reg r) (shiftAmount s.config lit8.toNat))) := rfl

theorem exec_rsfRegReg (ra rb : Reg) (s : State) :
    exec (.rsfRegReg ra rb) s = .next (s.setReg ra (shr (s.reg ra) (shiftAmount s.config (s.reg rb).toNat))) := rfl

theorem exec_andRegLit (r : Reg) (lit : Word) (s : State) :
    exec (.andRegLit r lit) s = .next (s.setReg .acc (s.reg r &&& lit)) := rfl

theorem exec_andRegReg (ra rb : Reg) (s : State) :
    exec (.andRegReg ra rb) s = .next (s.setReg .acc (s.reg ra &&& s.reg rb)) := rfl

theorem exec_orRegLit (r : Reg) (lit : Word) (s : State) :
    exec (.orRegLit r lit) s = .next (s.setReg .acc (s.reg r ||| lit)) := rfl

theorem exec_orRegReg (ra rb : Reg) (s : State) :
    exec (.orRegReg ra rb) s = .next (s.setReg .acc (s.reg ra ||| s.reg rb)) := rfl

theorem exec_xorRegLit (r : Reg) (lit : Word) (s : State) :
    exec (.xorRegLit r lit) s = .next (s.setReg .acc (s.reg r ^^^ lit)) := rfl

theorem exec_xorRegReg (ra rb : Reg) (s : State) :
    exec (.xorRegReg ra rb) s = .next (s.setReg .acc (s.reg ra ^^^ s.reg rb)) := rfl

theorem exec_not (r : Reg) (s : State) : exec (.not r) s = .next (s.setReg .acc (~~~(s.reg r))) := rfl

/-! ## The shift law (R140) -/

theorem shiftAmount_unreduced {c : Config} (amount : Nat) (h : c.readings.shiftMod32 = false) :
    shiftAmount c amount = amount := by
  rw [shiftAmount, h, if_neg Bool.false_ne_true]

/-- A left shift multiplies by a power of 2, modulo 2^16, up to amount 15. -/
theorem toNat_shl (v : Word) (amount : Nat) :
    (shl v amount).toNat = if amount ≤ 15 then v.toNat * 2 ^ amount % 65536 else 0 := by
  unfold shl
  split
  · rw [BitVec.toNat_ofNat, Nat.shiftLeft_eq]
  · rfl

/-- A right shift divides by a power of 2 up to amount 15; the quotient fits a word, so that nothing wraps. -/
theorem toNat_shr (v : Word) (amount : Nat) :
    (shr v amount).toNat = if amount ≤ 15 then v.toNat / 2 ^ amount else 0 := by
  unfold shr
  split
  · have hfits : v.toNat / 2 ^ amount < 2 ^ 16 := (Nat.div_le_self ..).trans_lt v.isLt
    rw [BitVec.toNat_ofNat, Nat.shiftRight_eq_div_pow, Nat.mod_eq_of_lt hfits]
  · rfl

/-! ## Writing a shifted word and writing a word bit by bit -/

/-- A left shift in place completes, whatever amount `n` the configuration's reading makes of the operand. -/
theorem shiftLeft_completes {o : Host.Outcome State Fault Refusal} {s : State} {r : Reg} {amount n : Nat}
    (hamount : shiftAmount s.config amount = n)
    (h : o = .next (s.setReg r (shl (s.reg r) (shiftAmount s.config amount)))) :
    ∃ t, o = .next t ∧ (t.reg r).toNat = (if n ≤ 15 then (s.reg r).toNat * 2 ^ n % 65536 else 0) ∧
      OnlyRegsChanged [r] s t := by
  refine ⟨_, h, ?_, onlyRegsChanged_setReg s r _⟩
  rw [State.reg_setReg, if_pos rfl, hamount, toNat_shl]

/-- A right shift in place completes, whatever amount `n` the configuration's reading makes of the operand. -/
theorem shiftRight_completes {o : Host.Outcome State Fault Refusal} {s : State} {r : Reg} {amount n : Nat}
    (hamount : shiftAmount s.config amount = n)
    (h : o = .next (s.setReg r (shr (s.reg r) (shiftAmount s.config amount)))) :
    ∃ t, o = .next t ∧ (t.reg r).toNat = (if n ≤ 15 then (s.reg r).toNat / 2 ^ n else 0) ∧
      OnlyRegsChanged [r] s t := by
  refine ⟨_, h, ?_, onlyRegsChanged_setReg s r _⟩
  rw [State.reg_setReg, if_pos rfl, hamount, toNat_shr]

/-- The write of a word whose bits are known completes: those bits in `r` and nothing else changed. -/
theorem writeBits_completes {o : Host.Outcome State Fault Refusal} {s : State} {r : Reg} {v : Word} {bit : Nat → Bool}
    (hbits : ∀ k, k < 16 → v.getLsbD k = bit k) (h : o = .next (s.setReg r v)) :
    ∃ t, o = .next t ∧ OnlyRegsChanged [r] s t ∧ ∀ k, k < 16 → (t.reg r).getLsbD k = bit k := by
  refine ⟨_, h, onlyRegsChanged_setReg s r v, fun k hk => ?_⟩
  rw [State.reg_setReg, if_pos rfl, hbits k hk]

/-- Below its width a complement has the negated bit; past its width `getLsbD` reads `false` of both. -/
theorem getLsbD_not_inside {v : Word} {k : Nat} (hk : k < 16) : (~~~v).getLsbD k = !v.getLsbD k := by
  rw [BitVec.getLsbD_not, decide_eq_true hk, Bool.true_and]

/-! ## The statements -/

/-- Settles O34: each form shifts the register it writes, by an amount that the rule's reading leaves unreduced. -/
theorem shiftInPlace : Obligations.ShiftInPlace := by
  refine ⟨operandFetchFaults _, operandFetchFaults _, operandFetchFaults _, operandFetchFaults _,
    fun s r amount hreading => ⟨rfl, rfl, ?leftByLiteral, ?rightByLiteral⟩,
    fun s ra rb hreading => ⟨rfl, rfl, ?leftByRegister, ?rightByRegister⟩⟩
  case leftByLiteral => exact shiftLeft_completes (shiftAmount_unreduced _ hreading) (exec_lsfRegLit r amount s)
  case rightByLiteral => exact shiftRight_completes (shiftAmount_unreduced _ hreading) (exec_rsfRegLit r amount s)
  case leftByRegister => exact shiftLeft_completes (shiftAmount_unreduced _ hreading) (exec_lsfRegReg ra rb s)
  case rightByRegister => exact shiftRight_completes (shiftAmount_unreduced _ hreading) (exec_rsfRegReg ra rb s)

/-- Settles O35: each form writes one bitwise operation's word to `acc`, of which each bit is known. -/
theorem logicIntoAcc : Obligations.LogicIntoAcc := by
  refine ⟨operandFetchFaults _, operandFetchFaults _, operandFetchFaults _, operandFetchFaults _, operandFetchFaults _,
    operandFetchFaults _, operandFetchFaults _,
    fun s r lit => ⟨rfl, rfl, rfl, ?andLiteral, ?orLiteral, ?xorLiteral⟩,
    fun s ra rb => ⟨rfl, rfl, rfl, ?andRegister, ?orRegister, ?xorRegister⟩, fun s r => ⟨rfl, ?complement⟩⟩
  case andLiteral => exact writeBits_completes (fun _ _ => BitVec.getLsbD_and) (exec_andRegLit r lit s)
  case orLiteral => exact writeBits_completes (fun _ _ => BitVec.getLsbD_or) (exec_orRegLit r lit s)
  case xorLiteral => exact writeBits_completes (fun _ _ => BitVec.getLsbD_xor) (exec_xorRegLit r lit s)
  case andRegister => exact writeBits_completes (fun _ _ => BitVec.getLsbD_and) (exec_andRegReg ra rb s)
  case orRegister => exact writeBits_completes (fun _ _ => BitVec.getLsbD_or) (exec_orRegReg ra rb s)
  case xorRegister => exact writeBits_completes (fun _ _ => BitVec.getLsbD_xor) (exec_xorRegReg ra rb s)
  case complement => exact writeBits_completes (fun _ => getLsbD_not_inside) (exec_not r s)

end Sys2Proof.Machine
end

section
/-! The conditional jumps (43_control.md R160 to R172): each form as the comparison and the operand that decide it, the
six comparisons on unsigned numbers, and the statements about the literal and the register forms. -/

namespace Sys2Proof.Machine

/-! ## The meaning of each form (R161 to R172) -/

theorem exec_jneLit (lit t : Word) (s : State) : exec (.jneLit lit t) s = .next (jumpIf .ne lit t s) := rfl

theorem exec_jneReg (r : Reg) (t : Word) (s : State) : exec (.jneReg r t) s = .next (jumpIf .ne (s.reg r) t s) := rfl

theorem exec_jeqLit (lit t : Word) (s : State) : exec (.jeqLit lit t) s = .next (jumpIf .eq lit t s) := rfl

theorem exec_jeqReg (r : Reg) (t : Word) (s : State) : exec (.jeqReg r t) s = .next (jumpIf .eq (s.reg r) t s) := rfl

theorem exec_jltLit (lit t : Word) (s : State) : exec (.jltLit lit t) s = .next (jumpIf .lt lit t s) := rfl

theorem exec_jltReg (r : Reg) (t : Word) (s : State) : exec (.jltReg r t) s = .next (jumpIf .lt (s.reg r) t s) := rfl

theorem exec_jgtLit (lit t : Word) (s : State) : exec (.jgtLit lit t) s = .next (jumpIf .gt lit t s) := rfl

theorem exec_jgtReg (r : Reg) (t : Word) (s : State) : exec (.jgtReg r t) s = .next (jumpIf .gt (s.reg r) t s) := rfl

theorem exec_jleLit (lit t : Word) (s : State) : exec (.jleLit lit t) s = .next (jumpIf .le lit t s) := rfl

theorem exec_jleReg (r : Reg) (t : Word) (s : State) : exec (.jleReg r t) s = .next (jumpIf .le (s.reg r) t s) := rfl

theorem exec_jgeLit (lit t : Word) (s : State) : exec (.jgeLit lit t) s = .next (jumpIf .ge lit t s) := rfl

theorem exec_jgeReg (r : Reg) (t : Word) (s : State) : exec (.jgeReg r t) s = .next (jumpIf .ge (s.reg r) t s) := rfl

/-! ## The comparisons (R160) -/

theorem Comparison.holds_ne (a b : Word) : Comparison.ne.holds a b = true ↔ a.toNat ≠ b.toNat := decide_eq_true_iff

theorem Comparison.holds_eq (a b : Word) : Comparison.eq.holds a b = true ↔ a.toNat = b.toNat := decide_eq_true_iff

theorem Comparison.holds_lt (a b : Word) : Comparison.lt.holds a b = true ↔ a.toNat < b.toNat := decide_eq_true_iff

theorem Comparison.holds_gt (a b : Word) : Comparison.gt.holds a b = true ↔ a.toNat > b.toNat := decide_eq_true_iff

theorem Comparison.holds_le (a b : Word) : Comparison.le.holds a b = true ↔ a.toNat ≤ b.toNat := decide_eq_true_iff

theorem Comparison.holds_ge (a b : Word) : Comparison.ge.holds a b = true ↔ a.toNat ≥ b.toNat := decide_eq_true_iff

/-- The rule's reading of D4: the operand stands on the left of the comparison. -/
theorem jumpTaken_operandOnLeft {op : Comparison} {v : Word} {s : State}
    (h : s.config.readings.jumpOperandOnLeft = true) : jumpTaken op v s = op.holds v (s.reg .acc) := by
  rw [jumpTaken, if_pos h]

/-! ## What a jump does, taken and not taken (R160) -/

theorem jumpIf_of_taken {op : Comparison} {v target : Word} {s : State} (h : jumpTaken op v s = true) :
    jumpIf op v target s = s.setReg .ip target := by
  rw [jumpIf, if_pos h]

theorem jumpIf_of_not_taken {op : Comparison} {v target : Word} {s : State} (h : ¬ jumpTaken op v s = true) :
    jumpIf op v target s = s := by
  rw [jumpIf, if_neg h]

theorem jumpIf_reg_ip (op : Comparison) (v target : Word) (s : State) :
    (jumpIf op v target s).reg .ip = if jumpTaken op v s then target else s.reg .ip := by
  split
  case isTrue htaken => rw [jumpIf_of_taken htaken, State.reg_setReg, if_pos rfl]
  case isFalse hnot => rw [jumpIf_of_not_taken hnot]

theorem onlyRegsChanged_jumpIf (op : Comparison) (v target : Word) (s : State) :
    OnlyRegsChanged [.ip] s (jumpIf op v target s) := by
  by_cases htaken : jumpTaken op v s = true
  · rw [jumpIf_of_taken htaken]
    exact onlyRegsChanged_setReg s .ip target
  · rw [jumpIf_of_not_taken htaken]
    exact ⟨fun _ _ => rfl, fun _ => rfl, ⟨rfl, rfl⟩, rfl, rfl, rfl⟩

/-- A jump completes, whatever words `a` and `b` the configuration's reading compares, and it is taken exactly when the
comparison of these says so. -/
theorem jump_completes {o : Host.Outcome State Fault Refusal} {op : Comparison} {v target a b : Word} {s : State}
    {taken : Prop} [Decidable taken] (hreading : jumpTaken op v s = op.holds a b) (hop : op.holds a b = true ↔ taken)
    (h : o = .next (jumpIf op v target s)) :
    ∃ u, o = .next u ∧ OnlyRegsChanged [.ip] s u ∧ u.reg .ip = if taken then target else s.reg .ip := by
  refine ⟨_, h, onlyRegsChanged_jumpIf op v target s, ?_⟩
  rw [jumpIf_reg_ip, hreading]
  exact if_congr hop rfl rfl

/-! ## The statements -/

/-- Settles O36: each form compares its literal, on the left, with `acc`. -/
theorem jumpsComparingLiteral : Obligations.JumpsComparingLiteral := by
  refine ⟨operandFetchFaults _, operandFetchFaults _, operandFetchFaults _, operandFetchFaults _, operandFetchFaults _,
    operandFetchFaults _, fun s lit t hreading => ⟨⟨rfl, rfl, rfl, rfl, rfl, rfl⟩, ?ne, ?eq, ?lt, ?gt, ?le, ?ge⟩⟩
  case ne => exact jump_completes (jumpTaken_operandOnLeft hreading) (Comparison.holds_ne ..) (exec_jneLit lit t s)
  case eq => exact jump_completes (jumpTaken_operandOnLeft hreading) (Comparison.holds_eq ..) (exec_jeqLit lit t s)
  case lt => exact jump_completes (jumpTaken_operandOnLeft hreading) (Comparison.holds_lt ..) (exec_jltLit lit t s)
  case gt => exact jump_completes (jumpTaken_operandOnLeft hreading) (Comparison.holds_gt ..) (exec_jgtLit lit t s)
  case le => exact jump_completes (jumpTaken_operandOnLeft hreading) (Comparison.holds_le ..) (exec_jleLit lit t s)
  case ge => exact jump_completes (jumpTaken_operandOnLeft hreading) (Comparison.holds_ge ..) (exec_jgeLit lit t s)

/-- Settles O37: each form compares its register, on the left, with `acc`, both read before `ip` is written. -/
theorem jumpsComparingRegister : Obligations.JumpsComparingRegister := by
  refine ⟨operandFetchFaults _, operandFetchFaults _, operandFetchFaults _, operandFetchFaults _, operandFetchFaults _,
    operandFetchFaults _, fun s r t hreading => ⟨⟨rfl, rfl, rfl, rfl, rfl, rfl⟩, ?ne, ?eq, ?lt, ?gt, ?le, ?ge⟩⟩
  case ne => exact jump_completes (jumpTaken_operandOnLeft hreading) (Comparison.holds_ne ..) (exec_jneReg r t s)
  case eq => exact jump_completes (jumpTaken_operandOnLeft hreading) (Comparison.holds_eq ..) (exec_jeqReg r t s)
  case lt => exact jump_completes (jumpTaken_operandOnLeft hreading) (Comparison.holds_lt ..) (exec_jltReg r t s)
  case gt => exact jump_completes (jumpTaken_operandOnLeft hreading) (Comparison.holds_gt ..) (exec_jgtReg r t s)
  case le => exact jump_completes (jumpTaken_operandOnLeft hreading) (Comparison.holds_le ..) (exec_jleReg r t s)
  case ge => exact jump_completes (jumpTaken_operandOnLeft hreading) (Comparison.holds_ge ..) (exec_jgeReg r t s)

end Sys2Proof.Machine
end

section
/-! The stack (44_stack_call.md R180, R181, R186 to R188, R194): what a push and a pop leave, in bounds and out of
bounds, the three stack instructions as these, and the statements about reset, the frame invariant, `push` and `pop`,
PSH and POP. -/

namespace Sys2Proof.Machine

/-! ## The frame invariant (R194) -/

/-- The frame invariant depends on `sp`, `fp` and `sfs` alone. -/
theorem FrameInv.congr {s t : State} (h : FrameInv s) (hsp : t.reg .sp = s.reg .sp) (hfp : t.reg .fp = s.reg .fp)
    (hsfs : t.sfs = s.sfs) : FrameInv t := by
  rw [FrameInv, hsp, hfp, hsfs]
  exact h

theorem FrameInv.setReg {s : State} {r : Reg} (v : Word) (hsp : r ≠ .sp) (hfp : r ≠ .fp) (h : FrameInv s) :
    FrameInv (s.setReg r v) :=
  h.congr (by rw [State.reg_setReg, if_neg hsp.symm]) (by rw [State.reg_setReg, if_neg hfp.symm]) rfl

/-- A push moves `sp` and `sfs` by as much in opposite directions. -/
theorem FrameInv.pushed {s : State} (v : Word) (h : FrameInv s) : FrameInv (pushed v s) :=
  calc s.reg .sp - 2 + (s.sfs + 2) = s.reg .sp + s.sfs := by bv_omega
    _ = s.reg .fp := h

/-- A pop moves `sp` and `sfs` by as much in opposite directions. -/
theorem FrameInv.popped {s : State} (h : FrameInv s) : FrameInv (popped s) :=
  calc s.reg .sp + 2 + (s.sfs - 2) = s.reg .sp + s.sfs := by bv_omega
    _ = s.reg .fp := h

/-- A saved frame is a new frame boundary: the invariant holds there whatever held before. -/
theorem frameInv_framed (s : State) : FrameInv (framed s) := by
  simp [FrameInv]

theorem FrameInv.savedContext {s : State} (h : FrameInv s) : FrameInv (savedContext s) := by
  unfold Sys2Proof.Machine.savedContext
  split
  · exact h
  · exact frameInv_framed _

theorem frameInv_resetWith (c : Config) : FrameInv (State.resetWith c) := rfl

theorem resetWith_wf {c : Config} (h : c.legal = true) : (State.resetWith c).wf = true :=
  (State.wf_iff _).2 ⟨h, rfl, fun _ hcell => absurd hcell List.not_mem_nil⟩

/-! ## What a push and a pop leave (R180, R181) -/

theorem wordAt_pushed (v : Word) (s : State) : wordAt (pushed v s) (s.reg .sp).toNat = v :=
  wordAt_of_mem_writeWord (pushed_mem v s)

theorem sameRegsBut_pushed (v : Word) (s : State) : SameRegsBut [.sp] s (pushed v s) := fun q hq => by
  rw [pushed_reg, if_neg (List.ne_of_not_mem_cons hq)]

theorem sameRegsBut_popped (s : State) : SameRegsBut [.sp] s (popped s) := fun q hq => by
  rw [popped_reg, if_neg (List.ne_of_not_mem_cons hq)]

theorem pushed_sp (v : Word) (s : State) : (pushed v s).reg .sp = s.reg .sp - 2 := by
  rw [pushed_reg, if_pos rfl]

theorem popped_sp (s : State) : (popped s).reg .sp = s.reg .sp + 2 := by
  rw [popped_reg, if_pos rfl]

/-- The slot a push wrote is the one the next pop reads. -/
theorem pushed_sp_add_two (v : Word) (s : State) : (pushed v s).reg .sp + 2 = s.reg .sp := by
  rw [pushed_sp, BitVec.sub_add_cancel]

/-- A pop undoes the push before it, but for the word left in memory. -/
theorem popped_pushed_reg (v : Word) (s : State) (r : Reg) : (popped (pushed v s)).reg r = s.reg r := by
  rw [popped_reg]
  split
  case isTrue hr => rw [hr, pushed_sp_add_two]
  case isFalse hr => rw [pushed_reg, if_neg hr]

/-- A push in bounds followed by a pop gives back the word pushed (R181). -/
theorem pop_pushed {s : State} (v : Word) (h : slotInBounds s (s.reg .sp)) :
    pop (pushed v s) = .ok v (popped (pushed v s)) := by
  have hslot : slotInBounds (pushed v s) ((pushed v s).reg .sp + 2) := by
    rw [pushed_sp_add_two]
    exact h
  rw [pop_inside hslot, pushed_sp_add_two, wordAt_pushed]

/-! ## The stack instructions (R186 to R188) -/

theorem exec_pshLit (lit : Word) (s : State) : exec (.pshLit lit) s = (push lit s).outcome := rfl

theorem exec_pshReg (r : Reg) (s : State) : exec (.pshReg r) s = (push (s.reg r) s).outcome := rfl

theorem exec_pop (rd : Reg) (s : State) :
    exec (.pop rd) s = ((pop s).bind fun v t => .ok () (t.setReg rd v)).outcome := rfl

/-- An instruction that pushes `v`: the word in its slot, `sp`, `sfs` and nothing else, or the fault with nothing
written. -/
theorem push_outcome (v : Word) (s : State) :
    (slotInBounds s (s.reg .sp) → ∃ t, (push v s).outcome = .next t ∧
      wordAt t (s.reg .sp).toNat = v ∧ t.reg .sp = s.reg .sp - 2 ∧ t.sfs = s.sfs + 2 ∧
      SameMemoryOutsideWord (s.reg .sp).toNat s t ∧ SameRegsBut [.sp] s t ∧ t.inHandler = s.inHandler ∧
      SameEngine s t) ∧
    (¬ slotInBounds s (s.reg .sp) → (push v s).outcome = .fault (s.raise (.outOfBounds (s.reg .sp).toNat 2))) := by
  refine ⟨fun h => ⟨pushed v s, ?_, wordAt_pushed v s, pushed_sp v s, rfl, sameMemoryOutsideWord_writeWord s _ v,
    sameRegsBut_pushed v s, rfl, rfl, rfl, rfl⟩, fun h => ?_⟩
  · rw [push_inside h, Access.outcome_ok]
  · rw [push_outside h, Access.outcome_raised]

/-! ## The statements -/

/-- Settles O8: memory after reset lists no byte, and `sp` and `fp` are equal with `sfs` zero. -/
theorem resetSatisfiesInvariants : Obligations.ResetSatisfiesInvariants :=
  ⟨⟨resetWith_wf defaultConfig_legal, frameInv_resetWith _⟩, fun c hc => ⟨resetWith_wf hc, frameInv_resetWith c⟩⟩

/-- Settles O22, by what each kind of instruction leaves: those that move `sp` move `sfs` the other way, or save a
frame. -/
theorem frameInvariantIsKept : Obligations.FrameInvariantIsKept := by
  intro i s t hret hretInt hsp hfp hinv h
  cases exec_eq_next h with
  | result _ hrd v => exact hinv.setReg v (fun e => hsp (e ▸ hrd)) (fun e => hfp (e ▸ hrd))
  | jump => exact hinv.congr (jumpIf_reg_other (by decide)) (jumpIf_reg_other (by decide)) (jumpIf_sfs ..)
  | store | hlt | intMasked => exact hinv
  | pshLit | pshReg => exact hinv.pushed _
  | pop rd => exact hinv.popped.setReg _ (fun e => hsp (e ▸ rfl)) (fun e => hfp (e ▸ rfl))
  | calLit | calReg => exact (frameInv_framed s).setReg _ (by decide) (by decide)
  | ret => exact absurd rfl hret
  | retInt => exact absurd rfl hretInt
  | intDelivered =>
    have hsaved : FrameInv ((savedContext s).setInHandler true) := hinv.savedContext
    exact hsaved.setReg _ (by decide) (by decide)

/-- Settles O39, by what `push` and `pop` do in bounds and out of bounds. -/
theorem pushAndPopPrimitives : Obligations.PushAndPopPrimitives := by
  refine fun s => ⟨fun h v => ⟨pushed v s, push_inside h, pushed_sp v s, rfl, wordAt_pushed v s,
    sameMemoryOutsideWord_writeWord s _ v, sameRegsBut_pushed v s, rfl, ⟨rfl, rfl, rfl⟩, ?roundTrip⟩,
    fun h _ => push_outside h,
    fun h => ⟨popped s, pop_inside h, popped_sp s, rfl, fun _ => rfl, sameRegsBut_popped s, rfl, rfl, rfl, rfl⟩,
    fun h => ⟨popped s, pop_outside h, popped_sp s, rfl, fun _ => rfl, sameRegsBut_popped s, rfl, rfl, rfl, rfl⟩⟩
  case roundTrip =>
    exact ⟨_, pop_pushed v h, popped_pushed_reg v s, BitVec.add_sub_cancel _ _, rfl⟩

/-- Settles O40: both forms push a word that is known before `sp` changes. -/
theorem pushInstructions : Obligations.PushInstructions := by
  refine ⟨operandFetchFaults _, operandFetchFaults _, fun s lit => ⟨rfl, ?literal⟩, fun s r => ⟨rfl, ?register⟩⟩
  case literal =>
    rw [exec_pshLit]
    exact push_outcome lit s
  case register =>
    rw [exec_pshReg]
    exact push_outcome (s.reg r) s

/-- Settles O41: the destination is written last, so that it may be `sp`, and a pop that faults has not written it. -/
theorem popInstruction : Obligations.PopInstruction := by
  refine ⟨operandFetchFaults _, fun s rd => ⟨rfl, fun h => ⟨(popped s).setReg rd (wordAt s (s.reg .sp + 2).toNat),
    ?completes, ?destination, fun hrd => ?pointer, rfl, fun _ => rfl, fun q hq => ?frame, rfl, rfl, rfl, rfl⟩,
    fun h => ⟨((popped s).raise (.outOfBounds (s.reg .sp + 2).toNat 2)).final, ?faults, popped_sp s, rfl, fun _ => rfl,
      sameRegsBut_popped s⟩⟩⟩
  case completes => rw [exec_pop, pop_inside h, Access.bind_ok, Access.outcome_ok]
  case destination => rw [State.reg_setReg, if_pos rfl]
  case pointer => rw [State.reg_setReg, if_neg hrd.symm, popped_sp]
  case frame =>
    rw [State.reg_setReg, if_neg (List.ne_of_not_mem_cons hq),
      sameRegsBut_popped s q (List.not_mem_of_not_mem_cons hq)]
  case faults =>
    rw [exec_pop, pop_outside h]
    rfl

end Sys2Proof.Machine
end

section
/-! Calls and returns (44_stack_call.md R182 to R185, R189 to R193; 45_interrupt_system.md R201): the slots of a stack
seen from either end, the frame that a call saves and a return restores, and the statements about CAL, RET, RET_INT and
the round trip of a call. -/

namespace Sys2Proof.Machine

/-! ## Slots from either end (R180, R181) -/

theorem ofNat_two_mul_add (m n : Nat) :
    BitVec.ofNat 16 (2 * (m + n)) = BitVec.ofNat 16 (2 * m) + BitVec.ofNat 16 (2 * n) := by
  rw [Nat.mul_add, BitVec.ofNat_add]

theorem slotBelow_slotBelow (a : Word) (m k : Nat) : slotBelow (slotBelow a m) k = slotBelow a (m + k) := by
  rw [slotBelow, slotBelow, slotBelow, ofNat_two_mul_add, BitVec.sub_sub]

/-- Slot `k` above the place that `m` pushes from `a` reach is the slot of push `m - 1 - k`: the last word pushed is the
first popped. -/
theorem slotAbove_slotBelow {m k : Nat} (a : Word) (h : k < m) :
    slotAbove (slotBelow a m) k = slotBelow a (m - 1 - k) := by
  have hm : m = (m - 1 - k) + (k + 1) := by omega
  generalize m - 1 - k = j at hm ⊢
  rw [slotAbove, slotBelow, slotBelow, hm, ofNat_two_mul_add]
  bv_omega

/-- Words that have been pushed can be popped again. -/
theorem roomForPops_of_pushes {s t : State} {n : Nat} (hc : t.config = s.config) (h : roomForPushes s n) :
    roomForPops t (slotBelow (s.reg .sp) n) n := fun k hk => by
  rw [slotAbove_slotBelow _ hk, slotInBounds_congr hc]
  exact h _ (by omega)

/-- Pushes in bounds followed by pushes in bounds. -/
theorem roomForPushes_add {s t : State} {m n : Nat} (hc : t.config = s.config)
    (hsp : t.reg .sp = slotBelow (s.reg .sp) m) (hs : roomForPushes s m) (ht : roomForPushes t n) :
    roomForPushes s (m + n) := fun k hk => by
  by_cases hkm : k < m
  · exact hs k hkm
  · have hslot := ht (k - m) (by omega)
    rwa [hsp, slotBelow_slotBelow, Nat.add_sub_cancel' (Nat.le_of_not_lt hkm), slotInBounds_congr hc] at hslot

/-- Words that a caller pushed one by one, with every slot in bounds (R184). -/
theorem pushSeq_ok {ws : List Word} {s t : State} {u : Unit} (h : pushSeq ws s = .ok u t) :
    roomForPushes s ws.length ∧ t = pushedAll ws s := by
  induction ws generalizing s with
  | nil =>
    injection h with _ h
    exact ⟨fun k hk => absurd hk (Nat.not_lt_zero k), h.symm.trans (pushedAll_nil s).symm⟩
  | cons w ws ih =>
    obtain ⟨_, s', hpush, hrest⟩ := Access.bind_eq_ok h
    obtain ⟨hslot, rfl⟩ := push_ok hpush
    obtain ⟨hroom, rfl⟩ := ih hrest
    refine ⟨?_, pushedAll_cons w ws s⟩
    have hfirst : roomForPushes s 1 := fun k hk => by
      obtain rfl : k = 0 := by omega
      simpa [slotBelow] using hslot
    rw [List.length_cons, Nat.add_comm]
    exact roomForPushes_add (pushed_config w s) (pushed_sp w s) hfirst hroom

/-! ## Calls (R182, R189, R190) -/

/-- The instruction calls `target`: it saves a frame, then writes `ip` (R189, R190). -/
def CallsTo (i : Instr) (target : Word) (s : State) : Prop :=
  exec i s = ((pushState s).bind fun _ t => .ok () (t.setReg .ip target)).outcome

theorem calLit_callsTo (target : Word) (s : State) : CallsTo (.calLit target) target s := rfl

/-- The target is read before the save changes `sp` and `fp` (R190). -/
theorem calReg_callsTo (r : Reg) (s : State) : CallsTo (.calReg r) (s.reg r) s := rfl

theorem CallsTo.completes {i : Instr} {target : Word} {s : State} (hcall : CallsTo i target s)
    (h : roomForPushes s 10) : exec i s = .next ((framed s).setReg .ip target) := by
  rw [hcall, pushState_inside h, Access.bind_ok, Access.outcome_ok]

/-- A call that completes had room for its frame. -/
theorem CallsTo.of_completes {i : Instr} {target : Word} {s t : State} (hcall : CallsTo i target s)
    (h : exec i s = .next t) : roomForPushes s 10 ∧ t = (framed s).setReg .ip target := by
  obtain ⟨_, _, hpush, hset⟩ := Access.bind_eq_ok (Access.outcome_eq_next (hcall ▸ h))
  obtain ⟨hroom, rfl⟩ := pushState_ok hpush
  injection hset with _ hset
  exact ⟨hroom, hset.symm⟩

theorem framed_sp (s : State) : (framed s).reg .sp = s.reg .sp - 20 := by
  rw [framed_reg, if_pos (.inr rfl)]

theorem framed_fp (s : State) : (framed s).reg .fp = s.reg .sp - 20 := by
  rw [framed_reg, if_pos (.inl rfl)]

theorem sameRegsBut_framed (s : State) : SameRegsBut [.sp, .fp] s (framed s) := fun q hq => by
  have hne : ¬ (q = .fp ∨ q = .sp) := by simpa [or_comm] using hq
  rw [framed_reg, if_neg hne]

theorem sameEngine_framed (s : State) : SameEngine s (framed s) :=
  ⟨framed_config s, framed_phase s, framed_response s⟩

theorem SameEngine.setReg {s t : State} (h : SameEngine s t) (r : Reg) (v : Word) : SameEngine s (t.setReg r v) := h

/-- Slot `k` below the `sp` of before the save holds word `k` of the frame (R182). -/
theorem wordAt_framed {s t : State} {k : Nat} (ht : t.mem = (framed s).mem) (hk : k < 10) :
    wordAt t (slotBelow (s.reg .sp) k).toNat = frameWord s k :=
  wordAt_pushedAll (frameWords s) s k hk (by rw [frameWords_length]; decide) ht

/-! ## Returns (R183, R191; 45_interrupt_system.md R201) -/

/-- The instruction returns: it sets `inHandler` to `handler`, then restores the frame that `fp` marks. -/
def ReturnsWith (i : Instr) (handler : Bool) (s : State) : Prop :=
  exec i s = (popState (s.setInHandler handler)).outcome

theorem ret_returnsWith (s : State) : ReturnsWith .ret s.inHandler s := rfl

theorem retInt_returnsWith (s : State) : ReturnsWith .retInt false s := rfl

theorem ReturnsWith.completes {i : Instr} {handler : Bool} {s : State} (hret : ReturnsWith i handler s)
    (h : roomForPops s (s.reg .fp) (11 + frameArgs s)) : exec i s = .next (restored (s.setInHandler handler)) := by
  have hpop : popState (s.setInHandler handler) = _ := popState_inside h
  rw [hret, hpop, Access.outcome_ok]

/-- RET restores the frame and leaves `inHandler` (R191). -/
theorem ret_completes {s : State} (h : roomForPops s (s.reg .fp) (11 + frameArgs s)) :
    exec .ret s = .next (restored s) := by
  have hself : s.setInHandler s.inHandler = s := rfl
  rw [(ret_returnsWith s).completes h, hself]

/-- A return whose first pop outside memory is that of slot `k` above `fp` faults there. -/
theorem ReturnsWith.faults {i : Instr} {handler : Bool} {s : State} {k : Nat} (hret : ReturnsWith i handler s)
    (hk : k < 11 + frameArgs s) (hroom : roomForPops s (s.reg .fp) k)
    (hslot : ¬ slotInBounds s (slotAbove (s.reg .fp) k)) :
    ∃ final, exec i s = .fault (.outOfBounds (slotAbove (s.reg .fp) k).toNat 2 final) ∧
      final.reg .sp = slotAbove (s.reg .fp) k ∧ final.reg .fp = s.reg .fp ∧ final.reg .acc = s.reg .acc ∧
      final.reg .im = s.reg .im ∧ SameMemory s final ∧ final.inHandler = handler := by
  obtain ⟨final, hpop, hsp, hmem, hacc, him, hfp, hhandler, _⟩ :=
    popState_faults (s.setInHandler handler) k hk hroom hslot
  refine ⟨final, ?_, hsp, hfp, hacc, him, fun a => ?_, hhandler⟩
  · rw [hret, hpop]
    rfl
  · rw [hmem, State.setInHandler_mem]

/-- In R183's own reading of D9, `sfs` loses the eleven words that every return pops and the arguments. -/
theorem restored_sfs_of_adjust {s : State} (h : s.config.readings.popStateSfsAdjust = 2) :
    (restored s).sfs = frameSlot s 0 - 22 - BitVec.ofNat 16 (2 * frameArgs s) := by
  rw [restored_sfs, h]
  bv_omega

/-! ## The frame that a return finds (R185, R193) -/

/-- `u` stands in the callee of a call made in state `s`: `fp` marks the frame that the call saved, and the ten words of
the frame and the argument count `count` above them are in memory (R185). -/
structure HoldsFrame (u s : State) (count : Word) : Prop where
  fp : u.reg .fp = slotBelow (s.reg .sp) 10
  word : ∀ k, k < 10 → frameSlot u k = frameWord s (9 - k)
  args : frameSlot u 10 = count

/-- The state right after a save holds the frame, when the word pushed before the save is the count. -/
theorem holdsFrame_framed {b s t : State} {count : Word} (hsp : s.reg .sp = b.reg .sp - 2)
    (hmem : s.mem = b.mem.writeWord (b.reg .sp).toNat count) (ht : t.mem = (framed s).mem)
    (hfp : t.reg .fp = s.reg .sp - 20) : HoldsFrame t s count where
  fp := hfp
  word k hk := by
    have hslot : slotAbove (t.reg .fp) k = slotBelow (s.reg .sp) (9 - k) := by
      rw [hfp]
      exact slotAbove_slotBelow (m := 10) _ hk
    rw [← wordAt_framed ht (by omega), ← hslot]
    rfl
  args := by
    have hslot : slotAbove (t.reg .fp) 10 = slotBelow (b.reg .sp) 0 := by
      rw [hfp, hsp, BitVec.sub_sub]
      exact slotAbove_slotBelow (m := 11) _ (by decide)
    have hpushed : t.mem = (pushedAll (count :: frameWords s) b).mem := by
      rw [ht, framed_mem, hsp, hmem]
      rfl
    have hcount := wordAt_pushedAll (count :: frameWords s) b 0 (Nat.succ_pos _)
      (by rw [List.length_cons, frameWords_length]; decide) hpushed
    rw [← hslot] at hcount
    exact hcount

/-- A callee that leaves `fp` and the eleven words above it as they were still holds the frame. -/
theorem HoldsFrame.of_same {s t u : State} {count : Word} (h : HoldsFrame t s count) (hfp : u.reg .fp = t.reg .fp)
    (hwords : ∀ k, k < 11 →
      wordAt u (slotAbove (t.reg .fp) k).toNat = wordAt t (slotAbove (t.reg .fp) k).toNat) : HoldsFrame u s count := by
  have hslots : ∀ k, k < 11 → frameSlot u k = frameSlot t k := fun k hk => by
    rw [frameSlot, hfp]
    exact hwords k hk
  exact ⟨hfp.trans h.fp, fun k hk => (hslots k (by omega)).trans (h.word k hk), (hslots 10 (by decide)).trans h.args⟩

theorem HoldsFrame.frameArgs_eq {s u : State} {count : Word} (h : HoldsFrame u s count) :
    frameArgs u = count.toNat := by
  rw [frameArgs, h.args]

/-- A return restores every register of the frame (R193). -/
theorem HoldsFrame.restored_reg {s u : State} {count : Word} (h : HoldsFrame u s count) {r : Reg}
    (hr : r ∈ frameRegs) : (restored u).reg r = s.reg r := by
  have hslot : ∀ k, k < 9 → (restored u).reg (frameRegs.reverse.getD k .ip) = frameWord s (8 - k) := fun k hk =>
    (restored_saved u k hk).trans ((h.word (k + 1) (by omega)).trans (by rw [Nat.add_sub_add_right 8 1 k]))
  simp only [frameRegs, List.mem_cons, List.not_mem_nil, or_false] at hr
  rcases hr with rfl | rfl | rfl | rfl | rfl | rfl | rfl | rfl | rfl
  · exact hslot 8 (by decide)
  · exact hslot 7 (by decide)
  · exact hslot 6 (by decide)
  · exact hslot 5 (by decide)
  · exact hslot 4 (by decide)
  · exact hslot 3 (by decide)
  · exact hslot 2 (by decide)
  · exact hslot 1 (by decide)
  · exact hslot 0 (by decide)

/-- A return leaves `sp` above the count word and the arguments. -/
theorem HoldsFrame.restored_sp {s u : State} {count : Word} (h : HoldsFrame u s count) :
    (restored u).reg .sp = s.reg .sp + BitVec.ofNat 16 (2 * (count.toNat + 1)) := by
  rw [Sys2Proof.Machine.restored_sp, h.fp, h.frameArgs_eq, slotBelow, ofNat_two_mul_add]
  bv_omega

theorem HoldsFrame.frameSize {s u : State} {count : Word} (h : HoldsFrame u s count) : frameSlot u 0 = s.sfs + 20 :=
  h.word 0 (by decide)

/-- A return gives back the `fp` of a caller in which the frame invariant held (R194). -/
theorem HoldsFrame.restored_fp {s u : State} {count : Word} (h : HoldsFrame u s count) (hinv : FrameInv s) :
    (restored u).reg .fp = s.reg .fp := by
  rw [Sys2Proof.Machine.restored_fp, h.fp, h.frameSize, slotBelow, ← hinv]
  bv_omega

/-- A return leaves `sfs` without the bytes of the frame, the count word and the arguments. -/
theorem HoldsFrame.restored_sfs {s u : State} {count : Word} (h : HoldsFrame u s count)
    (hadjust : u.config.readings.popStateSfsAdjust = 2) :
    (restored u).sfs = s.sfs - BitVec.ofNat 16 (2 * (count.toNat + 1)) := by
  rw [restored_sfs_of_adjust hadjust, h.frameSize, h.frameArgs_eq, ofNat_two_mul_add]
  bv_omega

/-! ## The caller (R184) -/

/-- The state in which a caller executes its call: it has pushed its arguments and then their number, and `ra` is the
address of the next instruction. -/
def callSite (args : List Word) (ra : Word) (s : State) : State :=
  (pushed (BitVec.ofNat 16 args.length) (pushedAll args s)).setReg .ip ra

@[simp] theorem callSite_config (args : List Word) (ra : Word) (s : State) :
    (callSite args ra s).config = s.config := rfl

theorem callSite_sp (args : List Word) (ra : Word) (s : State) :
    (callSite args ra s).reg .sp = slotBelow (s.reg .sp) (args.length + 1) := by
  rw [callSite, State.reg_setReg, if_neg (by decide), pushed_sp, pushedAll_reg, if_pos rfl, slotBelow,
    ofNat_two_mul_add, BitVec.sub_sub]
  rfl

theorem callSite_sfs (args : List Word) (ra : Word) (s : State) :
    (callSite args ra s).sfs = s.sfs + BitVec.ofNat 16 (2 * (args.length + 1)) := by
  rw [callSite, State.setReg_sfs, pushed_sfs, pushedAll_sfs, ofNat_two_mul_add, BitVec.add_assoc]
  rfl

theorem callSite_ip (args : List Word) (ra : Word) (s : State) : (callSite args ra s).reg .ip = ra := by
  rw [callSite, State.reg_setReg, if_pos rfl]

theorem callSite_reg_other {args : List Word} {ra : Word} {s : State} {r : Reg} (hip : r ≠ .ip) (hsp : r ≠ .sp) :
    (callSite args ra s).reg r = s.reg r := by
  rw [callSite, State.reg_setReg, if_neg hip, pushed_reg, if_neg hsp, pushedAll_reg, if_neg hsp]

theorem frameInv_callSite {args : List Word} {ra : Word} {s : State} (h : FrameInv s) :
    FrameInv (callSite args ra s) := by
  rw [FrameInv, callSite_sp, callSite_sfs, callSite_reg_other (by decide) (by decide), ← h, slotBelow]
  bv_omega

/-- Pushing the arguments and their number in bounds leads to the call site. -/
theorem pushSeq_callSite {args : List Word} {s s1 : State} (ra : Word)
    (h : pushSeq (args ++ [BitVec.ofNat 16 args.length]) s = .ok () s1) :
    roomForPushes s (args.length + 1) ∧ s1.setReg .ip ra = callSite args ra s := by
  obtain ⟨hroom, rfl⟩ := pushSeq_ok h
  rw [List.length_append] at hroom
  refine ⟨hroom, ?_⟩
  rw [← pushedAll_append, ← pushedAll_cons, pushedAll_nil, callSite]

/-- The state right after a call holds the frame of the call site and the number of arguments. -/
theorem holdsFrame_callSite {args : List Word} {ra target : Word} {s : State} :
    HoldsFrame ((framed (callSite args ra s)).setReg .ip target) (callSite args ra s)
      (BitVec.ofNat 16 args.length) := by
  refine holdsFrame_framed (b := pushedAll args s) ?_ rfl rfl ?_
  · rw [callSite, State.reg_setReg, if_neg (by decide), pushed_sp]
  · rw [State.reg_setReg, if_neg (by decide), framed_fp]

/-! ## The statements -/

/-- Settles O42: both calls are the frame save followed by the write of `ip`, and the save leaves word `k` of the frame
in slot `k`. -/
theorem callsSaveTheFrame : Obligations.CallsSaveTheFrame := by
  refine fun s a r => ⟨rfl, rfl, fun hroom i target hi => ?_⟩
  have hcall : CallsTo i target s := by
    rcases hi with ⟨rfl, rfl⟩ | ⟨rfl, rfl⟩
    · exact calLit_callsTo target s
    · exact calReg_callsTo r s
  have hword : ∀ k, k < 10 → wordAt ((framed s).setReg .ip target) (slotBelow (s.reg .sp) k).toNat = frameWord s k :=
    fun k hk => wordAt_framed rfl hk
  refine ⟨_, hcall.completes hroom, hword 0 (by decide), hword 1 (by decide), hword 2 (by decide), hword 3 (by decide),
    hword 4 (by decide), hword 5 (by decide), hword 6 (by decide), hword 7 (by decide), hword 8 (by decide),
    hword 9 (by decide), ?sp, ?fp, rfl, ?ip, sameMemory_pushedAll (frameWords s) rfl, fun q hq => ?frame, ?handler,
    ?engine⟩
  case sp => rw [State.reg_setReg, if_neg (by decide), framed_sp]
  case fp => rw [State.reg_setReg, if_neg (by decide), framed_fp]
  case ip => rw [State.reg_setReg, if_pos rfl]
  case frame =>
    obtain ⟨hsp, hfp, hip⟩ : q ≠ .sp ∧ q ≠ .fp ∧ q ≠ .ip := by simpa using hq
    rw [State.reg_setReg, if_neg hip, sameRegsBut_framed s q (by simp [hsp, hfp])]
  case handler => rw [State.setReg_inHandler, framed_inHandler]
  case engine => exact (sameEngine_framed s).setReg .ip target

/-- Settles O44: both returns are the same restore, from a state that differs in `inHandler` alone. -/
theorem returnsRestoreTheFrame : Obligations.ReturnsRestoreTheFrame := by
  rintro s i handler n hi rfl
  have hret : ReturnsWith i handler s := by
    rcases hi with ⟨rfl, rfl⟩ | ⟨rfl, rfl⟩
    · exact ret_returnsWith s
    · exact retInt_returnsWith s
  refine ⟨rfl, rfl, fun hroom => ?completes, fun k hk hroom hslot => hret.faults hk hroom hslot⟩
  case completes =>
    have hsaved : ∀ k, k < 9 → (restored (s.setInHandler handler)).reg (frameRegs.reverse.getD k .ip) =
        wordAt s (slotAbove (s.reg .fp) (k + 1)).toNat := restored_saved (s.setInHandler handler)
    exact ⟨_, hret.completes hroom, hsaved 0 (by decide), hsaved 1 (by decide), hsaved 2 (by decide),
      hsaved 3 (by decide), hsaved 4 (by decide), hsaved 5 (by decide), hsaved 6 (by decide), hsaved 7 (by decide),
      hsaved 8 (by decide), restored_sp _, restored_fp _,
      restored_sfs_of_adjust (s := s.setInHandler handler), restored_other _ _ (.inl rfl),
      restored_other _ _ (.inr rfl), fun a => by rw [restored_mem, State.setInHandler_mem], restored_inHandler _,
      restored_config _, restored_phase _, restored_response _⟩

/-- Settles O45: the callee still holds the frame of the call site, which lies `n + 1` words below the `sp` of before
the pushes. The slots that the return pops are those that the pushes had written, so none of them faults, even where
the stack has wrapped around. -/
theorem callReturnInvariance : Obligations.CallReturnInvariance := by
  rintro args s0 s1 s t u ra i hinv hlen hpush rfl hcal h hcfg hfp hwords
  obtain ⟨hroomArgs, hsite⟩ := pushSeq_callSite ra hpush
  rw [hsite] at h
  obtain ⟨target, hcall⟩ : ∃ target, CallsTo i target (callSite args ra s0) := by
    rcases hcal with ⟨a, rfl⟩ | ⟨r, rfl⟩
    · exact ⟨_, calLit_callsTo a _⟩
    · exact ⟨_, calReg_callsTo r _⟩
  obtain ⟨hroomFrame, rfl⟩ := hcall.of_completes h
  have hcfg0 : u.config = s0.config := by rw [hcfg, State.setReg_config, framed_config, callSite_config]
  have hholds : HoldsFrame u (callSite args ra s0) (BitVec.ofNat 16 args.length) :=
    holdsFrame_callSite.of_same hfp fun k hk => hwords k (by omega)
  have hcount : (BitVec.ofNat 16 args.length).toNat = args.length := by
    rw [BitVec.toNat_ofNat, Nat.mod_eq_of_lt hlen]
  have hpops : roomForPops u (u.reg .fp) (11 + frameArgs u) := by
    have hroom := roomForPops_of_pushes hcfg0
      (roomForPushes_add (callSite_config args ra s0) (callSite_sp args ra s0) hroomArgs hroomFrame)
    rw [hholds.fp, callSite_sp, slotBelow_slotBelow, hholds.frameArgs_eq, hcount,
      show 11 + args.length = args.length + 1 + 10 by omega]
    exact hroom
  refine ⟨restored u, ret_completes hpops, fun r hr => ?general, ?address, ?pointer, ?frame,
    fun hadjust => ?counter, restored_other u _ (.inl rfl), restored_other u _ (.inr rfl),
    fun a => by rw [restored_mem], restored_inHandler u⟩
  case general =>
    have hip : r ≠ .ip := fun e => absurd (e ▸ hr) (by decide)
    have hsp : r ≠ .sp := fun e => absurd (e ▸ hr) (by decide)
    rw [hholds.restored_reg (List.mem_append_left [.ip] hr), callSite_reg_other hip hsp]
  case address => rw [hholds.restored_reg (by decide), callSite_ip]
  case pointer =>
    rw [hholds.restored_sp, callSite_sp, hcount, slotBelow, BitVec.sub_add_cancel]
  case frame =>
    rw [hholds.restored_fp (frameInv_callSite hinv), callSite_reg_other (by decide) (by decide)]
  case counter =>
    rw [hholds.restored_sfs (hcfg0 ▸ hadjust), callSite_sfs, hcount, BitVec.add_sub_cancel]

end Sys2Proof.Machine
end

section
/-! INT and HLT (45_interrupt_system.md R200, R202): the vector entry that an INT reads, the three ways in which an
unmasked delivery ends, the eleven words of its context save, and the statements about INT outside a handler and HLT. -/

namespace Sys2Proof.Machine

/-! ## The vector entry (60_exceptions.md R216) -/

/-- In either reading of D7, the model reads the entry where the statements say it stands. -/
theorem VectorEntryAt.vectorAddress_eq {c : Config} {value : Word} {entry : Nat} (h : VectorEntryAt c value entry) :
    vectorAddress c (vectorOf value) = entry := by
  rcases h with ⟨hexact, rfl⟩ | ⟨hwrap, rfl⟩
  · exact effectiveAddress_exact _ hexact
  · rw [vectorAddress, effectiveAddress, if_pos hwrap, vectorOf]

/-! ## An unmasked delivery (60_exceptions.md R217) -/

/-- The handler address is read before any push (D11). -/
theorem deliver_unmasked {value : Word} {s : State} (hmask : (s.reg .im).getLsbD (vectorOf value) = true) :
    deliver value s = (memRead16 (vectorAddress s.config (vectorOf value)) s).bind fun handler s =>
      (saveContext s).bind fun _ s => .ok .delivered ((s.setInHandler true).setReg .ip handler) := by
  rw [deliver, if_pos hmask]

section
variable {value : Word} {entry : Nat} {s : State} (hmask : (s.reg .im).getLsbD (vectorOf value) = true)
  (hentry : VectorEntryAt s.config value entry)
include hmask hentry

theorem deliver_completes {t : State} (hin : entry + 1 < s.config.memSize) (hsave : saveContext s = .ok () t) :
    deliver value s = .ok .delivered ((t.setInHandler true).setReg .ip (wordAt s entry)) := by
  rw [deliver_unmasked hmask, hentry.vectorAddress_eq, memRead16_inside hin, Access.bind_ok, hsave, Access.bind_ok]

theorem deliver_vectorOutside (hout : s.config.memSize ≤ entry + 1) :
    deliver value s = .raised (s.raise (.outOfBounds entry 2)) := by
  rw [deliver_unmasked hmask, hentry.vectorAddress_eq, memRead16_outside hout, Access.bind_raised]

theorem deliver_saveFaults {f : Fault} (hin : entry + 1 < s.config.memSize) (hsave : saveContext s = .raised f) :
    deliver value s = .raised f := by
  rw [deliver_unmasked hmask, hentry.vectorAddress_eq, memRead16_inside hin, Access.bind_ok, hsave, Access.bind_raised]

end

theorem exec_int (value : Word) (s : State) :
    exec (.int value) s = ((deliver value s).bind fun _ t => .ok () t).outcome := rfl

/-- An INT that is masked or delivered completes in the state of the delivery (R200). -/
theorem exec_int_of_deliver_ok {value : Word} {s t : State} {d : Delivery} (h : deliver value s = .ok d t) :
    exec (.int value) s = .next t := by
  rw [exec_int, h, Access.bind_ok, Access.outcome_ok]

theorem exec_int_of_deliver_raised {value : Word} {s : State} {f : Fault} (h : deliver value s = .raised f) :
    exec (.int value) s = .fault f := by
  rw [exec_int, h, Access.bind_raised, Access.outcome_raised]

/-! ## The context save (60_exceptions.md R217) -/

/-- The words of a context save, in the order they are pushed: the argument-count placeholder, `r1` .. `r8`, `ip`, and
the frame size, which counts the eleven words. -/
def contextWords (s : State) : List Word := 0 :: (frameRegs.map s.reg ++ [s.sfs + 22])

@[simp] theorem contextWords_length (s : State) : (contextWords s).length = 11 := rfl

/-- The placeholder moves `sp` and `sfs` alone, so that the frame after it holds the registers of before. -/
theorem cons_frameWords_pushed (s : State) : 0 :: frameWords (pushed 0 s) = contextWords s := by
  have hregs : frameRegs.map (pushed 0 s).reg = frameRegs.map s.reg :=
    List.map_congr_left fun q hq => sameRegsBut_pushed 0 s q fun hsp => by
      obtain rfl := List.mem_singleton.1 hsp
      exact absurd hq (by decide)
  have hsize : (pushed 0 s).sfs + 20 = s.sfs + 22 := BitVec.add_assoc s.sfs 2 20
  rw [frameWords, hregs, hsize, contextWords]

/-- The memory of a context save is that of eleven pushes. -/
theorem framed_pushed_mem (s : State) : (framed (pushed 0 s)).mem = (pushedAll (contextWords s) s).mem := by
  rw [← cons_frameWords_pushed]
  rfl

theorem framed_pushed_sp (s : State) : (framed (pushed 0 s)).reg .sp = s.reg .sp - 22 := by
  rw [framed_sp, pushed_sp, BitVec.sub_sub]
  rfl

theorem framed_pushed_fp (s : State) : (framed (pushed 0 s)).reg .fp = s.reg .sp - 22 := by
  rw [framed_fp, pushed_sp, BitVec.sub_sub]
  rfl

theorem sameRegsBut_framed_pushed (s : State) : SameRegsBut [.sp, .fp] s (framed (pushed 0 s)) := fun q hq => by
  rw [sameRegsBut_framed _ q hq, sameRegsBut_pushed 0 s q fun hsp => hq (List.mem_append_left [Reg.fp] hsp)]

/-- Slot `k` below the `sp` of before the save holds word `k` of the context. -/
theorem wordAt_framed_pushed {s t : State} {k : Nat} (ht : t.mem = (framed (pushed 0 s)).mem) (hk : k < 11) :
    wordAt t (slotBelow (s.reg .sp) k).toNat = (contextWords s).getD k 0 :=
  wordAt_pushedAll (contextWords s) s k hk (by rw [contextWords_length]; decide) (ht.trans (framed_pushed_mem s))

/-- A save whose push `k` fails has pushed the first `k` words of the context. -/
theorem saveContext_faults_context {s : State} {k : Nat} (hn : s.inHandler = false) (hk : k < 11)
    (hroom : roomForPushes s k) (hslot : ¬ slotInBounds s (slotBelow (s.reg .sp) k)) :
    saveContext s = .raised ((pushedAll ((contextWords s).take k) s).raise
      (.outOfBounds (slotBelow (s.reg .sp) k).toNat 2)) := by
  rw [← cons_frameWords_pushed]
  exact saveContext_faults s hn k hk hroom hslot

/-- Of the words pushed before a push that fails, none is the frame size, which comes last. -/
theorem contextWords_getD {s : State} {j : Nat} (hj : j < 10) :
    (contextWords s).getD j 0 = ((0 : Word) :: frameRegs.map s.reg).getD j 0 := by
  rw [contextWords, ← List.cons_append]
  exact List.getD_append _ _ _ _ hj

/-- What the pushes of the first `k` of some words leave, each in its slot, at the raise of the fault of the next. -/
theorem pushedAll_take_raise {ws : List Word} {k : Nat} (hk : k ≤ ws.length) (hlen : 2 * ws.length < 65536)
    (s : State) (info : FaultInfo) {final : State} (hfinal : final = ((pushedAll (ws.take k) s).raise info).final) :
    final.reg .sp = slotBelow (s.reg .sp) k ∧ final.sfs = s.sfs + BitVec.ofNat 16 (2 * k) ∧
    (∀ j, j < k → wordAt final (slotBelow (s.reg .sp) j).toNat = ws.getD j 0) ∧
    SameMemoryOutsidePushes (s.reg .sp) k s final ∧ SameRegsBut [.sp] s final ∧ final.inHandler = s.inHandler ∧
    final.config = s.config := by
  have htake : (ws.take k).length = k := List.length_take_of_le hk
  have hmem : final.mem = (pushedAll (ws.take k) s).mem := by rw [hfinal, State.raise_final]; rfl
  have hreg : ∀ q, final.reg q = (pushedAll (ws.take k) s).reg q := fun q => by rw [hfinal, State.raise_final]; rfl
  refine ⟨?sp, ?sfs, fun j hj => ?word, ?outside, fun q hq => ?frame, ?handler, ?config⟩
  case sp => rw [hreg, pushedAll_reg, if_pos rfl, htake, slotBelow]
  case sfs =>
    rw [hfinal, State.raise_final, State.setResponse_sfs, State.setPhase_sfs, pushedAll_sfs, htake]
  case word =>
    rw [wordAt_pushedAll (ws.take k) s j (by omega) (by omega) hmem, List.getD_eq_getElem?_getD,
      List.getElem?_take_of_lt hj, ← List.getD_eq_getElem?_getD]
  case outside =>
    have houtside := sameMemory_pushedAll (ws.take k) hmem
    rwa [htake] at houtside
  case frame => rw [hreg, pushedAll_reg, if_neg (List.ne_of_not_mem_cons hq)]
  case handler => rw [hfinal, State.raise_final]; rfl
  case config => rw [hfinal, State.raise_final]; rfl

/-! ## HLT (R202) -/

theorem exec_hlt (s : State) : exec .hlt s = .next (s.setResponse .halted) := rfl

/-! ## The statements -/

/-- Settles O52: HLT is the write of the response alone. -/
theorem haltOnlyResponds : Obligations.HaltOnlyResponds :=
  ⟨rfl, fun s => ⟨_, exec_hlt s, State.setResponse_response s _, fun q _ => State.reg_setResponse s _ q,
    fun a => by rw [State.setResponse_mem], ⟨State.setResponse_inHandler s _, State.setResponse_sfs s _⟩,
    State.setResponse_config s _, State.setResponse_phase s _⟩⟩

/-- Settles O47: a delivery outside a handler is the eleven pushes of the context save, which leave word `k` in slot
`k`, and then the writes of `inHandler` and `ip`. -/
theorem intSavesContextAndVectors : Obligations.IntSavesContextAndVectors := by
  refine fun s value entry hentry hn hmask hin hroom => ⟨rfl, ?_⟩
  have hdeliver := deliver_completes hmask hentry hin (saveContext_inside hn hroom)
  have hword : ∀ k, k < 11 → wordAt (((framed (pushed 0 s)).setInHandler true).setReg .ip (wordAt s entry))
      (slotBelow (s.reg .sp) k).toNat = (contextWords s).getD k 0 := fun k hk => wordAt_framed_pushed rfl hk
  refine ⟨_, exec_int_of_deliver_ok hdeliver, hword 0 (by decide), hword 1 (by decide), hword 2 (by decide),
    hword 3 (by decide), hword 4 (by decide), hword 5 (by decide), hword 6 (by decide), hword 7 (by decide),
    hword 8 (by decide), hword 9 (by decide), hword 10 (by decide), ?ip, ?sp, ?fp, rfl, rfl,
    sameMemory_pushedAll (contextWords s) (framed_pushed_mem s), fun q hq => ?frame, ?engine⟩
  case ip => rw [State.reg_setReg, if_pos rfl]
  case sp => rw [State.reg_setReg, if_neg (by decide), State.reg_setInHandler, framed_pushed_sp]
  case fp => rw [State.reg_setReg, if_neg (by decide), State.reg_setInHandler, framed_pushed_fp]
  case frame =>
    obtain ⟨hsp, hfp, hip⟩ : q ≠ .sp ∧ q ≠ .fp ∧ q ≠ .ip := by simpa using hq
    rw [State.reg_setReg, if_neg hip, State.reg_setInHandler, sameRegsBut_framed_pushed s q (by simp [hsp, hfp])]
  case engine =>
    have hengine : SameEngine s ((framed (pushed 0 s)).setInHandler true) := sameEngine_framed (pushed 0 s)
    exact hengine.setReg .ip _

/-- Settles O49: the vector entry is read first, so that a fault there has changed nothing; a push that fails after it
has done the pushes before it, and `inHandler` is written only once all of them are done. -/
theorem intFaultsBeforeOrDuringTheSave : Obligations.IntFaultsBeforeOrDuringTheSave := by
  refine fun s value entry hentry hmask =>
    ⟨fun hout => exec_int_of_deliver_raised (deliver_vectorOutside hmask hentry hout),
      fun hin hn k hk hroom hslot => ?_⟩
  have hdeliver := deliver_saveFaults hmask hentry hin (saveContext_faults_context hn hk hroom hslot)
  obtain ⟨hsp, hsfs, hword, hmem, hregs, hhandler, hconfig⟩ :=
    pushedAll_take_raise (ws := contextWords s) (Nat.le_of_lt hk) (by rw [contextWords_length]; decide) s
      (.outOfBounds (slotBelow (s.reg .sp) k).toNat 2) rfl
  exact ⟨_, exec_int_of_deliver_raised hdeliver, hsp, hsfs,
    fun j hj => (hword j hj).trans (contextWords_getD (by omega)), hmem, hregs, hhandler.trans hn, hconfig⟩

end Sys2Proof.Machine
end

section
/-! Faults and interrupts (60_exceptions.md R210 to R221): what a transaction that faults leaves, the illegal opcode
byte, the call whose frame save fails, the `IRQ` port beside INT, and the round trip of an interrupt. -/

namespace Sys2Proof.Machine

/-! ## Transactions that fault (R210 to R213) -/

/-- A `LOAD` that faults was past the end of memory, and raised the fault in the state it started from (00_scope.md R9).
-/
theorem load_eq_fault {s : State} {addr : Nat} {bytes : List Byte} {f : Fault} (h : load addr bytes s = .fault f) :
    f = s.raise (.outOfBounds (addr + bytes.length - 1) 1) := by
  cases hp : s.phase with
  | loading =>
    by_cases hb : addr + bytes.length ≤ s.config.memSize
    · simp [load_inside hp hb] at h
    · rw [load_outside hp (Nat.lt_of_not_le hb)] at h
      exact (Host.Outcome.fault.inj h).symm
  | running => simp [load_of_running addr bytes hp] at h
  | ended => simp [load, hp] at h

/-- A transaction that faults has ended the run with the fault as its response, keeps the configuration, and does not
raise `UnknownRegister` (code 3). -/
theorem transact_eq_fault {s : State} {tr : Transaction} {f : Fault} (h : transact tr s = .fault f) :
    f.final.config = s.config ∧ f.final.phase = .ended ∧ f.final.response = .fault f.info ∧ f.info.code ≠ 3 := by
  cases tr with
  | load addr bytes =>
    obtain rfl := load_eq_fault h
    exact ⟨rfl, rfl, rfl, by simp [FaultInfo.code]⟩
  | step | irq | exec =>
    have hp : s.phase ≠ .ended := fun he => by simp [transact_of_ended _ he] at h
    have hkeeps : OutcomeKeeps s.start (.fault f) := by
      rw [← h]
      exact transact_keeps _ (by simp) hp
    obtain ⟨hconfig, hphase, hresponse, _, hcode⟩ := hkeeps
    exact ⟨hconfig, hphase, hresponse, hcode⟩

/-! ## The illegal opcode byte (R214) -/

/-- A byte that is no opcode raises before any operand is fetched. -/
theorem decodeOpcode_of_illegal {s : State} {op : Byte} (addr : Word) (hop : mnemonicOf s.config.opcodeMap op = none) :
    decodeOpcode op addr s = .raised (s.raise (.illegalInstruction op addr)) := by
  simp only [decodeOpcode, hop]

/-- `STEP` on a byte that is no opcode: the opcode fetch, then the raise. -/
theorem step_of_illegal {s : State} (hp : s.phase ≠ .ended) (hip : (s.reg .ip).toNat < s.config.memSize)
    (hop : mnemonicOf s.config.opcodeMap (s.mem.byteAt (s.reg .ip).toNat) = none) :
    step s = .fault ((opcodeFetched s).raise
      (.illegalInstruction (s.mem.byteAt (s.reg .ip).toNat) (s.reg .ip))) := by
  rw [step_opcode_inside hp hip, decodeOpcode_of_illegal (s := opcodeFetched s) _ hop, runFetched]

/-- `EXEC` of a byte that is no opcode: the raise alone. -/
theorem execOpcode_of_illegal {s : State} {op : Byte} (hp : s.phase ≠ .ended)
    (hop : mnemonicOf s.config.opcodeMap op = none) :
    execOpcode op s = .fault (s.start.raise (.illegalInstruction op (s.reg .ip))) := by
  rw [execOpcode_of_not_ended op hp, decodeOpcode_of_illegal (s := s.start) _ hop, runFetched]

/-! ## A call whose frame save fails (R213) -/

/-- A call whose push `k` fails has pushed the first `k` words of its frame and not written `ip`. -/
theorem CallsTo.faults {i : Instr} {target : Word} {s : State} {k : Nat} (hcall : CallsTo i target s) (hk : k < 10)
    (hroom : roomForPushes s k) (hslot : ¬ slotInBounds s (slotBelow (s.reg .sp) k)) :
    exec i s = .fault ((pushedAll ((frameWords s).take k) s).raise
      (.outOfBounds (slotBelow (s.reg .sp) k).toNat 2)) := by
  have hpush : pushState s = _ := pushState_faults s k hk hroom hslot
  rw [hcall, hpush, Access.bind_raised, Access.outcome_raised]
  rfl

/-! ## INT and IRQ as one delivery (R215, R217) -/

/-- An INT that completes is a delivery that completes, in the same state. -/
theorem exec_int_eq_next {value : Word} {s t : State} (h : exec (.int value) s = .next t) :
    ∃ d, deliver value s = .ok d t := by
  obtain ⟨d, _, hdeliver, hend⟩ := Access.bind_eq_ok (Access.outcome_eq_next h)
  injection hend with _ hend
  exact ⟨d, hend ▸ hdeliver⟩

/-- An INT that faults is a delivery that faults. -/
theorem exec_int_eq_fault {value : Word} {s : State} {f : Fault} (h : exec (.int value) s = .fault f) :
    deliver value s = .raised f := by
  rcases Access.bind_eq_raised (Access.outcome_eq_fault h) with hdeliver | ⟨_, _, _, hend⟩
  · exact hdeliver
  · cases hend

/-- An `IRQ` whose delivery completes adds the response to the state of the delivery. -/
theorem irq_of_deliver_ok {value : Word} {s t : State} {d : Delivery} (hp : s.phase ≠ .ended)
    (h : deliver value s.start = .ok d t) : irq value s = .next (t.setResponse d.response) := by
  rw [irq_of_not_ended value hp, h, Access.bind_ok, Access.outcome_ok]

theorem irq_of_deliver_raised {value : Word} {s : State} {f : Fault} (hp : s.phase ≠ .ended)
    (h : deliver value s.start = .raised f) : irq value s = .fault f := by
  rw [irq_of_not_ended value hp, h, Access.bind_raised, Access.outcome_raised]

/-- An `IRQ` that completes is a delivery that completes and then the response. -/
theorem irq_eq_next {value : Word} {s t : State} (h : irq value s = .next t) :
    ∃ d u, deliver value s.start = .ok d u ∧ t = u.setResponse d.response := by
  have hp : s.phase ≠ .ended := fun he => by
    have hrefused : irq value s = .refused .runEnded := transact_of_ended (.irq value) he
    simp [hrefused] at h
  rw [irq_of_not_ended value hp] at h
  obtain ⟨d, u, hdeliver, hend⟩ := Access.bind_eq_ok (Access.outcome_eq_next h)
  injection hend with _ hend
  exact ⟨d, u, hdeliver, hend.symm⟩

/-- The mask alone decides what `IRQ` responds when its delivery completes (R218). -/
theorem deliver_response {value : Word} {s t : State} {d : Delivery} (h : deliver value s = .ok d t) :
    d.response = if (s.reg .im).getLsbD (vectorOf value) = true then .delivered else .masked := by
  rcases deliver_ok h with ⟨hmask, rfl, _⟩ | ⟨hmask, rfl, _⟩
  · rw [hmask]
    rfl
  · rw [if_pos hmask]
    rfl

/-! ## The handler of an interrupt (R217, R221) -/

/-- `t` stands at the first instruction of the handler of an interrupt that was taken outside a handler in `s`: the
eleven words of the context are saved in bounds, and `fp` marks their frame. -/
structure EntersHandler (s t : State) : Prop where
  room : roomForPushes s 11
  config : t.config = s.config
  mem : t.mem = (framed (pushed 0 s)).mem
  fp : t.reg .fp = s.reg .sp - 22

section
variable {value : Word} {s t : State} (hn : s.inHandler = false)
  (hmask : (s.reg .im).getLsbD (vectorOf value) = true)
include hn hmask

theorem deliver_entersHandler {d : Delivery} (h : deliver value s = .ok d t) : EntersHandler s t := by
  rcases deliver_ok h with ⟨hmasked, _⟩ | ⟨_, _, _, hsave, rfl⟩
  · exact absurd hmask (by simp [hmasked])
  rcases saveContext_ok hsave with ⟨hnested, _⟩ | ⟨_, hroom, hcontext⟩
  · exact absurd hnested (by simp [hn])
  rw [hcontext]
  refine ⟨hroom, rfl, rfl, ?fp⟩
  case fp => rw [State.reg_setReg, if_neg (by decide), State.reg_setInHandler, framed_pushed_fp]

/-- An interrupt enters its handler in the same way whether INT or `IRQ` took it. -/
theorem interrupt_entersHandler (h : exec (.int value) s = .next t ∨ irq value s = .next t) : EntersHandler s t := by
  rcases h with hint | hirq
  · obtain ⟨d, hdeliver⟩ := exec_int_eq_next hint
    exact deliver_entersHandler hn hmask hdeliver
  · obtain ⟨d, u, hdeliver, rfl⟩ := irq_eq_next hirq
    obtain ⟨hroom, hconfig, hmem, hfp⟩ := deliver_entersHandler (s := s.start) hn hmask hdeliver
    exact ⟨hroom, hconfig, hmem, hfp⟩

end

/-- The frame of a context save has no arguments: the placeholder before it is their number. -/
theorem EntersHandler.holdsFrame {s t : State} (h : EntersHandler s t) : HoldsFrame t (pushed 0 s) 0 := by
  refine holdsFrame_framed (b := s) (pushed_sp 0 s) (pushed_mem 0 s) h.mem ?_
  rw [h.fp, pushed_sp, BitVec.sub_sub]
  rfl

/-- The eleven words that RET_INT pops are those that the delivery pushed, so none of its pops faults. -/
theorem EntersHandler.roomForPops {s t u : State} (h : EntersHandler s t) (hconfig : u.config = t.config)
    (hframe : HoldsFrame u (pushed 0 s) 0) : roomForPops u (u.reg .fp) (11 + frameArgs u) := by
  have hfp : u.reg .fp = slotBelow (s.reg .sp) 11 := by
    rw [hframe.fp, pushed_sp, slotBelow, BitVec.sub_sub]
    rfl
  rw [hframe.frameArgs_eq, hfp]
  exact roomForPops_of_pushes (hconfig.trans h.config) h.room

/-- A return from the frame of a context save gives back every register that delivery or the save had moved: `r1` ..
`r8` and `ip` from the frame, `sp` above the placeholder, and `fp` by R194's invariant. -/
theorem HoldsFrame.restored_interrupted {s u : State} (h : HoldsFrame u (pushed 0 s) 0) (hinv : FrameInv s) {r : Reg}
    (hr : r ∈ [Reg.r1, .r2, .r3, .r4, .r5, .r6, .r7, .r8, .ip, .sp, .fp]) : (restored u).reg r = s.reg r := by
  have hcases : r ∈ frameRegs ∨ r = .sp ∨ r = .fp := by simpa [frameRegs, or_assoc] using hr
  rcases hcases with hframe | rfl | rfl
  · have hsp : r ≠ .sp := fun e => absurd (e ▸ hframe) (by decide)
    rw [h.restored_reg hframe, pushed_reg, if_neg hsp]
  · rw [h.restored_sp]
    exact pushed_sp_add_two 0 s
  · rw [h.restored_fp (hinv.pushed 0), pushed_reg, if_neg (by decide)]

/-- A return from the frame of a context save takes the placeholder off `sfs` too, in R183's reading of D9. -/
theorem HoldsFrame.restored_interrupted_sfs {s u : State} (h : HoldsFrame u (pushed 0 s) 0)
    (hadjust : u.config.readings.popStateSfsAdjust = 2) : (restored u).sfs = s.sfs := by
  rw [h.restored_sfs hadjust, pushed_sfs]
  exact BitVec.add_sub_cancel s.sfs 2

/-! ## The statements -/

/-- Settles O18, by what a transaction that faults leaves: the phase that refuses every transaction. -/
theorem faultEndsTheRun : Obligations.FaultEndsTheRun := by
  intro tr s f h
  obtain ⟨hconfig, hphase, hresponse, _⟩ := transact_eq_fault h
  exact ⟨hphase, hresponse, hconfig, fun tr' => transact_of_ended tr' hphase⟩

/-- Settles O19: `UnknownRegister` has code 3, which no transaction raises. -/
theorem unknownRegisterIsNeverRaised : Obligations.UnknownRegisterIsNeverRaised := by
  intro tr s index final h
  obtain ⟨_, _, _, hcode⟩ := transact_eq_fault h
  exact hcode rfl

/-- Settles O43: the call is its frame save, and the words pushed before the fault are the first `k` of the frame. -/
theorem faultingCallLeavesEarlierPushes : Obligations.FaultingCallLeavesEarlierPushes := by
  intro s a r k hk hroom hslot i hi
  obtain ⟨target, hcall⟩ : ∃ target, CallsTo i target s := by
    rcases hi with rfl | rfl
    · exact ⟨_, calLit_callsTo a s⟩
    · exact ⟨_, calReg_callsTo r s⟩
  exact ⟨_, hcall.faults hk hroom hslot,
    pushedAll_take_raise (ws := frameWords s) (Nat.le_of_lt hk) (by rw [frameWords_length]; decide) s
      (.outOfBounds (slotBelow (s.reg .sp) k).toNat 2) rfl⟩

/-- Settles O50: both are the same delivery, which `IRQ` follows with its response. -/
theorem irqDeliversAsIntDoes : Obligations.IrqDeliversAsIntDoes := by
  refine fun s value hp => ⟨fun t h => ?completes, fun f h => irq_of_deliver_raised hp (exec_int_eq_fault h)⟩
  case completes =>
    obtain ⟨d, hdeliver⟩ := exec_int_eq_next h
    rw [irq_of_deliver_ok hp hdeliver, deliver_response hdeliver]
    rfl

/-- Settles O51: the handler leaves the frame of the delivery in place, and RET_INT restores it. -/
theorem interruptRoundTrip : Obligations.InterruptRoundTrip := by
  intro s t u value hinv hn hmask h hconfig hfp hwords
  have henters : EntersHandler s t := interrupt_entersHandler hn hmask h
  have hframe : HoldsFrame (u.setInHandler false) (pushed 0 s) 0 := henters.holdsFrame.of_same hfp hwords
  have hroom : roomForPops (u.setInHandler false) (u.reg .fp) (11 + frameArgs u) :=
    henters.roomForPops (u := u.setInHandler false) hconfig hframe
  refine ⟨_, (retInt_returnsWith u).completes hroom, fun r hr => hframe.restored_interrupted hinv hr,
    fun hadjust => hframe.restored_interrupted_sfs ?config, restored_inHandler _, restored_other _ _ (.inl rfl),
    restored_other _ _ (.inr rfl), fun a => by rw [restored_mem, State.setInHandler_mem]⟩
  case config => rwa [State.setInHandler_config, hconfig, henters.config]

/-- Settles O15: the raise comes right after the opcode fetch of `STEP`, and first of all under `EXEC`. -/
theorem illegalOpcodeRaises : Obligations.IllegalOpcodeRaises :=
  ⟨fun s hp hip hop => ⟨_, step_of_illegal hp hip hop, opcodeFetched_reg_ip s,
      fun _ hq => opcodeFetched_reg_other (List.ne_of_not_mem_cons hq), fun _ => rfl, ⟨rfl, rfl⟩, rfl⟩,
    fun _ _ hp hop => ⟨_, execOpcode_of_illegal hp hop, fun _ _ => rfl, fun _ => rfl, ⟨rfl, rfl⟩, rfl⟩⟩

/-- Settles O46: a masked delivery changes nothing, and `IRQ` adds its response to it. -/
theorem maskedInterruptChangesNothing : Obligations.MaskedInterruptChangesNothing :=
  fun s _ hmask => ⟨exec_int_of_deliver_ok (deliver_masked hmask), fun hp =>
    ⟨_, irq_of_deliver_ok hp (deliver_masked (s := s.start) hmask), rfl, fun _ _ => rfl, rfl, ⟨rfl, rfl⟩, rfl⟩⟩

/-- Settles O48: the context save inside a handler does nothing, and `inHandler` is written as it was. -/
theorem nestedIntOnlyRedirects : Obligations.NestedIntOnlyRedirects := by
  intro s value entry hentry hn hmask hin
  have hdeliver := deliver_completes hmask hentry hin (saveContext_nested hn)
  have hself : s.setInHandler true = s := by rw [← hn]; rfl
  rw [hself] at hdeliver
  refine ⟨_, exec_int_of_deliver_ok hdeliver, ?_, onlyRegsChanged_setReg s .ip _⟩
  rw [State.reg_setReg, if_pos rfl]

end Sys2Proof.Machine
end

section
/-! The alternative readings (92_eei_decisions.md D4, D6, D7, D9): what each named alternative makes of the operation
that reads it, the two forms of a jump and of a shift as one instruction, and the statement about all of them. -/

namespace Sys2Proof.Machine

/-! ## Jumps with `acc` on the left (D4) -/

theorem jumpTaken_accOnLeft {op : Comparison} {v : Word} {s : State}
    (h : s.config.readings.jumpOperandOnLeft = false) : jumpTaken op v s = op.holds (s.reg .acc) v := by
  rw [jumpTaken, h, if_neg Bool.false_ne_true]

/-- The literal and the register form of a jump are one jump on the word `v` that they compare. -/
theorem exec_jumpForms {i literal : Instr} {register : Reg → Instr} {op : Comparison} {v target : Word} {s : State}
    (hliteral : exec literal s = .next (jumpIf op v target s))
    (hregister : ∀ r, exec (register r) s = .next (jumpIf op (s.reg r) target s))
    (hi : i = literal ∨ ∃ r, i = register r ∧ v = s.reg r) : exec i s = .next (jumpIf op v target s) := by
  rcases hi with rfl | ⟨r, rfl, rfl⟩
  · exact hliteral
  · exact hregister r

/-! ## Shifts by an amount mod 32 (D6) -/

theorem shiftAmount_mod32 {c : Config} (amount : Nat) (h : c.readings.shiftMod32 = true) :
    shiftAmount c amount = amount % 32 := by
  rw [shiftAmount, if_pos h]

/-- The literal and the register form of a shift are one shift by the number `amount` that their operand holds. -/
theorem exec_shiftForms {i : Instr} {literal : Byte → Instr} {register : Reg → Instr} {shift : Word → Nat → Word}
    {r : Reg} {amount : Nat} {s : State}
    (hliteral : ∀ b, exec (literal b) s = .next (s.setReg r (shift (s.reg r) (shiftAmount s.config b.toNat))))
    (hregister : ∀ rb,
      exec (register rb) s = .next (s.setReg r (shift (s.reg r) (shiftAmount s.config (s.reg rb).toNat))))
    (hi : (∃ b, i = literal b ∧ amount = b.toNat) ∨ ∃ rb, i = register rb ∧ amount = (s.reg rb).toNat) :
    exec i s = .next (s.setReg r (shift (s.reg r) (shiftAmount s.config amount))) := by
  rcases hi with ⟨b, rfl, rfl⟩ | ⟨rb, rfl, rfl⟩
  · exact hliteral b
  · exact hregister rb

/-! ## Addresses that wrap around (D7) -/

theorem effectiveAddress_wraps {c : Config} (sum : Nat) (h : c.readings.eaWrap16 = true) :
    effectiveAddress c sum = sum % 65536 := by
  rw [effectiveAddress, if_pos h]

/-- The indexed address that wraps around is the sum of the two words. -/
theorem indexedAddress_wraps {s : State} (base : Word) (ri : Reg) (h : s.config.readings.eaWrap16 = true) :
    indexedAddress base ri s = (base + s.reg ri).toNat := by
  rw [indexedAddress, effectiveAddress_wraps _ h, BitVec.toNat_add]

/-! ## `sfs` after a return (D9) -/

theorem ofNat_two_mul_toNat (w : Word) : BitVec.ofNat 16 (2 * w.toNat) = 2 * w := by
  rw [BitVec.ofNat_mul, BitVec.ofNat_toNat, BitVec.setWidth_eq]
  rfl

/-- A return that completes has restored the frame. -/
theorem ReturnsWith.of_completes {i : Instr} {handler : Bool} {s t : State} (hret : ReturnsWith i handler s)
    (h : exec i s = .next t) : t = restored (s.setInHandler handler) :=
  (popState_ok (Access.outcome_eq_next (hret ▸ h))).2

/-- A return takes from the popped frame size the configured adjustment, the ten words popped after it, and the
arguments. -/
theorem ReturnsWith.sfs_of_completes {i : Instr} {handler : Bool} {s t : State} (hret : ReturnsWith i handler s)
    (h : exec i s = .next t) :
    t.sfs = frameSlot s 0 - s.config.readings.popStateSfsAdjust - 20 - 2 * frameSlot s 10 := by
  rw [hret.of_completes h, restored_sfs, frameArgs, ofNat_two_mul_toNat]
  rfl

/-! ## The statement -/

/-- Settles O38: each alternative changes one operation, and every instruction that reads it goes through that
operation. -/
theorem alternativeReadingsAreTheNamedOnes : Obligations.AlternativeReadingsAreTheNamedOnes := by
  refine ⟨fun s i v t hreading => ⟨fun hi => ?ne, fun hi => ?eq, fun hi => ?lt, fun hi => ?gt, fun hi => ?le,
      fun hi => ?ge⟩,
    fun s i r amount hreading => ⟨fun hi => ?left, fun hi => ?right⟩, fun s base ri rd hreading => ?indexed,
    fun c v hreading => effectiveAddress_wraps _ hreading, fun s t i hi h => ?returns⟩
  case ne =>
    exact jump_completes (jumpTaken_accOnLeft hreading) (Comparison.holds_ne ..)
      (exec_jumpForms (exec_jneLit v t s) (exec_jneReg · t s) hi)
  case eq =>
    exact jump_completes (jumpTaken_accOnLeft hreading) (Comparison.holds_eq ..)
      (exec_jumpForms (exec_jeqLit v t s) (exec_jeqReg · t s) hi)
  case lt =>
    exact jump_completes (jumpTaken_accOnLeft hreading) (Comparison.holds_lt ..)
      (exec_jumpForms (exec_jltLit v t s) (exec_jltReg · t s) hi)
  case gt =>
    exact jump_completes (jumpTaken_accOnLeft hreading) (Comparison.holds_gt ..)
      (exec_jumpForms (exec_jgtLit v t s) (exec_jgtReg · t s) hi)
  case le =>
    exact jump_completes (jumpTaken_accOnLeft hreading) (Comparison.holds_le ..)
      (exec_jumpForms (exec_jleLit v t s) (exec_jleReg · t s) hi)
  case ge =>
    exact jump_completes (jumpTaken_accOnLeft hreading) (Comparison.holds_ge ..)
      (exec_jumpForms (exec_jgeLit v t s) (exec_jgeReg · t s) hi)
  case left =>
    obtain ⟨t, hnext, hvalue, hframe⟩ := shiftLeft_completes (shiftAmount_mod32 amount hreading)
      (exec_shiftForms (exec_lsfRegLit r · s) (exec_lsfRegReg r · s) hi)
    exact ⟨t, hnext, hframe, hvalue⟩
  case right =>
    obtain ⟨t, hnext, hvalue, hframe⟩ := shiftRight_completes (shiftAmount_mod32 amount hreading)
      (exec_shiftForms (exec_rsfRegLit r · s) (exec_rsfRegReg r · s) hi)
    exact ⟨t, hnext, hframe, hvalue⟩
  case indexed =>
    have hsrc : readSource (.indexed base ri) s = memRead16 (base + s.reg ri).toNat s := by
      rw [readSource, indexedAddress_wraps base ri hreading]
    rw [exec_movLitOffReg]
    exact moveToReg_fromMemory rd hsrc
  case returns =>
    rcases hi with rfl | rfl
    · exact (ret_returnsWith s).sfs_of_completes h
    · exact (retInt_returnsWith s).sfs_of_completes h

end Sys2Proof.Machine
end
